-- ==== Sys2Proof/Word.lean ====
section
/-! DEFINITION. The widths of the machine: 32-bit words, 16-bit short instructions, 8-bit bytes (00_scope.md R3). -/

namespace Sys2Proof

/-- A register, an address or a long instruction: 32 bits (R3). -/
abbrev Word := BitVec 32

/-- A short instruction: 16 bits (R90). -/
abbrev Half := BitVec 16

/-- A memory cell: 8 bits (R3, R39). -/
abbrev Byte := BitVec 8

end Sys2Proof
end

