-- ==== Sys2Proof/Config.lean ====
section
/-! DEFINITION. The types of the named parameters of 00_scope.md R4, and the constants that nothing in
the spec fixes: they are opaque, so no proof can see a value.

The VALUES of the parameters that have one stand in Machine/Params.lean. -/

namespace Sys2Proof.Config

/-- Where each flag lies in the 32-bit value of `SR` (`SR_LAYOUT`, R33). -/
structure SrLayout where
  z : Nat
  c : Nat
  n : Nat
  v : Nat
  m : Nat
  zd : Nat
  il : Nat
  wfi : Nat
  step : Nat
  hwi : Nat
  nul : Nat
deriving DecidableEq, Repr

/-- Which half of a pair is the first instruction (`PAIR_ORDER`, R93). -/
inductive PairOrder where
  | lowFirst
  | highFirst
deriving DecidableEq, Repr

/-- What `C` is after a subtraction (`SUB_CARRY`, R159). -/
inductive SubCarry where
  | borrow
  | notBorrow
deriving DecidableEq, Repr

/-- Whether fetching word 0 is an access to the null address (`NULL_FETCH`, R71). -/
inductive NullFetch where
  | faults
  | ordinary
deriving DecidableEq, Repr

/-- What the `PC` of the faulting mode holds after a fault (`FAULT_PC`, R285). -/
inductive FaultPc where
  | this
  | next
deriving DecidableEq, Repr, Inhabited

/-- The two shifts, for `SHIFT_LARGE` (R160). -/
inductive ShiftKind where
  | logical
  | arithmetic
deriving DecidableEq, Repr

/-- The three one-byte ports (R74). -/
inductive Port where
  | lcdCtrl
  | lcdData
  | cpuSpeed
deriving DecidableEq, Repr

/-- What `MEMMAP` says of one address (R72). -/
inductive Region where
  | ram
  | rom
  | port (p : Port)
  | nothing
deriving DecidableEq, Repr

/-- Whether the platform has an interrupt input (`IRQ`, R43, R290): none, or a predicate over steps, given the
number of the step. -/
abbrev Irq := Option (Nat → Bool)

/-- `FAULT_PC` (R285, D27). The spec leaves it open: "a proof about a fault handler must hold for both".
Log entry 11. -/
opaque faultPc : FaultPc

/-- The `k`-th free bit: the value of an `any` of one bit (R6, R160, R161, R135). Log entries 6 and 7. -/
opaque freeBit : Nat → Bool

/-- The `k`-th free word: the value of an `any` of 32 bits (R6, R72, R76, R242). Log entries 8 and 9. -/
opaque freeWord : Nat → Word

/-- What the byte at an address holds before anything has written it (R45, R78 "the initial content").
Log entry 5. -/
opaque initialByte : Nat → Byte

end Sys2Proof.Config
end

