-- ==== Sys2Proof/Machine/Params.lean ====
section
/-! DEFINITION. The values of the named parameters of 00_scope.md R4 that have one: the spec's defaults, and
`RESET_PC`, for which the spec gives none. Everything else of the model reads a parameter here. -/

namespace Sys2Proof.Machine.Params
open Sys2Proof Sys2Proof.Config

/-- `SR_LAYOUT` = consecutive (R33, D2). Log entry 18. -/
def srLayout : SrLayout :=
  { z := 0, c := 1, n := 2, v := 3, m := 4, zd := 5, il := 6, wfi := 7, step := 8, hwi := 9, nul := 10 }

/-- `PAIR_ORDER` = low_first (R93, D6). Log entry 19. -/
def pairOrder : PairOrder := .lowFirst

/-- `SUB_CARRY` = borrow (R159, D13). Log entry 20. -/
def subCarry : SubCarry := .borrow

/-- `SHIFT_LARGE` = mathematical (R160, D15): the result of a shift of magnitude 32 or more. Log entry 21. -/
def shiftLarge (k : ShiftKind) (a : Word) (n : Int) : Word :=
  match k with
  | .logical => 0
  | .arithmetic => if n < 0 then (if a.msb then BitVec.allOnes 32 else 0) else 0

/-- `NULL_FETCH` = faults (R71, D21). Log entry 22. -/
def nullFetch : NullFetch := .faults

/-- `DIVS_ROUND` = truncate (R236, D32): the quotient of two integers. Log entry 23. -/
def divsRound (a b : Int) : Int := Int.tdiv a b

/-- `MISALIGNED` = refuse (R65, D19): where an access of `n` bytes at the misaligned `ea` takes place;
`none` is the refusal. Log entry 16. -/
def misaligned (_ea : Word) (_n : Nat) : Option Word := none

/-- `MEMMAP` = the conventional map (R72, D36). Address 0 is the inaccessible one (R71). Log entry 24. -/
def memmap (a : Word) : Region :=
  let n := a.toNat
  if n = 0 then .nothing
  else if n ≤ 0x0000FFFF then .rom
  else if n ≤ 0xEFFFFFFF then .ram
  else if n = 0xFFFFFFFD then .port .cpuSpeed
  else if n = 0xFFFFFFFE then .port .lcdData
  else if n = 0xFFFFFFFF then .port .lcdCtrl
  else .nothing

/-- `IRQ` = none (R290, D29): the platform has no interrupt input. Log entry 15. -/
def irq : Irq := none

/-- `RESET_PC` (R322, D31): open in the spec, here "Usual code position". DESIGN CHOICE, log entry 1. -/
def resetPc : Word := 0x00010000

end Sys2Proof.Machine.Params
end

