-- ==== Sys2Proof/Syntax.lean ====
section
/-! DEFINITION. The instruction set as syntax: the 34 rows of 30_encoding.md R104, one constructor each,
with the register names of 10_state.md R22 and the condition specifiers of 40_conditions_and_cnd.md R130. -/

namespace Sys2Proof

/-- The sixteen register names of a set (R22): `R0` to `R10`, `SR` (R11), `LR` (R12), `FP` (R13), `SP` (R14), `PC` (R15). -/
inductive Reg where
  | r0 | r1 | r2 | r3 | r4 | r5 | r6 | r7 | r8 | r9 | r10
  | sr | lr | fp | sp | pc
deriving DecidableEq, Repr

/-- The eight conditions (R131). -/
inductive Cond where
  | always
  | ifV
  | ifZ
  | ifNZ
  | ifLT
  | ifGE
  | ifC
  | ifNC
deriving DecidableEq, Repr

/-- A condition specifier: bit 3 freezes the flags, bits 2..0 are the condition (R130). -/
structure Specifier where
  freeze : Bool
  cond : Cond
deriving DecidableEq, Repr

/-- The specifier `0000`: always executed, flags not frozen (R137). -/
def Specifier.none : Specifier := ⟨false, .always⟩

/-- The instructions (R104). The "Unused?.." fields of the Misc formats are no operands (R105). -/
inductive Instr where
  | nop
  | add (d s1 s2 : Reg)
  | sub (d s1 s2 : Reg)
  | lsh (d s1 s2 : Reg)
  | ash (d s1 s2 : Reg)
  | and (d s1 s2 : Reg)
  | or (d s1 s2 : Reg)
  | xor (d s1 s2 : Reg)
  | cnd (c1 c2 c3 : Specifier)
  | addi (d s : Reg) (imm : BitVec 14) (c : Specifier)
  | subi (d s : Reg) (imm : BitVec 14) (c : Specifier)
  | lshi (d s : Reg) (imm : BitVec 14) (c : Specifier)
  | ashi (d s : Reg) (imm : BitVec 14) (c : Specifier)
  | andi (d s : Reg) (imm : BitVec 14) (c : Specifier)
  | ori (d s : Reg) (imm : BitVec 14) (c : Specifier)
  | xori (d s : Reg) (imm : BitVec 14) (c : Specifier)
  | ldh (d s : Reg) (imm : BitVec 14) (c : Specifier)
  | ldi (d : Reg) (imm : BitVec 20) (c : Specifier)
  | mltu (s1 s2 : Reg) (c : Specifier)
  | mlts (s1 s2 : Reg) (c : Specifier)
  | divu (s1 s2 : Reg) (c : Specifier)
  | divs (s1 s2 : Reg) (c : Specifier)
  | mvsu (d s : Reg) (c : Specifier)
  | mvus (d s : Reg) (c : Specifier)
  | mvhi (d : Reg) (c : Specifier)
  | mvlo (d : Reg) (c : Specifier)
  | lw (sd a : Reg) (imm : BitVec 15) (c : Specifier)
  | sw (sd a : Reg) (imm : BitVec 15) (c : Specifier)
  | sh (sd a : Reg) (imm : BitVec 15) (c : Specifier)
  | sb (sd a : Reg) (imm : BitVec 15) (c : Specifier)
  | lhu (sd a : Reg) (imm : BitVec 15) (c : Specifier)
  | lhs (sd a : Reg) (imm : BitVec 15) (c : Specifier)
  | lbu (sd a : Reg) (imm : BitVec 15) (c : Specifier)
  | lbs (sd a : Reg) (imm : BitVec 15) (c : Specifier)
deriving DecidableEq, Repr

end Sys2Proof
end

