-- ==== Sys2Proof/Machine/State.lean ====
section
/-! DEFINITION. The state of the machine (10_state.md), why a step can stop, and the state after reset
(R45, 70_reset_and_hazards.md R320). -/

namespace Sys2Proof.Machine
open Sys2Proof Sys2Proof.Config

/-- The two modes (R21). -/
inductive Mode where
  | supervisor
  | user
deriving DecidableEq, Repr

/-- The ten stored flags of one `SR` (R34). The Mode flag is not among them: it is `State.cur`. -/
structure StatusFlags where
  z : Bool
  c : Bool
  n : Bool
  v : Bool
  zd : Bool
  il : Bool
  wfi : Bool
  step : Bool
  hwi : Bool
  nul : Bool
deriving DecidableEq, Repr

/-- One register set (R22): the thirteen plain registers, the stored flags of `SR` (R11) and `PC` (R15).
`R0` has no storage (R23). -/
structure RegSet where
  r1 : Word
  r2 : Word
  r3 : Word
  r4 : Word
  r5 : Word
  r6 : Word
  r7 : Word
  r8 : Word
  r9 : Word
  r10 : Word
  flags : StatusFlags
  lr : Word
  fp : Word
  sp : Word
  pc : Word
deriving DecidableEq, Repr

/-- A division in flight (R41): quotient, remainder, and how many instructions are still to pass.
`n` is 11 when the divide has run and one less after each instruction that follows; it is 0 only while the
11th instruction itself runs (R237, log entry 12). -/
structure DivWindow where
  q : Word
  r : Word
  n : Nat
deriving DecidableEq, Repr

/-- An output event: a byte stored to a port (20_memory.md R75). -/
structure OutEvent where
  port : Port
  byte : Byte
deriving DecidableEq, Repr

/-- Everything the spec gives the machine, and two fields of the model's own (`steps`, `drawn`). -/
structure State where
  /-- The supervisor set, `xs[S]` (R22). -/
  sup : RegSet
  /-- The user set, `xs[U]` (R22). -/
  usr : RegSet
  /-- The Mode flag (R21). -/
  cur : Mode
  /-- `HI` (R38). -/
  hi : Word
  /-- `LO` (R38). -/
  lo : Word
  /-- "`HI` and `LO` are unspecified" (44_misc.md R242): while true a read of either draws a free value. -/
  hiLoOpen : Bool
  /-- The condition queue, head first (R40). -/
  cndq : List Specifier
  /-- The division in flight (R41). -/
  div : Option DivWindow
  /-- The halt state (R42). -/
  halted : Bool
  /-- Memory (R39): the bytes that something has written, addresses strictly rising. -/
  mem : List Host.Cell
  /-- The output events in program order (R75). -/
  outputs : List OutEvent
  /-- The model's own: how many steps have begun, by which the parameter `IRQ` says at which of them the
  interrupt request is asserted (R4, R43). No instruction reads or writes it. -/
  steps : Nat
  /-- The model's own: how many free values have been drawn (00_scope.md R6, `any`). -/
  drawn : Nat
deriving DecidableEq, Repr

/-- Why the machine would stop with a fault of the model: never. The faults of the machine itself (R283) are taken
as next states, and everything the spec gives no meaning is a refusal (00_scope.md R6). Log entry 17. -/
inductive Fault where
deriving DecidableEq, Repr

/-- Where the spec gives the program no meaning ("refuse", 00_scope.md R6). Each is safe: the hardware may go
on, and nothing is claimed of what it does. -/
inductive Refusal where
  /-- An instruction whose arm of `exec` has no meaning yet. Safe. -/
  | notModelled (mnemonic : String)
  /-- A fetch with bit 0 of `pc` set (R30, R31). Raised by `fetch`. Safe. -/
  | oddPc
  /-- A fetch at the second halfword of a long instruction (R30, R31). Raised by `fetch`. Safe. -/
  | pcInsideLongInstruction
  /-- A misaligned load or store (R65). Raised by `State.load` and `State.store`. Safe. -/
  | misaligned
  /-- `MLTU` or `MLTS` as the 11th instruction after a divide (R237). Safe. -/
  | multiplyAt11thAfterDivide
  /-- `DIVU` or `DIVS` while a division is pending (R235, R236, R237). Safe. -/
  | divideWhileDividePending
  /-- A write of `SR` that sets `WFI` or `STEP` (R35, R295). Raised by `State.srWrite`. Safe. -/
  | wfiOrStepSet
  /-- A store to ROM (R62, R72). Raised by `State.store`. Safe. -/
  | storeToRom
  /-- A store to an address `MEMMAP` maps to nothing (R62, R72). Raised by `State.store`. Safe. -/
  | storeToNothing
  /-- A store of two or four bytes that covers a port (R75). Raised by `State.store`. Safe. -/
  | wideStoreOverPort
deriving DecidableEq, Repr

/-- Flags all clear: `WFI` and `STEP` by R45, the others log entry 3 (DESIGN CHOICE). -/
def StatusFlags.clear : StatusFlags :=
  { z := false, c := false, n := false, v := false, zd := false, il := false, wfi := false, step := false,
    hwi := false, nul := false }

/-- A register set after reset with its `PC` at `pc`: the plain registers 0 (DESIGN CHOICE, log entry 2). -/
def RegSet.atReset (pc : Word) : RegSet :=
  { r1 := 0, r2 := 0, r3 := 0, r4 := 0, r5 := 0, r6 := 0, r7 := 0, r8 := 0, r9 := 0, r10 := 0,
    flags := StatusFlags.clear, lr := 0, fp := 0, sp := 0, pc := pc }

/-- The machine after a reset that starts at `pc` (R45, R320), for every value of `RESET_PC`. -/
def State.resetAt (pc : Word) : State :=
  { sup := RegSet.atReset pc
    usr := RegSet.atReset 0
    cur := .supervisor
    hi := 0
    lo := 0
    hiLoOpen := false
    cndq := []
    div := none
    halted := false
    mem := []
    outputs := []
    steps := 0
    drawn := 0 }

/-- The machine right after reset (R45, R320). -/
def State.reset : State :=
  State.resetAt Params.resetPc

end Sys2Proof.Machine
end

