-- ==== Sys2Proof/Machine/Memory.lean ====
section
/-! DEFINITION. Memory as a list of (address, byte) pairs in one canonical form: addresses below 2^32 and
strictly rising (10_state.md R39, 20_memory.md R61 and R62). A byte that nothing has written is not listed
and has no value here; what a load of it gives is `State.byteAt` (log entry 5). -/

namespace Sys2Proof.Machine
open Sys2Proof Sys2Proof.Config

/-- The bytes that something has written. -/
abbrev Memory := List Host.Cell

/-- Every address of the list is above `lo` and the addresses strictly rise. -/
def Memory.risingFrom : Nat → Memory → Bool
  | _, [] => true
  | lo, (a, _) :: rest => decide (lo ≤ a) && decide (a < 2 ^ 32) && Memory.risingFrom (a + 1) rest

/-- The canonical form. -/
def Memory.wf (m : Memory) : Bool :=
  m.risingFrom 0

/-- The byte written last at an address, if any. -/
def Memory.lookup : Memory → Nat → Option Byte
  | [], _ => none
  | (k, b) :: rest, a => if k = a then some b else Memory.lookup rest a

/-- Write one byte, keeping the canonical form. -/
def Memory.insert : Memory → Nat → Byte → Memory
  | [], a, v => [(a, v)]
  | (k, b) :: rest, a, v =>
    if a < k then (a, v) :: (k, b) :: rest
    else if a = k then (a, v) :: rest
    else (k, b) :: Memory.insert rest a v

/-- `MemWrite(addr, n, v)`: the low `n` bytes of `v`, least significant first, addresses modulo 2^32 (R62). -/
def Memory.write (m : Memory) (ea : Word) (v : Word) : Nat → Memory
  | 0 => m
  | n + 1 => Memory.write (m.insert ea.toNat (v.extractLsb' 0 8)) (ea + 1) (v >>> 8) n

end Sys2Proof.Machine
end

