-- ==== Sys2Proof/WellFormed.lean ====
section
/-! DEFINITION. Which terms of `Instr` are instructions of the machine. The types of the fields carry every
bound but one: the halfword `0x0000` is `NOP` and nothing else (41_short_alu.md R158), so `ADD R0, R0, R0`
has no encoding of its own. -/

namespace Sys2Proof

/-- Every term is an instruction but `ADD R0, R0, R0`, whose halfword is `NOP` (R151, R158). -/
def Instr.wellFormed (i : Instr) : Bool :=
  i ≠ .add .r0 .r0 .r0

/-- The instructions of 16 bits (R95, R96, R158); the others have 32 (R97 to R101). -/
def Instr.isShort : Instr → Bool
  | .nop | .add .. | .sub .. | .lsh .. | .ash .. | .and .. | .or .. | .xor .. | .cnd .. => true
  | .addi .. | .subi .. | .lshi .. | .ashi .. | .andi .. | .ori .. | .xori .. | .ldh .. | .ldi ..
  | .mltu .. | .mlts .. | .divu .. | .divs .. | .mvsu .. | .mvus .. | .mvhi .. | .mvlo ..
  | .lw .. | .sw .. | .sh .. | .sb .. | .lhu .. | .lhs .. | .lbu .. | .lbs .. => false

end Sys2Proof
end

