-- ==== Sys2Proof/Decode.lean ====
section
/-! DEFINITION. The decoder, total on any bits (30_encoding.md R90 to R107), and after it the encoder, written
from the same format rules (R95 to R101). -/

namespace Sys2Proof
open Config

/-! ## Fields -/

/-- The register a 4-bit field names (R103, R22). -/
def Reg.ofBits (b : BitVec 4) : Reg :=
  match b.toNat with
  | 0 => .r0 | 1 => .r1 | 2 => .r2 | 3 => .r3 | 4 => .r4 | 5 => .r5 | 6 => .r6 | 7 => .r7
  | 8 => .r8 | 9 => .r9 | 10 => .r10 | 11 => .sr | 12 => .lr | 13 => .fp | 14 => .sp | _ => .pc

/-- The number of a register (R22). -/
def Reg.bits : Reg → BitVec 4
  | .r0 => 0 | .r1 => 1 | .r2 => 2 | .r3 => 3 | .r4 => 4 | .r5 => 5 | .r6 => 6 | .r7 => 7
  | .r8 => 8 | .r9 => 9 | .r10 => 10 | .sr => 11 | .lr => 12 | .fp => 13 | .sp => 14 | .pc => 15

/-- The condition that bits 2..0 of a specifier name (R131). -/
def Cond.ofBits (b : BitVec 3) : Cond :=
  match b.toNat with
  | 0 => .always | 1 => .ifV | 2 => .ifZ | 3 => .ifNZ | 4 => .ifLT | 5 => .ifGE | 6 => .ifC | _ => .ifNC

/-- The three bits of a condition (R131). -/
def Cond.bits : Cond → BitVec 3
  | .always => 0 | .ifV => 1 | .ifZ => 2 | .ifNZ => 3 | .ifLT => 4 | .ifGE => 5 | .ifC => 6 | .ifNC => 7

/-- Bit 3 freezes, bits 2..0 are the condition (R130). -/
def Specifier.ofBits (b : BitVec 4) : Specifier :=
  ⟨b.getLsbD 3, Cond.ofBits (b.extractLsb' 0 3)⟩

/-- The four bits of a specifier (R130). -/
def Specifier.bits (c : Specifier) : BitVec 4 :=
  BitVec.ofBool c.freeze ++ c.cond.bits

/-! ## The decoder -/

/-- Why a word spells no instruction where it stands. -/
inductive DecodeError where
  /-- A halfword of a pair with bit 15 set (R106): the machine raises `IllegalOpcode`. -/
  | illegalHalfword
  /-- The second slot of a word that is one long instruction (R31): the model refuses. -/
  | insideLongInstruction
  /-- A word with bit 31 clear is a pair, no long instruction (R92). -/
  | notLong
  /-- Fewer than four bytes. -/
  | truncated
deriving DecidableEq, Repr

/-- The two places of a pair: `w` and `w + 2` (R93). -/
inductive Slot where
  | first
  | second
deriving DecidableEq, Repr

/-- A 16-bit instruction (R95, R96, R104): `NOP` is tested first, bit 15 set is illegal (R106). -/
def decodeShort (h : Half) : Except DecodeError Instr :=
  let d := Reg.ofBits (h.extractLsb' 8 4)
  let s1 := Reg.ofBits (h.extractLsb' 4 4)
  let s2 := Reg.ofBits (h.extractLsb' 0 4)
  if h = 0 then .ok .nop
  else if h.getLsbD 15 then .error .illegalHalfword
  else match (h.extractLsb' 12 3).toNat with
    | 0 => .ok (.add d s1 s2)
    | 1 => .ok (.sub d s1 s2)
    | 2 => .ok (.lsh d s1 s2)
    | 3 => .ok (.ash d s1 s2)
    | 4 => .ok (.and d s1 s2)
    | 5 => .ok (.or d s1 s2)
    | 6 => .ok (.xor d s1 s2)
    | _ => .ok (.cnd (Specifier.ofBits (h.extractLsb' 8 4)) (Specifier.ofBits (h.extractLsb' 4 4))
                (Specifier.ofBits (h.extractLsb' 0 4)))

/-- The Immediate format (R97): bits 28..26 the opcode, then `D`, `S`, `I`, `cond`. -/
def decodeImmediate (w : Word) : Instr :=
  let d := Reg.ofBits (w.extractLsb' 22 4)
  let s := Reg.ofBits (w.extractLsb' 18 4)
  let imm := w.extractLsb' 4 14
  let c := Specifier.ofBits (w.extractLsb' 0 4)
  match (w.extractLsb' 26 3).toNat with
  | 0 => .addi d s imm c
  | 1 => .subi d s imm c
  | 2 => .lshi d s imm c
  | 3 => .ashi d s imm c
  | 4 => .andi d s imm c
  | 5 => .ori d s imm c
  | 6 => .xori d s imm c
  | _ => .ldh d s imm c

/-- The Load/store format (R98): bits 29..27 the opcode, then `SD`, `A`, `I`, `cond`. -/
def decodeLoadStore (w : Word) : Instr :=
  let sd := Reg.ofBits (w.extractLsb' 23 4)
  let a := Reg.ofBits (w.extractLsb' 19 4)
  let imm := w.extractLsb' 4 15
  let c := Specifier.ofBits (w.extractLsb' 0 4)
  match (w.extractLsb' 27 3).toNat with
  | 0 => .lw sd a imm c
  | 1 => .sw sd a imm c
  | 2 => .sh sd a imm c
  | 3 => .sb sd a imm c
  | 4 => .lhu sd a imm c
  | 5 => .lhs sd a imm c
  | 6 => .lbu sd a imm c
  | _ => .lbs sd a imm c

/-- The `LDI` format (R99). -/
def decodeLdi (w : Word) : Instr :=
  .ldi (Reg.ofBits (w.extractLsb' 24 4)) (w.extractLsb' 4 20) (Specifier.ofBits (w.extractLsb' 0 4))

/-- The Misc formats under `1011` (R100, R101): bits 27..25 the opcode, two register fields, the
"Unused?.." bits ignored (R105), `cond`. -/
def decodeMisc (w : Word) : Instr :=
  let f1 := Reg.ofBits (w.extractLsb' 21 4)
  let f2 := Reg.ofBits (w.extractLsb' 17 4)
  let c := Specifier.ofBits (w.extractLsb' 0 4)
  match (w.extractLsb' 25 3).toNat with
  | 0 => .mltu f1 f2 c
  | 1 => .mlts f1 f2 c
  | 2 => .divu f1 f2 c
  | 3 => .divs f1 f2 c
  | 4 => .mvsu f1 f2 c
  | 5 => .mvus f1 f2 c
  | 6 => .mvhi f1 c
  | _ => .mvlo f1 c

/-- A 32-bit instruction, told by its leading bits (R91). -/
def decodeLong (w : Word) : Except DecodeError Instr :=
  if w.getLsbD 31 = false then .error .notLong
  else if w.getLsbD 30 then .ok (decodeLoadStore w)
  else if w.getLsbD 29 = false then .ok (decodeImmediate w)
  else if w.getLsbD 28 = false then .ok (decodeLdi w)
  else .ok (decodeMisc w)

/-- The first and the second halfword of a pair (R93). -/
def pairSlots (o : PairOrder) (w : Word) : Half × Half :=
  match o with
  | .lowFirst => (w.extractLsb' 0 16, w.extractLsb' 16 16)
  | .highFirst => (w.extractLsb' 16 16, w.extractLsb' 0 16)

/-- The word that holds a pair (R93). -/
def pairWord (o : PairOrder) (first second : Half) : Word :=
  match o with
  | .lowFirst => second ++ first
  | .highFirst => first ++ second

/-- The instruction that stands in a slot of the fetched word (R30, R92): a word with bit 31 set is one
long instruction and has no second slot. -/
def decodeSlot (sl : Slot) (w : Word) : Except DecodeError Instr :=
  if w.getLsbD 31 then
    match sl with
    | .first => decodeLong w
    | .second => .error .insideLongInstruction
  else
    match sl with
    | .first => decodeShort (pairSlots Machine.Params.pairOrder w).1
    | .second => decodeShort (pairSlots Machine.Params.pairOrder w).2

/-- How far `npc` lies beyond the instruction's address (R29): 4 for a long instruction, 2 for a short one,
4 when the first slot is followed by the skipped `NOP` (R94). -/
def advance (sl : Slot) (w : Word) : Word :=
  if w.getLsbD 31 then 4
  else match sl with
    | .first => if (pairSlots Machine.Params.pairOrder w).2 = 0 then 4 else 2
    | .second => 2

/-- Four bytes as a little-endian word (R60, R63). -/
def wordOfBytes (b0 b1 b2 b3 : Byte) : Word :=
  b3 ++ b2 ++ b1 ++ b0

/-- The instruction in a slot of the four bytes at the start of a list (R63). -/
def decodeBytes (sl : Slot) : List Byte → Except DecodeError Instr
  | b0 :: b1 :: b2 :: b3 :: _ => decodeSlot sl (wordOfBytes b0 b1 b2 b3)
  | _ => .error .truncated

/-! ## The encoder -/

/-- The bits of one instruction: a halfword or a word (R90). -/
inductive Encoding where
  | short (h : Half)
  | long (w : Word)
deriving DecidableEq, Repr

/-- `0 op3 D S1 S2` (R95). -/
def encodeShort (op : BitVec 3) (d s1 s2 : BitVec 4) : Encoding :=
  .short (0#1 ++ op ++ d ++ s1 ++ s2)

/-- `100 op3 D S I cond` (R97). -/
def encodeImmediate (op : BitVec 3) (d s : Reg) (imm : BitVec 14) (c : Specifier) : Encoding :=
  .long (0b100#3 ++ op ++ d.bits ++ s.bits ++ imm ++ c.bits)

/-- `11 op3 SD A I cond` (R98). -/
def encodeLoadStore (op : BitVec 3) (sd a : Reg) (imm : BitVec 15) (c : Specifier) : Encoding :=
  .long (0b11#2 ++ op ++ sd.bits ++ a.bits ++ imm ++ c.bits)

/-- `1011 op3 F1 F2`, 13 unused bits written as zero (R105), `cond` (R100, R101). -/
def encodeMisc (op : BitVec 3) (f1 f2 : BitVec 4) (c : Specifier) : Encoding :=
  .long (0b1011#4 ++ op ++ f1 ++ f2 ++ 0#13 ++ c.bits)

/-- The bits of an instruction (R95 to R101). -/
def encode : Instr → Encoding
  | .nop => .short 0
  | .add d s1 s2 => encodeShort 0 d.bits s1.bits s2.bits
  | .sub d s1 s2 => encodeShort 1 d.bits s1.bits s2.bits
  | .lsh d s1 s2 => encodeShort 2 d.bits s1.bits s2.bits
  | .ash d s1 s2 => encodeShort 3 d.bits s1.bits s2.bits
  | .and d s1 s2 => encodeShort 4 d.bits s1.bits s2.bits
  | .or d s1 s2 => encodeShort 5 d.bits s1.bits s2.bits
  | .xor d s1 s2 => encodeShort 6 d.bits s1.bits s2.bits
  | .cnd c1 c2 c3 => encodeShort 7 c1.bits c2.bits c3.bits
  | .addi d s imm c => encodeImmediate 0 d s imm c
  | .subi d s imm c => encodeImmediate 1 d s imm c
  | .lshi d s imm c => encodeImmediate 2 d s imm c
  | .ashi d s imm c => encodeImmediate 3 d s imm c
  | .andi d s imm c => encodeImmediate 4 d s imm c
  | .ori d s imm c => encodeImmediate 5 d s imm c
  | .xori d s imm c => encodeImmediate 6 d s imm c
  | .ldh d s imm c => encodeImmediate 7 d s imm c
  | .ldi d imm c => .long (0b1010#4 ++ d.bits ++ imm ++ c.bits)
  | .mltu s1 s2 c => encodeMisc 0 s1.bits s2.bits c
  | .mlts s1 s2 c => encodeMisc 1 s1.bits s2.bits c
  | .divu s1 s2 c => encodeMisc 2 s1.bits s2.bits c
  | .divs s1 s2 c => encodeMisc 3 s1.bits s2.bits c
  | .mvsu d s c => encodeMisc 4 d.bits s.bits c
  | .mvus d s c => encodeMisc 5 d.bits s.bits c
  | .mvhi d c => encodeMisc 6 d.bits 0 c
  | .mvlo d c => encodeMisc 7 d.bits 0 c
  | .lw sd a imm c => encodeLoadStore 0 sd a imm c
  | .sw sd a imm c => encodeLoadStore 1 sd a imm c
  | .sh sd a imm c => encodeLoadStore 2 sd a imm c
  | .sb sd a imm c => encodeLoadStore 3 sd a imm c
  | .lhu sd a imm c => encodeLoadStore 4 sd a imm c
  | .lhs sd a imm c => encodeLoadStore 5 sd a imm c
  | .lbu sd a imm c => encodeLoadStore 6 sd a imm c
  | .lbs sd a imm c => encodeLoadStore 7 sd a imm c

/-- The decoder on the bits of one instruction. -/
def decodeEncoding : Encoding → Except DecodeError Instr
  | .short h => decodeShort h
  | .long w => decodeLong w

/-! ## An instruction of the opcode table as the hardware stores it -/

/-- The four bytes in which an instruction of `nbits` bits `w` stands when it is the first of its word:
a short one is the first halfword of a pair whose second is `0x0000` (R93, R94), each word little-endian (R60). -/
def tableBytes (nbits w : Nat) : List Byte :=
  let word : Word :=
    if nbits ≤ 16 then pairWord Machine.Params.pairOrder (BitVec.ofNat 16 (w % 2 ^ nbits)) 0
    else BitVec.ofNat 32 (w % 2 ^ nbits)
  [word.extractLsb' 0 8, word.extractLsb' 8 8, word.extractLsb' 16 8, word.extractLsb' 24 8]

/-- The instruction the decoder reads from a row's bits, as the first instruction of a word. -/
def decodeTableWord (nbits w : Nat) : Option Instr :=
  (decodeBytes .first (tableBytes nbits w)).toOption

end Sys2Proof
end

