-- ==== Sys2Proof/Machine/Flags.lean ====
section
/-! DEFINITION. Every flag computation of the spec: the packing of `SR` (10_state.md R34, R35), the conditions
(40_conditions_and_cnd.md R131) and the ALU functions with their flags (41_short_alu.md R159 to R161). -/

namespace Sys2Proof.Machine
open Sys2Proof Sys2Proof.Config

/-! ## The value of `SR` -/

/-- The word with bit `k` equal to `b` and every other bit 0. -/
def bitAt (b : Bool) (k : Nat) : Word :=
  if b then 1#32 <<< k else 0#32

/-- `SRread(m)` (R34): the stored flags at their `SR_LAYOUT` bits, `M` from the mode, every other bit 0. -/
def StatusFlags.pack (f : StatusFlags) (m : Mode) : Word :=
  let l := Params.srLayout
  bitAt f.z l.z ||| bitAt f.c l.c ||| bitAt f.n l.n ||| bitAt f.v l.v ||| bitAt (m = .user) l.m |||
  bitAt f.zd l.zd ||| bitAt f.il l.il ||| bitAt f.wfi l.wfi ||| bitAt f.step l.step ||| bitAt f.hwi l.hwi |||
  bitAt f.nul l.nul

/-- The stored flags that a value written to `SR` gives (R35); its other bits are discarded. -/
def StatusFlags.unpack (w : Word) : StatusFlags :=
  let l := Params.srLayout
  { z := w.getLsbD l.z, c := w.getLsbD l.c, n := w.getLsbD l.n, v := w.getLsbD l.v, zd := w.getLsbD l.zd,
    il := w.getLsbD l.il, wfi := w.getLsbD l.wfi, step := w.getLsbD l.step, hwi := w.getLsbD l.hwi,
    nul := w.getLsbD l.nul }

/-! ## Conditions -/

/-- `condition_holds` (R131, R132, R133). -/
def condHolds (c : Cond) (f : StatusFlags) : Bool :=
  match c with
  | .always => true
  | .ifV => f.v
  | .ifZ => f.z
  | .ifNZ => !f.z
  | .ifLT => f.n
  | .ifGE => !f.n
  | .ifC => f.c
  | .ifNC => !f.c

/-! ## The ALU functions -/

/-- What an ALU function answers (R150): the result, and `C` and `V`, or `none` where both are `any`
(R160, R161). -/
structure AluOut where
  r : Word
  cv : Option (Bool × Bool)
deriving DecidableEq, Repr

/-- `add32` (R159). -/
def add32 (a b : Word) : AluOut :=
  let r := a + b
  { r := r
    cv := some (decide (2 ^ 32 ≤ a.toNat + b.toNat), (a.msb == b.msb) && (r.msb != a.msb)) }

/-- `sub32` (R159); the carry by `SUB_CARRY`. -/
def sub32 (a b : Word) : AluOut :=
  let r := a - b
  let borrow := decide (a.toNat < b.toNat)
  let c := match Params.subCarry with
    | .borrow => borrow
    | .notBorrow => !borrow
  { r := r, cv := some (c, (a.msb != b.msb) && (r.msb != a.msb)) }

/-- The result of a shift of `a` by the signed `n`: left if positive, right if negative (R160). -/
def shiftResult (k : ShiftKind) (a : Word) (n : Int) : Word :=
  if 32 ≤ n ∨ n ≤ -32 then Params.shiftLarge k a n
  else if 0 ≤ n then a <<< n.toNat
  else match k with
    | .logical => a >>> (-n).toNat
    | .arithmetic => a.sshiftRight (-n).toNat

/-- `lsh32` (R160): `C` and `V` are `any`. -/
def lsh32 (a b : Word) : AluOut := { r := shiftResult .logical a b.toInt, cv := none }

/-- `ash32` (R160): `C` and `V` are `any`. -/
def ash32 (a b : Word) : AluOut := { r := shiftResult .arithmetic a b.toInt, cv := none }

/-- `AND` (R155, R161). -/
def and32 (a b : Word) : AluOut := { r := a &&& b, cv := none }

/-- `OR` (R156, R161). -/
def or32 (a b : Word) : AluOut := { r := a ||| b, cv := none }

/-- `XOR` (R157, R161). -/
def xor32 (a b : Word) : AluOut := { r := a ^^^ b, cv := none }

end Sys2Proof.Machine
end

