-- ==== Sys2Proof/Machine/Operands.lean ====
section
/-! DEFINITION. The operand forms: registers as an instruction sees them (00_scope.md R6), immediates
(30_encoding.md R102), the effective address (20_memory.md R69) and its alignment (R65). -/

namespace Sys2Proof.Machine
open Sys2Proof

/-! ## Register sets -/

/-- The set of a mode, `xs[m]` (R22). -/
def State.regs (s : State) (m : Mode) : RegSet :=
  match m with
  | .supervisor => s.sup
  | .user => s.usr

/-- The state with the set of one mode replaced. -/
def State.withRegs (s : State) (m : Mode) (x : RegSet) : State :=
  match m with
  | .supervisor => { s with sup := x }
  | .user => { s with usr := x }

/-- Register `r` of a set that belongs to mode `m`: `R0` is 0 (R23), `SR` is `SRread(m)` (R34), `PC` and the
plain registers are their storage (R24, R27). -/
def RegSet.value (x : RegSet) (m : Mode) (r : Reg) : Word :=
  match r with
  | .r0 => 0
  | .r1 => x.r1
  | .r2 => x.r2
  | .r3 => x.r3
  | .r4 => x.r4
  | .r5 => x.r5
  | .r6 => x.r6
  | .r7 => x.r7
  | .r8 => x.r8
  | .r9 => x.r9
  | .r10 => x.r10
  | .sr => x.flags.pack m
  | .lr => x.lr
  | .fp => x.fp
  | .sp => x.sp
  | .pc => x.pc

/-- Store a word in a plain register or in `PC`. `R0` discards it (R23); `SR` is not written here but by
`State.srWrite` (R35). -/
def RegSet.store (x : RegSet) (r : Reg) (v : Word) : RegSet :=
  match r with
  | .r0 => x
  | .r1 => { x with r1 := v }
  | .r2 => { x with r2 := v }
  | .r3 => { x with r3 := v }
  | .r4 => { x with r4 := v }
  | .r5 => { x with r5 := v }
  | .r6 => { x with r6 := v }
  | .r7 => { x with r7 := v }
  | .r8 => { x with r8 := v }
  | .r9 => { x with r9 := v }
  | .r10 => { x with r10 := v }
  | .sr => x
  | .lr => { x with lr := v }
  | .fp => { x with fp := v }
  | .sp => { x with sp := v }
  | .pc => { x with pc := v }

/-- Register `r` of the set of mode `m` (R6, R25). -/
def State.reg (s : State) (m : Mode) (r : Reg) : Word :=
  (s.regs m).value m r

/-- `x[r]`: the register as an instruction of the current mode sees it (R6). During an instruction `PC` holds
`npc` (R28), so `x[15]` is `npc`. -/
def State.read (s : State) (r : Reg) : Word :=
  s.reg s.cur r

/-- The stored flags of mode `m`. -/
def State.flagsOf (s : State) (m : Mode) : StatusFlags :=
  (s.regs m).flags

/-- The state with the stored flags of one mode replaced. -/
def State.withFlags (s : State) (m : Mode) (f : StatusFlags) : State :=
  s.withRegs m { s.regs m with flags := f }

/-- `pc`, the `PC` of the current mode (R27). -/
def State.pc (s : State) : Word :=
  (s.regs s.cur).pc

/-- `pc <- v` (R6, R27). -/
def State.withPc (s : State) (v : Word) : State :=
  s.withRegs s.cur { s.regs s.cur with pc := v }

/-- The mode that the `M` bit names: 0 supervisor, 1 user (R21, R33). -/
def modeOfBit (b : Bool) : Mode :=
  if b then .user else .supervisor

/-! ## Immediates -/

/-- `sext_14(I)` (R102, R180). -/
def immediate14 (i : BitVec 14) : Word := i.signExtend 32

/-- `sext_15(I)` (R69, R102). -/
def immediate15 (i : BitVec 15) : Word := i.signExtend 32

/-- `sext_20(I)` (R102, R231). -/
def immediate20 (i : BitVec 20) : Word := i.signExtend 32

/-- `LDH`'s value: bits 31..18 from the immediate, bits 17..0 from the source (R188). -/
def highImmediate (i : BitVec 14) (v : Word) : Word := i ++ v.extractLsb' 0 18

/-! ## Addresses -/

/-- `ea = (x[A] + sext_15(I)) mod 2^32` (R69, R200). -/
def State.effectiveAddress (s : State) (a : Reg) (imm : BitVec 15) : Word :=
  s.read a + immediate15 imm

/-- Where an access of `n` bytes at `ea` takes place: at `ea` if it is a multiple of `n` (R65), else where
`MISALIGNED` says, or nowhere. -/
def accessAddress (ea : Word) (n : Nat) : Option Word :=
  if ea.toNat % n = 0 then some ea else Params.misaligned ea n

end Sys2Proof.Machine
end

