-- ==== Sys2Proof/Machine/Ops.lean ====
section
/-! DEFINITION. The named operations that the meanings share: free values, registers and `SR`, switching mode,
taking a fault and returning from one, memory access, `HI` and `LO`, the division window, predication. -/

namespace Sys2Proof.Machine
open Sys2Proof Sys2Proof.Config

/-- What an instruction or a step answers. -/
abbrev Result := Host.Outcome State Fault Refusal

/-- Go on from a next state; a stop stays a stop. -/
def Result.andThen (o : Result) (f : State → Result) : Result :=
  match o with
  | .next s => f s
  | .fault r => .fault r
  | .refused r => .refused r

/-! ## Switching mode, faults, interrupts (60_exceptions.md) -/

/-- `switch_mode(new)` (R281): an entry to supervisor mode clears the user `HWI` (R284); the queue is emptied
(R140). Nothing else changes: the next fetch is at the `PC` of `new`, and the mode left behind resumes at its
own (R280). It is the system call (R282) and the return from a trap (R292). -/
def State.switchMode (s : State) (new : Mode) : State :=
  match new with
  | .supervisor => { s with usr := { s.usr with flags := { s.usr.flags with hwi := false } }, cur := .supervisor, cndq := [] }
  | .user => { s with cur := .user, cndq := [] }

/-- The three faults of the machine (R280, R283). -/
inductive Event where
  | nullReference
  | zeroDivision
  | illegalOpcode
deriving DecidableEq, Repr

/-- The flags with the cause flag `f(E)` set (R283). -/
def StatusFlags.record (f : StatusFlags) (e : Event) : StatusFlags :=
  match e with
  | .nullReference => { f with nul := true }
  | .zeroDivision => { f with zd := true }
  | .illegalOpcode => { f with il := true }

/-- What the faulting mode's `PC` holds after a fault at `a` whose next instruction is `npc` (R285). -/
def faultPcValue (a npc : Word) : Word :=
  match Config.faultPc with
  | .this => a
  | .next => npc

/-- `raise E` (R283): the cause flag is set in the `SR` of the mode that faulted and its `PC` becomes `pc`.
From user mode: `HWI` is cleared, the supervisor continues at its own `PC`, the queue is emptied. From
supervisor mode: the CPU halts (R286). -/
def State.raiseAt (s : State) (e : Event) (pc : Word) : State :=
  let x := s.regs s.cur
  let t := s.withRegs s.cur { x with flags := x.flags.record e, pc := pc }
  match s.cur with
  | .user => t.switchMode .supervisor
  | .supervisor => { t with halted := true }

/-- `raise E` by a long instruction that is executing: `PC` already holds `npc`, and the instruction stands at
`npc - 4` (R29, R283, R285). Only long instructions raise while executing. Log entry 27. -/
def State.raise (s : State) (e : Event) : State :=
  s.raiseAt e (faultPcValue (s.pc - 4) s.pc)

/-- `take_interrupt()` (R290). The user `PC` still holds the address of the instruction not yet executed. -/
def State.takeInterrupt (s : State) : State :=
  { s with usr := { s.usr with flags := { s.usr.flags with hwi := true } }, cur := .supervisor }

/-- `irq_asserted()` at this step (R43, R290): never without an interrupt input, else as the predicate says. -/
def State.irqAsserted (s : State) (irq : Irq) : Bool :=
  match irq with
  | none => false
  | some asserted => asserted s.steps

/-- Whether an interrupt is taken at this boundary (R290): user mode, empty queue, the request asserted. -/
def State.interruptTaken (s : State) (irq : Irq) : Bool :=
  decide (s.cur = .user) && s.cndq.isEmpty && s.irqAsserted irq

/-- The state with one more step begun. -/
def State.countStep (s : State) : State :=
  { s with steps := s.steps + 1 }

/-! ## Registers (00_scope.md R6) -/

/-- `SRwrite(m, v)` (R35): refused when `WFI` or `STEP` would be set; the stored flags of mode `m` are written,
the unused bits discarded; if `m` is the current mode and the `M` bit differs, the mode switches (R281). -/
def State.srWrite (s : State) (m : Mode) (v : Word) : Result :=
  if v.getLsbD Params.srLayout.wfi || v.getLsbD Params.srLayout.step then .refused .wfiOrStepSet
  else
    let t := s.withFlags m (StatusFlags.unpack v)
    let new := modeOfBit (v.getLsbD Params.srLayout.m)
    if m = s.cur ∧ new ≠ s.cur then .next (t.switchMode new) else .next t

/-- `x[d] <- v` (R6): `R0` discards, `SR` is `SRwrite(cur, v)`, `PC` is a control transfer
(45_control_transfer.md R260), any other register stores. -/
def State.write (s : State) (d : Reg) (v : Word) : Result :=
  match d with
  | .sr => s.srWrite s.cur v
  | _ => .next (s.withRegs s.cur ((s.regs s.cur).store d v))

/-! ## Free values (`any`, 00_scope.md R6) -/

/-- The state after `k` free values have been drawn. -/
def State.draw (s : State) (k : Nat) : State :=
  { s with drawn := s.drawn + k }

/-! ## The condition flags an ALU instruction leaves -/

/-- `Z <- (r == 0); N <- r[31]; C <- c; V <- v` in the `SR` of mode `m` (R150, R36); `C` and `V` are two fresh
free values where the function leaves them `any` (R160, R161, log entry 6). -/
def State.setAluFlags (s : State) (m : Mode) (out : AluOut) : State :=
  let f := s.flagsOf m
  match out.cv with
  | some (c, v) => s.withFlags m { f with z := out.r == 0, n := out.r.msb, c := c, v := v }
  | none =>
    (s.withFlags m { f with z := out.r == 0, n := out.r.msb, c := Config.freeBit s.drawn,
                            v := Config.freeBit (s.drawn + 1) }).draw 2

/-- All four of `Z C N V` become `any` in the `SR` of mode `m` (R135, log entry 7). -/
def State.setFreeFlags (s : State) (m : Mode) : State :=
  let f := s.flagsOf m
  (s.withFlags m { f with z := Config.freeBit s.drawn, c := Config.freeBit (s.drawn + 1),
                          n := Config.freeBit (s.drawn + 2), v := Config.freeBit (s.drawn + 3) }).draw 4

/-- The end of R150 and R180: the result is written, then, unless frozen (R134), the flags of the mode that
executed the instruction (R36); an unfrozen write of `SR` itself leaves them `any` (R135). Log entry 14. -/
def State.writeAlu (s : State) (d : Reg) (out : AluOut) (freeze : Bool) : Result :=
  (s.write d out.r).andThen fun t =>
    .next (if freeze then t else if d = .sr then t.setFreeFlags s.cur else t.setAluFlags s.cur out)

/-! ## Memory access (20_memory.md) -/

/-- Whether the address holds RAM or ROM (R72). -/
def backed (a : Word) : Bool :=
  match Params.memmap a with
  | .ram | .rom => true
  | .port _ | .nothing => false

/-- What the byte at an address holds: the byte written last, else the initial content, a free value of the
address (R78, R45, log entry 5). -/
def State.byteAt (s : State) (a : Word) : Byte :=
  (Memory.lookup s.mem a.toNat).getD (Config.initialByte a.toNat)

/-- Whether each of `n` addresses from `ea` on holds RAM or ROM. -/
def allBacked (ea : Word) : Nat → Bool
  | 0 => true
  | n + 1 => backed ea && allBacked (ea + 1) n

/-- `MemRead(addr, n)` (R61), little-endian; where an address holds neither RAM nor ROM its byte is the one of
`free` (`any`, R72, R76). -/
def State.memRead (s : State) (free ea : Word) : Nat → Word
  | 0 => 0
  | n + 1 =>
    let b := if backed ea then s.byteAt ea else free.extractLsb' 0 8
    (s.memRead (free >>> 8) (ea + 1) n) <<< 8 ||| b.setWidth 32

/-- A read of `n` bytes and the state after it: one free word is drawn if some byte is `any` (log entry 9). -/
def State.readBytes (s : State) (ea : Word) (n : Nat) : Word × State :=
  if allBacked ea n then (s.memRead 0 ea n, s)
  else (s.memRead (Config.freeWord s.drawn) ea n, s.draw 1)

/-- Whether a region is a port (R74). -/
def isPort : Region → Bool
  | .port _ => true
  | .ram | .rom | .nothing => false

/-- Whether a region is ROM (R72). -/
def isRom : Region → Bool
  | .rom => true
  | .ram | .port _ | .nothing => false

/-- Whether a region is mapped to nothing (R72). -/
def isNothing : Region → Bool
  | .nothing => true
  | .ram | .rom | .port _ => false

/-- Whether the region of some of `n` addresses from `ea` on satisfies `p`. -/
def someAddress (p : Region → Bool) (ea : Word) : Nat → Bool
  | 0 => false
  | n + 1 => p (Params.memmap ea) || someAddress p (ea + 1) n

/-- `MemWrite(addr, n, v)` under `MEMMAP`: one byte to a port is an output event (R75), a wider store over a
port is refused (R75), a store to ROM or to nothing is refused (R62, R72, log entry 17). -/
def State.store (s : State) (ea : Word) (n : Nat) (v : Word) : Result :=
  match n, Params.memmap ea with
  | 1, .port p => .next { s with outputs := s.outputs ++ [⟨p, v.extractLsb' 0 8⟩] }
  | _, _ =>
    if someAddress isPort ea n then .refused .wideStoreOverPort
    else if someAddress isRom ea n then .refused .storeToRom
    else if someAddress isNothing ea n then .refused .storeToNothing
    else .next { s with mem := Memory.write s.mem ea v n }

/-- A load (R200): the alignment, then the null address, then the access (R209); the value read is extended
and written to `sd`. -/
def State.loadInto (s : State) (sd a : Reg) (imm : BitVec 15) (n : Nat) (extend : Word → Word) : Result :=
  match accessAddress (s.effectiveAddress a imm) n with
  | none => .refused .misaligned
  | some ea =>
    if ea = 0 then .next (s.raise .nullReference)
    else (s.readBytes ea n).2.write sd (extend (s.readBytes ea n).1)

/-- A store (R200): the alignment, then the null address, then the access (R209); the low `n` bytes of `sd`
are stored (R202 to R204). -/
def State.storeFrom (s : State) (sd a : Reg) (imm : BitVec 15) (n : Nat) : Result :=
  match accessAddress (s.effectiveAddress a imm) n with
  | none => .refused .misaligned
  | some ea =>
    if ea = 0 then .next (s.raise .nullReference)
    else s.store ea n (s.read sd)

/-! ## `HI`, `LO` and the division window (44_misc.md) -/

/-- `division_tick_before` (R237): the instruction about to run is one of those still to pass. -/
def State.tickBefore (s : State) : State :=
  { s with div := s.div.map fun w => { w with n := w.n - 1 } }

/-- `landing_now` (R237): the running instruction is the 11th after the divide. -/
def State.landingNow (s : State) : Bool :=
  match s.div with
  | some w => w.n == 0
  | none => false

/-- `division_tick_after` (R237): after the 11th instruction the quotient and the remainder land. -/
def State.tickAfter (s : State) : State :=
  match s.div with
  | some w => if w.n = 0 then { s with lo := w.q, hi := w.r, hiLoOpen := false, div := none } else s
  | none => s

/-- A multiplication's end (R233, R234): refused as the 11th instruction after a divide; else the 64-bit
product goes to `HI` and `LO`. -/
def State.multiply (s : State) (p : BitVec 64) : Result :=
  if s.landingNow then .refused .multiplyAt11thAfterDivide
  else .next { s with hi := p.extractLsb' 32 32, lo := p.extractLsb' 0 32, hiLoOpen := false }

/-- `HI <- any; LO <- any` (R235, R236), and every later read of either draws afresh until a product or a
quotient is written (R242, log entry 8). -/
def State.openHiLo (s : State) : State :=
  { s with hi := Config.freeWord s.drawn, lo := Config.freeWord (s.drawn + 1), hiLoOpen := true }.draw 2

/-- A division's end (R235, R236): refused while another is pending; `HI` and `LO` become unspecified; a zero
divisor raises `ZeroDivision`; else the quotient and remainder start a window of 11 instructions, or nothing
lands (`none`). -/
def State.divide (s : State) (divisor : Word) (qr : Option (Word × Word)) : Result :=
  if s.div.isSome then .refused .divideWhileDividePending
  else if divisor = 0 then .next (s.openHiLo.raise .zeroDivision)
  else match qr with
    | some (q, r) => .next { s.openHiLo with div := some ⟨q, r, 11⟩ }
    | none => .next s.openHiLo

/-- A read of `HI` or `LO`, whose stored value is `v`, and the state after it: a free word while the two are
unspecified (R242, log entry 8). -/
def State.readHiLo (s : State) (v : Word) : Word × State :=
  if s.hiLoOpen then (Config.freeWord s.drawn, s.draw 1) else (v, s)

/-! ## Predication (40_conditions_and_cnd.md) -/

/-- The state with the head entry of the condition queue removed (R137, R138, R139). -/
def State.popCondition (s : State) : State :=
  { s with cndq := s.cndq.tail }

/-- The specifier of a short instruction: the head of the queue, or `0000` (R137). -/
def State.shortSpecifier (s : State) : Specifier :=
  s.cndq.headD Specifier.none

/-- Run an action under a specifier: nothing at all if the condition does not hold on the flags of the current
mode (R133); the action is told whether the flags are frozen (R134). -/
def State.predicated (s : State) (c : Specifier) (action : Bool → State → Result) : Result :=
  if condHolds c.cond (s.flagsOf s.cur) then action c.freeze s else .next s

/-- A short instruction takes the head entry of the queue as its specifier and removes it (R137). -/
def State.runShort (s : State) (action : Bool → State → Result) : Result :=
  s.popCondition.predicated s.shortSpecifier action

/-- A long instruction removes the head entry of the queue and obeys its own `cond` field (R139). -/
def State.runLong (s : State) (c : Specifier) (action : Bool → State → Result) : Result :=
  s.popCondition.predicated c action

/-! ## The two ALU templates -/

/-- R150: both sources are read, then the result and the flags are written. -/
def State.runShortAlu (s : State) (f : Word → Word → AluOut) (d s1 s2 : Reg) : Result :=
  s.runShort fun freeze t => t.writeAlu d (f (t.read s1) (t.read s2)) freeze

/-- R180: the second operand is the sign-extended immediate. -/
def State.runImmediateAlu (s : State) (f : Word → Word → AluOut) (d src : Reg) (imm : BitVec 14)
    (c : Specifier) : Result :=
  s.runLong c fun freeze t => t.writeAlu d (f (t.read src) (immediate14 imm)) freeze

end Sys2Proof.Machine
end

