-- ==== Sys2Proof/Machine/Immediate.lean ====
section
/-! DEFINITION. The meanings of the immediate instructions (42_immediate.md R180 to R188). -/

namespace Sys2Proof.Machine
open Sys2Proof

/-- `ADDI D, S, I` (R181). -/
def execAddi (d src : Reg) (imm : BitVec 14) (c : Specifier) (s : State) : Result :=
  s.runImmediateAlu add32 d src imm c

/-- `SUBI D, S, I` (R182). -/
def execSubi (d src : Reg) (imm : BitVec 14) (c : Specifier) (s : State) : Result :=
  s.runImmediateAlu sub32 d src imm c

/-- `LSHI D, S, I` (R183). -/
def execLshi (d src : Reg) (imm : BitVec 14) (c : Specifier) (s : State) : Result :=
  s.runImmediateAlu lsh32 d src imm c

/-- `ASHI D, S, I` (R184). -/
def execAshi (d src : Reg) (imm : BitVec 14) (c : Specifier) (s : State) : Result :=
  s.runImmediateAlu ash32 d src imm c

/-- `ANDI D, S, I` (R185). -/
def execAndi (d src : Reg) (imm : BitVec 14) (c : Specifier) (s : State) : Result :=
  s.runImmediateAlu and32 d src imm c

/-- `ORI D, S, I` (R186). -/
def execOri (d src : Reg) (imm : BitVec 14) (c : Specifier) (s : State) : Result :=
  s.runImmediateAlu or32 d src imm c

/-- `XORI D, S, I` (R187). -/
def execXori (d src : Reg) (imm : BitVec 14) (c : Specifier) (s : State) : Result :=
  s.runImmediateAlu xor32 d src imm c

/-- `LDH D, S, I` (R188): a move, no flags. -/
def execLdh (d src : Reg) (imm : BitVec 14) (c : Specifier) (s : State) : Result :=
  s.runLong c fun _ t => t.write d (highImmediate imm (t.read src))

end Sys2Proof.Machine
end

