-- ==== Sys2Proof/Machine/LoadStore.lean ====
section
/-! DEFINITION. The meanings of the loads and stores (43_load_store.md R200 to R209). None writes a flag. -/

namespace Sys2Proof.Machine
open Sys2Proof

/-- `zext_16` of the two bytes read (R205). -/
def zext16 (w : Word) : Word := (w.extractLsb' 0 16).setWidth 32

/-- `sext_16` of the two bytes read (R206). -/
def sext16 (w : Word) : Word := (w.extractLsb' 0 16).signExtend 32

/-- `zext_8` of the byte read (R207). -/
def zext8 (w : Word) : Word := (w.extractLsb' 0 8).setWidth 32

/-- `sext_8` of the byte read (R208). -/
def sext8 (w : Word) : Word := (w.extractLsb' 0 8).signExtend 32

/-- `LW SD, A, I` (R201). -/
def execLw (sd a : Reg) (imm : BitVec 15) (c : Specifier) (s : State) : Result :=
  s.runLong c fun _ t => t.loadInto sd a imm 4 id

/-- `SW SD, A, I` (R202). -/
def execSw (sd a : Reg) (imm : BitVec 15) (c : Specifier) (s : State) : Result :=
  s.runLong c fun _ t => t.storeFrom sd a imm 4

/-- `SH SD, A, I` (R203: the low 16 bits). -/
def execSh (sd a : Reg) (imm : BitVec 15) (c : Specifier) (s : State) : Result :=
  s.runLong c fun _ t => t.storeFrom sd a imm 2

/-- `SB SD, A, I` (R204: the low 8 bits, the only store to a port). -/
def execSb (sd a : Reg) (imm : BitVec 15) (c : Specifier) (s : State) : Result :=
  s.runLong c fun _ t => t.storeFrom sd a imm 1

/-- `LHU SD, A, I` (R205). -/
def execLhu (sd a : Reg) (imm : BitVec 15) (c : Specifier) (s : State) : Result :=
  s.runLong c fun _ t => t.loadInto sd a imm 2 zext16

/-- `LHS SD, A, I` (R206). -/
def execLhs (sd a : Reg) (imm : BitVec 15) (c : Specifier) (s : State) : Result :=
  s.runLong c fun _ t => t.loadInto sd a imm 2 sext16

/-- `LBU SD, A, I` (R207). -/
def execLbu (sd a : Reg) (imm : BitVec 15) (c : Specifier) (s : State) : Result :=
  s.runLong c fun _ t => t.loadInto sd a imm 1 zext8

/-- `LBS SD, A, I` (R208). -/
def execLbs (sd a : Reg) (imm : BitVec 15) (c : Specifier) (s : State) : Result :=
  s.runLong c fun _ t => t.loadInto sd a imm 1 sext8

end Sys2Proof.Machine
end

