-- ==== Sys2Proof/Machine/Misc.lean ====
section
/-! DEFINITION. The meanings of the miscellaneous instructions (44_misc.md R230 to R242). None writes
`Z C N V`, so the freeze bit has no effect (R230). -/

namespace Sys2Proof.Machine
open Sys2Proof

/-- `LDI D, I` (R231). -/
def execLdi (d : Reg) (imm : BitVec 20) (c : Specifier) (s : State) : Result :=
  s.runLong c fun _ t => t.write d (immediate20 imm)

/-- The exact product of two unsigned words (R233). -/
def productU (a b : Word) : BitVec 64 := BitVec.ofNat 64 (a.toNat * b.toNat)

/-- The exact product of two signed words, as a 64-bit two's complement number (R234). -/
def productS (a b : Word) : BitVec 64 := BitVec.ofInt 64 (a.toInt * b.toInt)

/-- `MLTU S1, S2` (R233). -/
def execMltu (s1 s2 : Reg) (c : Specifier) (s : State) : Result :=
  s.runLong c fun _ t => t.multiply (productU (t.read s1) (t.read s2))

/-- `MLTS S1, S2` (R234). -/
def execMlts (s1 s2 : Reg) (c : Specifier) (s : State) : Result :=
  s.runLong c fun _ t => t.multiply (productS (t.read s1) (t.read s2))

/-- Quotient and remainder of two unsigned words (R235). -/
def quotientU (a b : Word) : Option (Word × Word) :=
  let q := a.toNat / b.toNat
  some (BitVec.ofNat 32 q, BitVec.ofNat 32 (a.toNat - q * b.toNat))

/-- Quotient and remainder of two signed words by `DIVS_ROUND`, or nothing for `-2^31 / -1` (R236). -/
def quotientS (a b : Word) : Option (Word × Word) :=
  if a.toInt = -2 ^ 31 ∧ b.toInt = -1 then none
  else
    let q := Params.divsRound a.toInt b.toInt
    some (BitVec.ofInt 32 q, BitVec.ofInt 32 (a.toInt - q * b.toInt))

/-- `DIVU S1, S2` (R235): `S1` is the dividend. -/
def execDivu (s1 s2 : Reg) (c : Specifier) (s : State) : Result :=
  s.runLong c fun _ t => t.divide (t.read s2) (quotientU (t.read s1) (t.read s2))

/-- `DIVS S1, S2` (R236): `S1` is the dividend. -/
def execDivs (s1 s2 : Reg) (c : Specifier) (s : State) : Result :=
  s.runLong c fun _ t => t.divide (t.read s2) (quotientS (t.read s1) (t.read s2))

/-- `MVSU sD, uS` (R238): supervisor only; the source is the user register as stored (`uPC` is where user code
will resume, `uSR` has `M = 1`). -/
def execMvsu (d src : Reg) (c : Specifier) (s : State) : Result :=
  s.runLong c fun _ t =>
    match t.cur with
    | .user => .next (t.raise .illegalOpcode)
    | .supervisor => t.write d (t.reg .user src)

/-- `MVUS uD, sS` (R239): supervisor only; a write of `uSR` ignores the `M` bit, a write of `uPC` is no
transfer. -/
def execMvus (d src : Reg) (c : Specifier) (s : State) : Result :=
  s.runLong c fun _ t =>
    match t.cur with
    | .user => .next (t.raise .illegalOpcode)
    | .supervisor =>
      match d with
      | .sr => t.srWrite .user (t.read src)
      | _ => .next (t.withRegs .user ((t.regs .user).store d (t.read src)))

/-- `MVHI D` (R240, R242). -/
def execMvhi (d : Reg) (c : Specifier) (s : State) : Result :=
  s.runLong c fun _ t => (t.readHiLo t.hi).2.write d (t.readHiLo t.hi).1

/-- `MVLO D` (R241, R242). -/
def execMvlo (d : Reg) (c : Specifier) (s : State) : Result :=
  s.runLong c fun _ t => (t.readHiLo t.lo).2.write d (t.readHiLo t.lo).1

end Sys2Proof.Machine
end

