-- ==== Sys2Proof/Machine/ShortAlu.lean ====
section
/-! DEFINITION. The meanings of the short instructions (41_short_alu.md R150 to R158, 40_conditions_and_cnd.md
R136). -/

namespace Sys2Proof.Machine
open Sys2Proof

/-- `NOP` (R158): does nothing, but is an instruction and takes a queue entry (R138). -/
def execNop (s : State) : Result :=
  s.runShort fun _ t => .next t

/-- `ADD D, S1, S2` (R151, R159). -/
def execAdd (d s1 s2 : Reg) (s : State) : Result :=
  s.runShortAlu add32 d s1 s2

/-- `SUB D, S1, S2` (R152, R159). -/
def execSub (d s1 s2 : Reg) (s : State) : Result :=
  s.runShortAlu sub32 d s1 s2

/-- `LSH D, S1, S2` (R153, R160). -/
def execLsh (d s1 s2 : Reg) (s : State) : Result :=
  s.runShortAlu lsh32 d s1 s2

/-- `ASH D, S1, S2` (R154, R160). -/
def execAsh (d s1 s2 : Reg) (s : State) : Result :=
  s.runShortAlu ash32 d s1 s2

/-- `AND D, S1, S2` (R155, R161). -/
def execAnd (d s1 s2 : Reg) (s : State) : Result :=
  s.runShortAlu and32 d s1 s2

/-- `OR D, S1, S2` (R156, R161). -/
def execOr (d s1 s2 : Reg) (s : State) : Result :=
  s.runShortAlu or32 d s1 s2

/-- `XOR D, S1, S2` (R157, R161). -/
def execXor (d s1 s2 : Reg) (s : State) : Result :=
  s.runShortAlu xor32 d s1 s2

/-- `CND c1, c2, c3` (R136): replaces whatever the queue held. Inside a window it is itself predicated by the
head entry (R140). -/
def execCnd (c1 c2 c3 : Specifier) (s : State) : Result :=
  s.runShort fun _ t => .next { t with cndq := [c1, c2, c3] }

end Sys2Proof.Machine
end

