-- ==== Sys2Proof/Machine/Dispatch.lean ====
section
/-! DEFINITION. What an instruction does, one arm per row of 30_encoding.md R104. -/

namespace Sys2Proof.Machine
open Sys2Proof

def exec (i : Instr) (s : State) : Host.Outcome State Fault Refusal :=
  match i with
  | .nop => Sys2Proof.Machine.execNop s
  | .add d s1 s2 => Sys2Proof.Machine.execAdd d s1 s2 s
  | .sub d s1 s2 => Sys2Proof.Machine.execSub d s1 s2 s
  | .lsh d s1 s2 => Sys2Proof.Machine.execLsh d s1 s2 s
  | .ash d s1 s2 => Sys2Proof.Machine.execAsh d s1 s2 s
  | .and d s1 s2 => Sys2Proof.Machine.execAnd d s1 s2 s
  | .or d s1 s2 => Sys2Proof.Machine.execOr d s1 s2 s
  | .xor d s1 s2 => Sys2Proof.Machine.execXor d s1 s2 s
  | .cnd c1 c2 c3 => Sys2Proof.Machine.execCnd c1 c2 c3 s
  | .addi d src imm c => Sys2Proof.Machine.execAddi d src imm c s
  | .subi d src imm c => Sys2Proof.Machine.execSubi d src imm c s
  | .lshi d src imm c => Sys2Proof.Machine.execLshi d src imm c s
  | .ashi d src imm c => Sys2Proof.Machine.execAshi d src imm c s
  | .andi d src imm c => Sys2Proof.Machine.execAndi d src imm c s
  | .ori d src imm c => Sys2Proof.Machine.execOri d src imm c s
  | .xori d src imm c => Sys2Proof.Machine.execXori d src imm c s
  | .ldh d src imm c => Sys2Proof.Machine.execLdh d src imm c s
  | .ldi d imm c => Sys2Proof.Machine.execLdi d imm c s
  | .mltu s1 s2 c => Sys2Proof.Machine.execMltu s1 s2 c s
  | .mlts s1 s2 c => Sys2Proof.Machine.execMlts s1 s2 c s
  | .divu s1 s2 c => Sys2Proof.Machine.execDivu s1 s2 c s
  | .divs s1 s2 c => Sys2Proof.Machine.execDivs s1 s2 c s
  | .mvsu d src c => Sys2Proof.Machine.execMvsu d src c s
  | .mvus d src c => Sys2Proof.Machine.execMvus d src c s
  | .mvhi d c => Sys2Proof.Machine.execMvhi d c s
  | .mvlo d c => Sys2Proof.Machine.execMvlo d c s
  | .lw sd a imm c => Sys2Proof.Machine.execLw sd a imm c s
  | .sw sd a imm c => Sys2Proof.Machine.execSw sd a imm c s
  | .sh sd a imm c => Sys2Proof.Machine.execSh sd a imm c s
  | .sb sd a imm c => Sys2Proof.Machine.execSb sd a imm c s
  | .lhu sd a imm c => Sys2Proof.Machine.execLhu sd a imm c s
  | .lhs sd a imm c => Sys2Proof.Machine.execLhs sd a imm c s
  | .lbu sd a imm c => Sys2Proof.Machine.execLbu sd a imm c s
  | .lbs sd a imm c => Sys2Proof.Machine.execLbs sd a imm c s

end Sys2Proof.Machine
end

