-- ==== Sys2Proof/Machine/Fetch.lean ====
section
/-! DEFINITION. The parts of the instruction step (10_state.md R30) before and after the instruction's own
action: the boundary, the fetch, the decoding, the advance of `pc`, the division ticks. -/

namespace Sys2Proof.Machine
open Sys2Proof Sys2Proof.Config

/-- What the fetch comes to: the step is over (halt, interrupt, a fault of the fetch, a refusal), or an
instruction is to run in a state. -/
inductive Fetched where
  | over (o : Result)
  | run (i : Instr) (s : State)

/-- `w`, the address of the instruction word (R29). -/
def wordAddress (a : Word) : Word := a &&& 0xFFFFFFFC

/-- Which slot of the word `a` names (R29). -/
def slotOf (a : Word) : Slot := if a.getLsbD 1 then .second else .first

/-- `W` and the state after the fetch: the word is read as data is (R63). -/
def State.fetchWord (s : State) : Word × State :=
  s.readBytes (wordAddress s.pc) 4

/-- What the word fetched from `a` comes to in the state `t` (R30): a refusal inside a long instruction (R31),
`IllegalOpcode` before any specifier is consulted (R106, R287), or the instruction, `pc` advanced to `npc`
(R28) and the division window told (R237). -/
def State.decodeFetched (t : State) (a w : Word) : Fetched :=
  match decodeSlot (slotOf a) w with
  | .ok i => .run i (t.withPc (a + advance (slotOf a) w)).tickBefore
  | .error .insideLongInstruction => .over (.refused .pcInsideLongInstruction)
  | .error _ => .over (.next (t.raiseAt .illegalOpcode (faultPcValue a (a + advance (slotOf a) w))))

/-- Whether `pc` is refused inside a long instruction (R31): it names the second slot of a word with bit 31 set. -/
def State.insideLong (s : State) : Bool :=
  s.pc.getLsbD 1 && s.fetchWord.1.getLsbD 31

/-- The fetch at `pc`, in the order of R288 (D40): the refusals, the null address, the decoding. Bit 31 of word 0
lies in a byte of ROM, so the refusal is known there too (log entry 22). -/
def State.fetchAtPc (s : State) : Fetched :=
  if s.pc.getLsbD 0 then .over (.refused .oddPc)
  else if s.insideLong then .over (.refused .pcInsideLongInstruction)
  else if wordAddress s.pc = 0 ∧ Params.nullFetch = .faults then
    .over (.next (s.raiseAt .nullReference s.pc))
  else s.fetchWord.2.decodeFetched s.pc s.fetchWord.1

/-- The step up to the instruction's action (R30), for a value of `IRQ`: the interrupt at the boundary (R290), else
the fetch. A halted CPU makes no step (R286): the state stays. -/
def State.fetch (s : State) (irq : Irq) : Fetched :=
  if s.halted then .over (.next s)
  else if s.interruptTaken irq then .over (.next s.countStep.takeInterrupt)
  else s.countStep.fetchAtPc

/-- What follows the instruction's action (R30): the division lands if it is time (R237), after a fault too
(R289). -/
def Result.finish (o : Result) : Result :=
  o.andThen fun t => .next t.tickAfter

/-! ## Placing an instruction where the next step fetches it -/

/-- A `pc` from which the next step can fetch a first slot: the state's own, or `RESET_PC`. -/
def State.fetchablePc (s : State) : Word :=
  if s.pc.getLsbD 0 = false ∧ s.pc.getLsbD 1 = false ∧ s.pc ≠ 0 ∧ allBacked s.pc 4 then s.pc else Params.resetPc

/-- The state with the four bytes of an instruction of `nbits` bits `w` at `pc`. Where the next step would not
fetch at `pc` (halted, a `pc` that is no first slot in memory), that is undone too. With `IRQ` = none no interrupt
comes before it. -/
def State.placeInstruction (s : State) (nbits w : Nat) : State :=
  let p := s.fetchablePc
  let word := match tableBytes nbits w with
    | b0 :: b1 :: b2 :: b3 :: _ => wordOfBytes b0 b1 b2 b3
    | _ => 0
  { s.withPc p with
    mem := Memory.write s.mem p word 4
    halted := false }

end Sys2Proof.Machine
end

