-- ==== Sys2Proof/Machine/Step.lean ====
section
/-! DEFINITION. One step of the CPU (10_state.md R30). -/

namespace Sys2Proof.Machine
open Sys2Proof Sys2Proof.Config

/-- The instruction step (R30) for a value of `IRQ`: the fetch, the instruction's own meaning, the end of the
division window. -/
def stepUnder (irq : Irq) (s : State) : Host.Outcome State Fault Refusal :=
  match s.fetch irq with
  | .over o => o
  | .run i t => Result.finish (exec i t)

/-- The instruction step (R30), with the platform's `IRQ`. -/
def step (s : State) : Host.Outcome State Fault Refusal :=
  stepUnder Params.irq s

/-- `s` with an instruction of `nbits` bits `w` stored where `step` fetches next. Log entry 26. -/
def State.withFetchWord (s : State) (nbits w : Nat) : State :=
  s.placeInstruction nbits w

end Sys2Proof.Machine
end

