-- ==== Sys2Proof/Safety.lean ====
section
/-! DEFINITION. The terms in which claims about the machine are stated: when an instruction's condition holds,
what a state keeps, and the invariant of every run. -/

namespace Sys2Proof.Machine
open Sys2Proof

/-! ## Predication -/

/-- The specifier an instruction obeys (R130): a long one its own field, a short one the head of the queue or
`0000` (R137). -/
def State.specifierOf (s : State) : Instr → Specifier
  | .nop | .add .. | .sub .. | .lsh .. | .ash .. | .and .. | .or .. | .xor .. | .cnd .. => s.shortSpecifier
  | .addi _ _ _ c | .subi _ _ _ c | .lshi _ _ _ c | .ashi _ _ _ c | .andi _ _ _ c | .ori _ _ _ c
  | .xori _ _ _ c | .ldh _ _ _ c | .ldi _ _ c | .mltu _ _ c | .mlts _ _ c | .divu _ _ c | .divs _ _ c
  | .mvsu _ _ c | .mvus _ _ c | .mvhi _ c | .mvlo _ c | .lw _ _ _ c | .sw _ _ _ c | .sh _ _ _ c
  | .sb _ _ _ c | .lhu _ _ _ c | .lhs _ _ _ c | .lbu _ _ _ c | .lbs _ _ _ c => c

/-- The condition of the specifier holds on the flags of the current mode (R131, R133). -/
def State.passes (s : State) (i : Instr) : Prop :=
  condHolds (s.specifierOf i).cond (s.flagsOf s.cur) = true

/-- The freeze bit of the specifier (R134). -/
def State.freezes (s : State) (i : Instr) : Bool :=
  (s.specifierOf i).freeze

/-! ## What is kept -/

/-- Every byte of memory reads as before: the byte written last at each address, if any. -/
def SameMemory (s t : State) : Prop :=
  ∀ a : Word, Memory.lookup t.mem a.toNat = Memory.lookup s.mem a.toNat

/-- Every byte of memory outside the `n` bytes from `ea` on reads as before. -/
def SameMemoryOutside (ea : Word) (n : Nat) (s t : State) : Prop :=
  ∀ a : Word, (∀ k, k < n → a ≠ ea + BitVec.ofNat 32 k) →
    Memory.lookup t.mem a.toNat = Memory.lookup s.mem a.toNat

/-- Every register of both sets but `SR` reads as before, `PC` among them. -/
def SameRegisters (s t : State) : Prop :=
  ∀ m r, r ≠ .sr → t.reg m r = s.reg m r

/-- Every register of both sets but `SR` and register `d` of mode `m` reads as before. -/
def SameRegistersBut (m : Mode) (d : Reg) (s t : State) : Prop :=
  ∀ m' r, r ≠ .sr → ¬(m' = m ∧ r = d) → t.reg m' r = s.reg m' r

/-- The stored flags of both modes are as before. -/
def SameFlags (s t : State) : Prop :=
  ∀ m, t.flagsOf m = s.flagsOf m

/-- `HI` and `LO`, and whether they are unspecified. -/
def SameHiLo (s t : State) : Prop :=
  t.hi = s.hi ∧ t.lo = s.lo ∧ t.hiLoOpen = s.hiLoOpen

/-- The mode, the halt state and the outputs. -/
def SameControl (s t : State) : Prop :=
  t.cur = s.cur ∧ t.halted = s.halted ∧ t.outputs = s.outputs

/-- The queue has lost its head entry (R137 to R139). -/
def QueueConsumed (s t : State) : Prop :=
  t.cndq = s.cndq.tail

/-- Register `d` of the current mode has received `v` (R6, R23, R260): `R0` still reads 0, any other register,
`PC` among them, reads `v`. `SR` is not meant. -/
def Received (s t : State) (d : Reg) (v : Word) : Prop :=
  t.reg s.cur d = if d = .r0 then 0 else v

/-! ## What an instruction has done

Each structure says what has changed from `s` to `t` and that nothing else has. The counters `drawn` and
`steps` are the model's own and are not mentioned. -/

/-- One of the fourteen ALU instructions has run with destination `d`, not `SR`, and result `r` (R150):
`cv` is the `C` and `V` its function gives, `none` where they are `any` (R160, R161). -/
structure AluDone (s t : State) (d : Reg) (freeze : Bool) (r : Word) (cv : Option (Bool × Bool)) : Prop where
  received : Received s t d r
  registers : SameRegistersBut s.cur d s t
  otherFlags : ∀ m, m ≠ s.cur → t.flagsOf m = s.flagsOf m
  frozen : freeze = true → t.flagsOf s.cur = s.flagsOf s.cur
  flags : freeze = false → ∃ c v,
    t.flagsOf s.cur = { s.flagsOf s.cur with z := decide (r = 0), n := r.getLsbD 31, c := c, v := v } ∧
      ∀ x, cv = some x → c = x.1 ∧ v = x.2
  queue : QueueConsumed s t
  hiLo : SameHiLo s t
  window : t.div = s.div
  control : SameControl s t
  memory : SameMemory s t

/-- A value `v` has been moved into register `d`, not `SR`; no flag, no memory (R188, R200, R231, R238, R240). -/
structure MoveDone (s t : State) (d : Reg) (v : Word) : Prop where
  received : Received s t d v
  registers : SameRegistersBut s.cur d s t
  flags : SameFlags s t
  queue : QueueConsumed s t
  hiLo : SameHiLo s t
  window : t.div = s.div
  control : SameControl s t
  memory : SameMemory s t

/-- The `SR` of the current mode has received `v` (R35), but for `Z C N V`: the other stored flags are the bits
of `v`, the mode is its `M` bit; a switch empties the queue (R140) and an entry to supervisor mode clears the
user `HWI` (R284). -/
structure SrDone (s t : State) (v : Word) : Prop where
  mode : t.cur = modeOfBit (v.getLsbD 4)
  queue : t.cndq = if t.cur = s.cur then s.cndq.tail else []
  zd : (t.flagsOf s.cur).zd = v.getLsbD 5
  il : (t.flagsOf s.cur).il = v.getLsbD 6
  wfi : (t.flagsOf s.cur).wfi = false
  step : (t.flagsOf s.cur).step = false
  hwi : (t.flagsOf s.cur).hwi = (v.getLsbD 9 && !(decide (s.cur = .user ∧ t.cur = .supervisor)))
  nul : (t.flagsOf s.cur).nul = v.getLsbD 10
  otherFlags : ∀ m, m ≠ s.cur → t.flagsOf m = s.flagsOf m
  registers : SameRegisters s t
  hiLo : SameHiLo s t
  window : t.div = s.div
  halted : t.halted = s.halted
  outputs : t.outputs = s.outputs
  memory : SameMemory s t

/-- The condition flags of the mode that ran are bits 3..0 of `v` (R33, R35). -/
def ConditionFlagsFrom (s t : State) (v : Word) : Prop :=
  (t.flagsOf s.cur).z = v.getLsbD 0 ∧ (t.flagsOf s.cur).c = v.getLsbD 1 ∧
    (t.flagsOf s.cur).n = v.getLsbD 2 ∧ (t.flagsOf s.cur).v = v.getLsbD 3

/-- A fault `e` has been taken (R283): the `PC` of the mode that faulted holds `pc` (R285), and in supervisor
mode the queue is left as `q`. `HI` and `LO` are not meant. -/
structure FaultTaken (s t : State) (e : Event) (pc : Word) (q : List Specifier) : Prop where
  cause : t.flagsOf s.cur =
    match s.cur with
    | .user => { (s.flagsOf s.cur).record e with hwi := false }
    | .supervisor => (s.flagsOf s.cur).record e
  pc : t.reg s.cur .pc = pc
  mode : t.cur = .supervisor
  halted : t.halted = (s.halted || decide (s.cur = .supervisor))
  queue : t.cndq = match s.cur with
    | .user => []
    | .supervisor => q
  otherFlags : ∀ m, m ≠ s.cur → t.flagsOf m = s.flagsOf m
  registers : SameRegistersBut s.cur .pc s t
  window : t.div = s.div
  outputs : t.outputs = s.outputs
  memory : SameMemory s t

/-- What a fault leaves in the `PC` of the mode that faulted, for each value of `FAULT_PC` (R285): the address
`a` of the instruction, or `npc`. -/
def faultResume (a npc : Word) : Word :=
  if Config.faultPc = .this then a else npc

/-- Everything but memory, the outputs and the queue is as before: what a store leaves alone (R200). -/
structure StoreFrame (s t : State) : Prop where
  registers : SameRegisters s t
  flags : SameFlags s t
  queue : QueueConsumed s t
  hiLo : SameHiLo s t
  window : t.div = s.div
  mode : t.cur = s.cur
  halted : t.halted = s.halted

/-- Everything but `HI`, `LO`, the division window and the queue is as before (R233 to R236). -/
structure HiLoFrame (s t : State) : Prop where
  registers : SameRegisters s t
  flags : SameFlags s t
  queue : QueueConsumed s t
  control : SameControl s t
  memory : SameMemory s t

/-! ## Instructions by what they write -/

/-- The destination and the ALU function's answer of the fourteen ALU instructions (R150, R180). -/
def State.aluResult (s : State) : Instr → Option (Reg × AluOut)
  | .add d s1 s2 => some (d, add32 (s.read s1) (s.read s2))
  | .sub d s1 s2 => some (d, sub32 (s.read s1) (s.read s2))
  | .lsh d s1 s2 => some (d, lsh32 (s.read s1) (s.read s2))
  | .ash d s1 s2 => some (d, ash32 (s.read s1) (s.read s2))
  | .and d s1 s2 => some (d, and32 (s.read s1) (s.read s2))
  | .or d s1 s2 => some (d, or32 (s.read s1) (s.read s2))
  | .xor d s1 s2 => some (d, xor32 (s.read s1) (s.read s2))
  | .addi d r i _ => some (d, add32 (s.read r) (i.signExtend 32))
  | .subi d r i _ => some (d, sub32 (s.read r) (i.signExtend 32))
  | .lshi d r i _ => some (d, lsh32 (s.read r) (i.signExtend 32))
  | .ashi d r i _ => some (d, ash32 (s.read r) (i.signExtend 32))
  | .andi d r i _ => some (d, and32 (s.read r) (i.signExtend 32))
  | .ori d r i _ => some (d, or32 (s.read r) (i.signExtend 32))
  | .xori d r i _ => some (d, xor32 (s.read r) (i.signExtend 32))
  | .nop | .cnd .. | .ldh .. | .ldi .. | .mltu .. | .mlts .. | .divu .. | .divs .. | .mvsu .. | .mvus ..
  | .mvhi .. | .mvlo .. | .lw .. | .sw .. | .sh .. | .sb .. | .lhu .. | .lhs .. | .lbu .. | .lbs .. => none

/-- The destination and the value of the five moves `LDH`, `LDI`, `MVHI`, `MVLO` and `MVSU` (R188, R231, R240,
R241, R238), where the spec gives the value: `HI` and `LO` specified (R242), `MVSU` in supervisor mode. -/
def State.moveResult (s : State) : Instr → Option (Reg × Word)
  | .ldh d r i _ => some (d, (i.setWidth 32 <<< 18) ||| (s.read r &&& 0x3FFFF))
  | .ldi d i _ => some (d, i.signExtend 32)
  | .mvhi d _ => if s.hiLoOpen then none else some (d, s.hi)
  | .mvlo d _ => if s.hiLoOpen then none else some (d, s.lo)
  | .mvsu d r _ => if s.cur = .supervisor then some (d, s.reg .user r) else none
  | .nop | .add .. | .sub .. | .lsh .. | .ash .. | .and .. | .or .. | .xor .. | .cnd ..
  | .addi .. | .subi .. | .lshi .. | .ashi .. | .andi .. | .ori .. | .xori ..
  | .mltu .. | .mlts .. | .divu .. | .divs .. | .mvus .. | .lw .. | .sw .. | .sh .. | .sb ..
  | .lhu .. | .lhs .. | .lbu .. | .lbs .. => none

/-- The address register, the offset and the width in bytes of the eight loads and stores (R67, R200). -/
def accessOf : Instr → Option (Reg × BitVec 15 × Nat)
  | .lw _ a i _ | .sw _ a i _ => some (a, i, 4)
  | .lhu _ a i _ | .lhs _ a i _ | .sh _ a i _ => some (a, i, 2)
  | .lbu _ a i _ | .lbs _ a i _ | .sb _ a i _ => some (a, i, 1)
  | .nop | .add .. | .sub .. | .lsh .. | .ash .. | .and .. | .or .. | .xor .. | .cnd ..
  | .addi .. | .subi .. | .lshi .. | .ashi .. | .andi .. | .ori .. | .xori .. | .ldh .. | .ldi ..
  | .mltu .. | .mlts .. | .divu .. | .divs .. | .mvsu .. | .mvus .. | .mvhi .. | .mvlo .. => none

/-- The destination register of the five loads and how the bytes read are extended (R201, R205 to R208). -/
def loadOf : Instr → Option (Reg × (Word → Word))
  | .lw d _ _ _ => some (d, fun v => v)
  | .lhu d _ _ _ => some (d, fun v => (v.setWidth 16).setWidth 32)
  | .lhs d _ _ _ => some (d, fun v => (v.setWidth 16).signExtend 32)
  | .lbu d _ _ _ => some (d, fun v => (v.setWidth 8).setWidth 32)
  | .lbs d _ _ _ => some (d, fun v => (v.setWidth 8).signExtend 32)
  | .nop | .add .. | .sub .. | .lsh .. | .ash .. | .and .. | .or .. | .xor .. | .cnd ..
  | .addi .. | .subi .. | .lshi .. | .ashi .. | .andi .. | .ori .. | .xori .. | .ldh .. | .ldi ..
  | .mltu .. | .mlts .. | .divu .. | .divs .. | .mvsu .. | .mvus .. | .mvhi .. | .mvlo ..
  | .sw .. | .sh .. | .sb .. => none

/-- The register stored by the three stores (R202 to R204). -/
def storeOf : Instr → Option Reg
  | .sw d _ _ _ | .sh d _ _ _ | .sb d _ _ _ => some d
  | .nop | .add .. | .sub .. | .lsh .. | .ash .. | .and .. | .or .. | .xor .. | .cnd ..
  | .addi .. | .subi .. | .lshi .. | .ashi .. | .andi .. | .ori .. | .xori .. | .ldh .. | .ldi ..
  | .mltu .. | .mlts .. | .divu .. | .divs .. | .mvsu .. | .mvus .. | .mvhi .. | .mvlo ..
  | .lw .. | .lhu .. | .lhs .. | .lbu .. | .lbs .. => none

/-- The four bytes from `a` on as a little-endian word (R61): a narrower load uses the low ones. -/
def State.bytesFrom (s : State) (a : Word) : Word :=
  s.byteAt (a + 3) ++ s.byteAt (a + 2) ++ s.byteAt (a + 1) ++ s.byteAt a

/-- The mnemonic of an instruction as 30_encoding.md R104 spells it. -/
def mnemonicOf : Instr → String
  | .nop => "NOP"
  | .add .. => "ADD"
  | .sub .. => "SUB"
  | .lsh .. => "LSH"
  | .ash .. => "ASH"
  | .and .. => "AND"
  | .or .. => "OR"
  | .xor .. => "XOR"
  | .cnd .. => "CND"
  | .addi .. => "ADDI"
  | .subi .. => "SUBI"
  | .lshi .. => "LSHI"
  | .ashi .. => "ASHI"
  | .andi .. => "ANDI"
  | .ori .. => "ORI"
  | .xori .. => "XORI"
  | .ldh .. => "LDH"
  | .ldi .. => "LDI"
  | .mltu .. => "MLTU"
  | .mlts .. => "MLTS"
  | .divu .. => "DIVU"
  | .divs .. => "DIVS"
  | .mvsu .. => "MVSU"
  | .mvus .. => "MVUS"
  | .mvhi .. => "MVHI"
  | .mvlo .. => "MVLO"
  | .lw .. => "LW"
  | .sw .. => "SW"
  | .sh .. => "SH"
  | .sb .. => "SB"
  | .lhu .. => "LHU"
  | .lhs .. => "LHS"
  | .lbu .. => "LBU"
  | .lbs .. => "LBS"

/-- The long rows of the opcode map (30_encoding.md R104): mnemonic, match and mask. -/
def longRows : List (String × Word × Word) :=
  [("ADDI", 0x80000000, 0xFC000000), ("SUBI", 0x84000000, 0xFC000000), ("LSHI", 0x88000000, 0xFC000000),
   ("ASHI", 0x8C000000, 0xFC000000), ("ANDI", 0x90000000, 0xFC000000), ("ORI", 0x94000000, 0xFC000000),
   ("XORI", 0x98000000, 0xFC000000), ("LDH", 0x9C000000, 0xFC000000), ("LDI", 0xA0000000, 0xF0000000),
   ("MLTU", 0xB0000000, 0xFE000000), ("MLTS", 0xB2000000, 0xFE000000), ("DIVU", 0xB4000000, 0xFE000000),
   ("DIVS", 0xB6000000, 0xFE000000), ("MVSU", 0xB8000000, 0xFE000000), ("MVUS", 0xBA000000, 0xFE000000),
   ("MVHI", 0xBC000000, 0xFE000000), ("MVLO", 0xBE000000, 0xFE000000), ("LW", 0xC0000000, 0xF8000000),
   ("SW", 0xC8000000, 0xF8000000), ("SH", 0xD0000000, 0xF8000000), ("SB", 0xD8000000, 0xF8000000),
   ("LHU", 0xE0000000, 0xF8000000), ("LHS", 0xE8000000, 0xF8000000), ("LBU", 0xF0000000, 0xF8000000),
   ("LBS", 0xF8000000, 0xF8000000)]

/-- The short rows of the opcode map (R104) but `NOP`, which is tested before them. -/
def shortRows : List (String × Half × Half) :=
  [("ADD", 0x0000, 0xF000), ("SUB", 0x1000, 0xF000), ("LSH", 0x2000, 0xF000), ("ASH", 0x3000, 0xF000),
   ("AND", 0x4000, 0xF000), ("OR", 0x5000, 0xF000), ("XOR", 0x6000, 0xF000), ("CND", 0x7000, 0xF000)]

/-! ## When a step processes an instruction -/

/-- Nothing stands between the boundary and the decoding of the word at `pc` (R30, R288): not halted, no
interrupt, `pc` even, not the null word. -/
def State.fetches (s : State) (irq : Config.Irq) : Prop :=
  s.halted = false ∧ s.interruptTaken irq = false ∧ s.pc.getLsbD 0 = false ∧ wordAddress s.pc ≠ 0

/-! ## The invariant of every run -/

/-- Memory in canonical form; at most three entries in the queue (R40); a pending division has 1 to 11
instructions to pass (R41); no stored `WFI` or `STEP` (R295); only the supervisor halts (R42). -/
structure State.Inv (s : State) : Prop where
  mem : Memory.wf s.mem = true
  queue : s.cndq.length ≤ 3
  window : ∀ w, s.div = some w → 1 ≤ w.n ∧ w.n ≤ 11
  wfi : ∀ m, (s.flagsOf m).wfi = false
  step : ∀ m, (s.flagsOf m).step = false
  halt : s.halted = true → s.cur = .supervisor

end Sys2Proof.Machine
end

