-- ==== Sys2Proof/Certificates/Slice0/Obligations.lean ====
section
/-! DEFINITION. The statements about the machine, from the numbered rules of the spec. A statement about a step holds
for every value of the parameter `IRQ`; `Sys2Proof.Machine.step` is the step at `Params.irq`. -/

open Sys2Proof Sys2Proof.Machine

/-! ## Reset and the invariant -/

/-- Reset (70_reset_and_hazards.md R320, 10_state.md R45), for every value of `RESET_PC`: what the spec itself
fixes. The values of the other registers are the model's choice (log entries 1 to 3) and are not stated. All of
it is the spec's own decision D31 (log entry 4). -/
def Obligations.ResetStartsTheSupervisor : Prop :=
  State.reset = State.resetAt Params.resetPc ∧
  ∀ p : Word,
    (State.resetAt p).cur = .supervisor ∧
    (State.resetAt p).reg .supervisor .pc = p ∧
    (State.resetAt p).cndq = [] ∧
    (State.resetAt p).div = none ∧
    (State.resetAt p).halted = false ∧
    (State.resetAt p).outputs = [] ∧
    (∀ m, ((State.resetAt p).flagsOf m).wfi = false ∧ ((State.resetAt p).flagsOf m).step = false) ∧
    (∀ m, (State.resetAt p).reg m .r0 = 0)

/-- The invariant holds after reset, wherever it starts. Model's choice with the spec's decision D31 (log
entries 2 to 4). -/
def Obligations.ResetSatisfiesTheInvariant : Prop :=
  State.reset.Inv ∧ ∀ p : Word, (State.resetAt p).Inv

/-- Every step keeps the invariant, for every value of `IRQ`: canonical memory, a queue of at most three (R40),
a window of 1 to 11 (R41), no stored `WFI` or `STEP` (R295), only the supervisor halted (R42). The refusal of
`WFI` and `STEP` is the spec's decision D28 (log entry 30), the form of the window the model's (log entry 12). -/
def Obligations.StepKeepsTheInvariant : Prop :=
  ∀ s t : State, s.Inv → (step s = .next t → t.Inv) ∧ ∀ irq, stepUnder irq s = .next t → t.Inv

/-! ## The instruction step -/

/-- 10_state.md R30: `step` is the step at the platform's `IRQ`. Where nothing stands before the decoding, a
step is `exec` of the instruction the word at `pc` decodes to, run with `pc` advanced to `npc`, the division
window told and one more step begun, and after it the end of the window. The order is the spec's inference, so
marked in R30; the window is its decision D33 (log entry 12), the count of steps the model's (log entry 15). -/
def Obligations.StepRunsTheDecodedInstruction : Prop :=
  (∀ s : State, step s = stepUnder Params.irq s) ∧
  ∀ (irq : Config.Irq) (s : State) (i : Instr), s.fetches irq → decodeSlot (slotOf s.pc) s.fetchWord.1 = .ok i →
    i.wellFormed = true →
    stepUnder irq s =
      match exec i (s.fetchWord.2.countStep.withPc (s.pc + advance (slotOf s.pc) s.fetchWord.1)).tickBefore with
      | .next t => .next t.tickAfter
      | .fault r => .fault r
      | .refused r => .refused r

/-- 20_memory.md R63, R60: the word fetched is the four bytes at the word's address, little-endian, where the
address holds RAM or ROM; the fetch changes nothing. Which addresses hold memory is the default `MEMMAP` (log
entry 24); unwritten bytes are free (log entry 5). -/
def Obligations.FetchReadsTheWordAtPc : Prop :=
  ∀ s : State, 0 < (wordAddress s.pc).toNat → (wordAddress s.pc).toNat < 0xF0000000 →
    s.fetchWord = (wordOfBytes (s.byteAt (wordAddress s.pc)) (s.byteAt (wordAddress s.pc + 1))
      (s.byteAt (wordAddress s.pc + 2)) (s.byteAt (wordAddress s.pc + 3)), s)

/-- 10_state.md R29 (and R28: what an instruction reads as `PC`): the address of the next instruction in
sequence. The second halfword of the pair is bits 31..16 under `PAIR_ORDER` = low_first. What `PC` reads is the
spec's decision D8; the order of the pair is a choice (D6, log entry 19). -/
def Obligations.NextInstructionAddress : Prop :=
  ∀ (irq : Config.Irq) (s : State) (i : Instr), s.fetches irq → decodeSlot (slotOf s.pc) s.fetchWord.1 = .ok i →
    ∃ u, s.fetch irq = .run i u ∧
      u.read .pc =
        (if s.fetchWord.1.getLsbD 31 then s.pc + 4
         else if s.pc.getLsbD 1 then wordAddress s.pc + 4
         else if s.fetchWord.1.extractLsb' 16 16 = 0 then s.pc + 4
         else s.pc + 2) ∧
      (s.pc.getLsbD 1 = true → wordAddress s.pc + 4 = s.pc + 2)

/-- 10_state.md R31, 60_exceptions.md R288: an odd `pc`, and a `pc` inside a long instruction, in word 0 too,
are refused; a `pc` at the second slot of a pair is legal. The spec's decisions D7 and D40 (log entries 22 and
30); that a second slot never holds an illegal halfword is the order of the pair, a choice (D6, log entry 19). -/
def Obligations.PcAlignment : Prop :=
  ∀ (irq : Config.Irq) (s : State), s.halted = false → s.interruptTaken irq = false →
    (s.pc.getLsbD 0 = true → stepUnder irq s = .refused .oddPc) ∧
    (s.pc.getLsbD 0 = false → s.pc.getLsbD 1 = true → s.fetchWord.1.getLsbD 31 = true →
      stepUnder irq s = .refused .pcInsideLongInstruction) ∧
    (s.fetches irq → s.pc.getLsbD 1 = true → s.fetchWord.1.getLsbD 31 = false → ∃ i u, s.fetch irq = .run i u)

/-! ## Encoding -/

/-- Decoding what the encoder writes gives the instruction back, for every well-formed instruction. Unused bits
are written as zeros, the spec's decision D26 (log entry 28). -/
def Obligations.DecodeInvertsEncode : Prop :=
  ∀ i : Instr, i.wellFormed = true → decodeEncoding (encode i) = .ok i

/-- The same inside a word (30_encoding.md R92, R93): a long instruction in its word, and no second slot there;
a short one in either slot of a pair. The order of the pair is a choice (D6, log entry 19). -/
def Obligations.EncodedInstructionsDecodeInTheirSlots : Prop :=
  ∀ i : Instr, i.wellFormed = true →
    (∀ w, encode i = .long w →
      decodeSlot .first w = .ok i ∧ decodeSlot .second w = .error .insideLongInstruction) ∧
    (∀ h, encode i = .short h → ∀ other : Half, other.getLsbD 15 = false →
      decodeSlot .first (pairWord Params.pairOrder h other) = .ok i ∧
      decodeSlot .second (pairWord Params.pairOrder other h) = .ok i)

/-- 30_encoding.md R104, R106: every halfword with bit 15 clear is one short instruction, whose encoding it is;
with bit 15 set it is illegal. That bit 15 set is illegal is the spec's decision D25. -/
def Obligations.EveryHalfwordIsAnInstructionOrIllegal : Prop :=
  ∀ h : Half,
    (h.getLsbD 15 = true → decodeShort h = .error .illegalHalfword) ∧
    (h.getLsbD 15 = false → ∃ i, decodeShort h = .ok i ∧ i.isShort = true ∧ i.wellFormed = true ∧ encode i = .short h)

/-- 30_encoding.md R104, R105, R106: every word with bit 31 set is one long instruction, whose encoding is the
word with its "Unused?.." bits cleared: bits 16..4 under `1011`, bits 20..4 for `MVHI` and `MVLO`. R100, R101: where
the two Misc formats put their fields, whatever those bits are. That unused bits are ignored is the spec's decision
D26 (log entry 28). -/
def Obligations.EveryLongWordIsAnInstruction : Prop :=
  ∀ w : Word,
    (w.getLsbD 31 = true → ∃ i, decodeLong w = .ok i ∧ i.isShort = false ∧ i.wellFormed = true ∧
      encode i = .long (
        if w.extractLsb' 26 6 = 0b101111#6 then w &&& 0xFFE0000F
        else if w.extractLsb' 28 4 = 0b1011#4 then w &&& 0xFFFE000F
        else w)) ∧
    (∀ op ∈ ([(0b1011000#7, Instr.mltu), (0b1011001#7, .mlts), (0b1011010#7, .divu), (0b1011011#7, .divs),
        (0b1011100#7, .mvsu), (0b1011101#7, .mvus)] : List (BitVec 7 × (Reg → Reg → Specifier → Instr))),
      w.extractLsb' 25 7 = op.1 → decodeLong w = .ok (op.2 (Reg.ofBits (w.extractLsb' 21 4))
        (Reg.ofBits (w.extractLsb' 17 4)) (Specifier.ofBits (w.extractLsb' 0 4)))) ∧
    (∀ op ∈ ([(0b1011110#7, Instr.mvhi), (0b1011111#7, .mvlo)] : List (BitVec 7 × (Reg → Specifier → Instr))),
      w.extractLsb' 25 7 = op.1 → decodeLong w = .ok (op.2 (Reg.ofBits (w.extractLsb' 21 4))
        (Specifier.ofBits (w.extractLsb' 0 4))))

/-- 30_encoding.md R104, all 34 rows: a word of 32 bits with bit 31 set, or a halfword with bit 15 clear,
decodes to the row's instruction exactly if its masked bits are the row's match, `NOP` tested first among the
short rows; and the rows tile both spaces. -/
def Obligations.RowsSelectTheirInstruction : Prop :=
  (∀ w : Word, w.getLsbD 31 = true → ∀ row ∈ longRows,
    (w &&& row.2.2 = row.2.1 ↔ ∃ i, decodeLong w = .ok i ∧ mnemonicOf i = row.1)) ∧
  (∀ w : Word, w.getLsbD 31 = true → ∃ row ∈ longRows, w &&& row.2.2 = row.2.1 ∧
    ∀ other ∈ longRows, w &&& other.2.2 = other.2.1 → other = row) ∧
  (∀ h : Half, (h &&& 0xFFFF = 0x0000 ↔ decodeShort h = .ok .nop)) ∧
  (∀ h : Half, h &&& 0xFFFF ≠ 0x0000 → ∀ row ∈ shortRows,
    (h &&& row.2.2 = row.2.1 ↔ ∃ i, decodeShort h = .ok i ∧ mnemonicOf i = row.1)) ∧
  (∀ h : Half, h.getLsbD 15 = false → ∃ row ∈ shortRows, h &&& row.2.2 = row.2.1 ∧
    ∀ other ∈ shortRows, h &&& other.2.2 = other.2.1 → other = row)

/-- 30_encoding.md R95, R96: where the two short formats put their fields. `NOP` is the one halfword that is read as
a whole (R158). -/
def Obligations.ShortFormatsPlaceTheirFields : Prop :=
  ∀ h : Half, h ≠ 0 →
    (h.extractLsb' 12 4 = 0b0111#4 → decodeShort h = .ok (.cnd (Specifier.ofBits (h.extractLsb' 8 4))
      (Specifier.ofBits (h.extractLsb' 4 4)) (Specifier.ofBits (h.extractLsb' 0 4)))) ∧
    ∀ op ∈ ([(0b0000#4, Instr.add), (0b0001#4, .sub), (0b0010#4, .lsh), (0b0011#4, .ash), (0b0100#4, .and),
        (0b0101#4, .or), (0b0110#4, .xor)] : List (BitVec 4 × (Reg → Reg → Reg → Instr))),
      h.extractLsb' 12 4 = op.1 → decodeShort h = .ok (op.2 (Reg.ofBits (h.extractLsb' 8 4))
        (Reg.ofBits (h.extractLsb' 4 4)) (Reg.ofBits (h.extractLsb' 0 4)))

/-- 30_encoding.md R97, R98, R99: where the Immediate, the Load/store and the `LDI` format put their fields. -/
def Obligations.LongFormatsPlaceTheirFields : Prop :=
  ∀ w : Word,
    (∀ op ∈ ([(0b100000#6, Instr.addi), (0b100001#6, .subi), (0b100010#6, .lshi), (0b100011#6, .ashi),
        (0b100100#6, .andi), (0b100101#6, .ori), (0b100110#6, .xori), (0b100111#6, .ldh)] :
        List (BitVec 6 × (Reg → Reg → BitVec 14 → Specifier → Instr))),
      w.extractLsb' 26 6 = op.1 → decodeLong w = .ok (op.2 (Reg.ofBits (w.extractLsb' 22 4))
        (Reg.ofBits (w.extractLsb' 18 4)) (w.extractLsb' 4 14) (Specifier.ofBits (w.extractLsb' 0 4)))) ∧
    (∀ op ∈ ([(0b11000#5, Instr.lw), (0b11001#5, .sw), (0b11010#5, .sh), (0b11011#5, .sb), (0b11100#5, .lhu),
        (0b11101#5, .lhs), (0b11110#5, .lbu), (0b11111#5, .lbs)] :
        List (BitVec 5 × (Reg → Reg → BitVec 15 → Specifier → Instr))),
      w.extractLsb' 27 5 = op.1 → decodeLong w = .ok (op.2 (Reg.ofBits (w.extractLsb' 23 4))
        (Reg.ofBits (w.extractLsb' 19 4)) (w.extractLsb' 4 15) (Specifier.ofBits (w.extractLsb' 0 4)))) ∧
    (w.extractLsb' 28 4 = 0b1010#4 → decodeLong w = .ok (.ldi (Reg.ofBits (w.extractLsb' 24 4))
      (w.extractLsb' 4 20) (Specifier.ofBits (w.extractLsb' 0 4))))

/-- 30_encoding.md R91: the leading bits form a prefix code: a short instruction has bit 15 clear; an immediate
instruction begins `100`, `LDI` `1010`, the other Misc instructions `1011`, a load or store `11`; every 32-bit
instruction has bit 31 set. -/
def Obligations.LeadingBitsTellTheFormat : Prop :=
  ∀ i : Instr,
    (i.isShort = true → ∃ h, encode i = .short h ∧ h.getLsbD 15 = false) ∧
    (i.isShort = false → ∃ w, encode i = .long w ∧ w.getLsbD 31 = true ∧
      (mnemonicOf i ∈ ["ADDI", "SUBI", "LSHI", "ASHI", "ANDI", "ORI", "XORI", "LDH"] →
        w.extractLsb' 29 3 = 0b100#3) ∧
      (mnemonicOf i = "LDI" → w.extractLsb' 28 4 = 0b1010#4) ∧
      (mnemonicOf i ∈ ["MLTU", "MLTS", "DIVU", "DIVS", "MVSU", "MVUS", "MVHI", "MVLO"] →
        w.extractLsb' 28 4 = 0b1011#4) ∧
      (mnemonicOf i ∈ ["LW", "SW", "SH", "SB", "LHU", "LHS", "LBU", "LBS"] → w.extractLsb' 30 2 = 0b11#2))

/-- A few words of 95_test_vectors.md and the instructions they stand for, one of each format. That the last one
is illegal is the spec's decision D25. -/
def Obligations.WrittenWordsDecode : Prop :=
  decodeTableWord 16 0x0000 = some .nop ∧
  decodeTableWord 16 0x0123 = some (.add .r1 .r2 .r3) ∧
  decodeTableWord 16 0x7CD0 = some (.cnd ⟨true, .ifLT⟩ ⟨true, .ifGE⟩ Specifier.none) ∧
  decodeTableWord 32 0x83FFFF4B = some (.addi .pc .pc (-12) ⟨true, .ifNZ⟩) ∧
  decodeTableWord 32 0xA1FFFF90 = some (.ldi .r1 (-7) Specifier.none) ∧
  decodeTableWord 32 0xB8B60000 = some (.mvsu .r5 .sr Specifier.none) ∧
  decodeTableWord 32 0xBC600000 = some (.mvhi .r3 Specifier.none) ∧
  decodeTableWord 32 0xC1680080 = some (.lw .r2 .fp 8 Specifier.none) ∧
  decodeTableWord 16 0x8123 = none

/-! ## Conditions and the queue -/

/-- 40_conditions_and_cnd.md R131: the eight codes and what each tests. -/
def Obligations.ConditionTable : Prop :=
  ∀ f : StatusFlags,
    condHolds (Cond.ofBits 0b000) f = true ∧
    condHolds (Cond.ofBits 0b001) f = f.v ∧
    condHolds (Cond.ofBits 0b010) f = f.z ∧
    condHolds (Cond.ofBits 0b011) f = !f.z ∧
    condHolds (Cond.ofBits 0b100) f = f.n ∧
    condHolds (Cond.ofBits 0b101) f = !f.n ∧
    condHolds (Cond.ofBits 0b110) f = f.c ∧
    condHolds (Cond.ofBits 0b111) f = !f.c

/-- 40_conditions_and_cnd.md R133: an instruction whose condition does not hold is not executed. The step
advances `pc` to `npc`, takes the queue entry and counts in the division window; no register, flag, memory byte
or output changes and nothing faults. For all 34 instructions. The spec's decisions D43, D10 and D33. -/
def Obligations.FailedConditionDoesNothing : Prop :=
  ∀ (irq : Config.Irq) (s : State) (i : Instr) (u : State), s.fetch irq = .run i u → ¬ u.passes i →
    exec i u = .next { u with cndq := u.cndq.tail } ∧
    ∃ t, stepUnder irq s = .next t ∧
      t.reg s.cur .pc = u.read .pc ∧ SameRegistersBut s.cur .pc s t ∧ SameFlags s t ∧ QueueConsumed s t ∧
      SameControl s t ∧ SameMemory s t ∧
      (s.div = none → t.div = none ∧ SameHiLo s t) ∧
      (∀ w, s.div = some w → 2 ≤ w.n → t.div = some { w with n := w.n - 1 } ∧ SameHiLo s t) ∧
      (∀ w, s.div = some w → w.n = 1 → t.div = none ∧ t.lo = w.q ∧ t.hi = w.r)

/-- 40_conditions_and_cnd.md R138, R139, R140: every instruction that gives a next state has removed the head
entry of the queue, whatever its length and whether or not its condition held; only an executed `CND` fills the
queue and only a change of mode empties it. The spec's decision D10 (log entry 32). -/
def Obligations.QueueLosesOneEntryPerInstruction : Prop :=
  ∀ (i : Instr) (s t : State), exec i s = .next t →
    (∀ c1 c2 c3, i = .cnd c1 c2 c3 → s.passes i → t.cndq = [c1, c2, c3]) ∧
    (t.cur ≠ s.cur → t.cndq = []) ∧
    ((∀ c1 c2 c3, i ≠ .cnd c1 c2 c3) ∨ ¬ s.passes i → t.cur = s.cur → t.cndq = s.cndq.tail)

/-- 40_conditions_and_cnd.md R136: `CND` replaces whatever the queue held and does nothing else; its halfword is
`0111 c1 c2 c3`, for `CND ?LT*, ?GE*, -` `0x7CD0`. That a `CND` inside a window also takes its entry and then
replaces the queue is R140, the spec's decision D10 (log entry 32). -/
def Obligations.CndFillsTheQueue : Prop :=
  encode (.cnd ⟨true, .ifLT⟩ ⟨true, .ifGE⟩ Specifier.none) = .short 0x7CD0 ∧
  ∀ (s : State) (c1 c2 c3 : Specifier),
    encode (.cnd c1 c2 c3) = .short (0b0111#4 ++ c1.bits ++ c2.bits ++ c3.bits) ∧
    (s.passes (.cnd c1 c2 c3) → exec (.cnd c1 c2 c3) s = .next { s with cndq := [c1, c2, c3] })

/-- 41_short_alu.md R158: `NOP` is the halfword `0x0000` and no other; it takes its queue entry and does nothing
else, whatever its specifier; it counts in a division window; in the second slot it is skipped. Which halfword
is the second slot is a choice (D6, log entry 19); what counts is the spec's decisions D10 and D33. -/
def Obligations.NopDoesNothing : Prop :=
  encode .nop = .short 0x0000 ∧
  (∀ h : Half, decodeShort h = .ok .nop ↔ h = 0x0000) ∧
  (∀ s : State, exec .nop s = .next { s with cndq := s.cndq.tail }) ∧
  (∀ (irq : Config.Irq) (s u : State) (w : DivWindow), s.fetch irq = .run .nop u → s.div = some w → 2 ≤ w.n →
    ∃ t, stepUnder irq s = .next t ∧ t.div = some { w with n := w.n - 1 }) ∧
  (∀ (irq : Config.Irq) (s : State) (i : Instr), s.fetches irq → s.pc.getLsbD 1 = false →
    s.fetchWord.1.getLsbD 31 = false →
    s.fetchWord.1.extractLsb' 16 16 = 0x0000 → decodeSlot .first s.fetchWord.1 = .ok i →
    ∃ u, s.fetch irq = .run i u ∧ u.pc = s.pc + 4)

/-! ## The ALU instructions -/

/-- 41_short_alu.md R151, R152, R159, 42_immediate.md R181, R182: `ADD`, `SUB`, `ADDI`, `SUBI` with any
destination but `SR`. `C` is the carry or the borrow (`SUB_CARRY` = borrow), `V` says that the exact signed
result does not fit 32 bits. `C` and `V` are the spec's general knowledge G2, the borrow its default (D13, log
entry 20). -/
def Obligations.AddAndSubtract : Prop :=
  ∀ (s : State) (d : Reg), d ≠ .sr →
    (∀ s1 s2, s.passes (.add d s1 s2) →
      ∃ t, exec (.add d s1 s2) s = .next t ∧
        AluDone s t d (s.freezes (.add d s1 s2)) (s.read s1 + s.read s2)
          (some (decide (2 ^ 32 ≤ (s.read s1).toNat + (s.read s2).toNat),
            decide ((s.read s1).toInt + (s.read s2).toInt < -2 ^ 31 ∨
              2 ^ 31 ≤ (s.read s1).toInt + (s.read s2).toInt)))) ∧
    (∀ s1 s2, s.passes (.sub d s1 s2) →
      ∃ t, exec (.sub d s1 s2) s = .next t ∧
        AluDone s t d (s.freezes (.sub d s1 s2)) (s.read s1 - s.read s2)
          (some (decide ((s.read s1).toNat < (s.read s2).toNat),
            decide ((s.read s1).toInt - (s.read s2).toInt < -2 ^ 31 ∨
              2 ^ 31 ≤ (s.read s1).toInt - (s.read s2).toInt)))) ∧
    (∀ r (i : BitVec 14) c, s.passes (.addi d r i c) →
      ∃ t, exec (.addi d r i c) s = .next t ∧
        AluDone s t d c.freeze (s.read r + i.signExtend 32)
          (some (decide (2 ^ 32 ≤ (s.read r).toNat + (i.signExtend 32 : Word).toNat),
            decide ((s.read r).toInt + i.toInt < -2 ^ 31 ∨ 2 ^ 31 ≤ (s.read r).toInt + i.toInt)))) ∧
    (∀ r (i : BitVec 14) c, s.passes (.subi d r i c) →
      ∃ t, exec (.subi d r i c) s = .next t ∧
        AluDone s t d c.freeze (s.read r - i.signExtend 32)
          (some (decide ((s.read r).toNat < (i.signExtend 32 : Word).toNat),
            decide ((s.read r).toInt - i.toInt < -2 ^ 31 ∨ 2 ^ 31 ≤ (s.read r).toInt - i.toInt))))

/-- 41_short_alu.md R153, R154, R160, 42_immediate.md R183, R184: `LSH`, `ASH`, `LSHI`, `ASHI` with any
destination but `SR`, for every amount `n`: to the left multiply by `2^n`, to the right divide by `2^-n`,
unsigned for a logical and signed (rounding down) for an arithmetic shift. Magnitudes of 32 and more are the
spec's default `SHIFT_LARGE` = mathematical (D15). `C` and `V` are `any`. Log entries 21 and 6. -/
def Obligations.Shifts : Prop :=
  ∀ (s : State) (d : Reg), d ≠ .sr →
    (∀ s1 s2, s.passes (.lsh d s1 s2) →
      ∃ t r, exec (.lsh d s1 s2) s = .next t ∧ AluDone s t d (s.freezes (.lsh d s1 s2)) r none ∧
        (0 ≤ (s.read s2).toInt → r.toNat = (s.read s1).toNat * 2 ^ (s.read s2).toInt.toNat % 2 ^ 32) ∧
        ((s.read s2).toInt < 0 → r.toNat = (s.read s1).toNat / 2 ^ (-(s.read s2).toInt).toNat)) ∧
    (∀ s1 s2, s.passes (.ash d s1 s2) →
      ∃ t r, exec (.ash d s1 s2) s = .next t ∧ AluDone s t d (s.freezes (.ash d s1 s2)) r none ∧
        (0 ≤ (s.read s2).toInt → r.toNat = (s.read s1).toNat * 2 ^ (s.read s2).toInt.toNat % 2 ^ 32) ∧
        ((s.read s2).toInt < 0 → r.toInt = (s.read s1).toInt / 2 ^ (-(s.read s2).toInt).toNat)) ∧
    (∀ a (i : BitVec 14) c, s.passes (.lshi d a i c) →
      ∃ t r, exec (.lshi d a i c) s = .next t ∧ AluDone s t d c.freeze r none ∧
        (0 ≤ i.toInt → r.toNat = (s.read a).toNat * 2 ^ i.toInt.toNat % 2 ^ 32) ∧
        (i.toInt < 0 → r.toNat = (s.read a).toNat / 2 ^ (-i.toInt).toNat)) ∧
    (∀ a (i : BitVec 14) c, s.passes (.ashi d a i c) →
      ∃ t r, exec (.ashi d a i c) s = .next t ∧ AluDone s t d c.freeze r none ∧
        (0 ≤ i.toInt → r.toNat = (s.read a).toNat * 2 ^ i.toInt.toNat % 2 ^ 32) ∧
        (i.toInt < 0 → r.toInt = (s.read a).toInt / 2 ^ (-i.toInt).toNat))

/-- 41_short_alu.md R155, R156, R157, R161, 42_immediate.md R185, R186, R187: `AND`, `OR`, `XOR`, `ANDI`, `ORI`,
`XORI` with any destination but `SR`, bit by bit; `C` and `V` are `any`. That is the spec's decision D14 (log
entry 6). -/
def Obligations.BitwiseLogic : Prop :=
  ∀ (s : State) (d : Reg), d ≠ .sr →
    (∀ s1 s2, s.passes (.and d s1 s2) →
      ∃ t r, exec (.and d s1 s2) s = .next t ∧ AluDone s t d (s.freezes (.and d s1 s2)) r none ∧
        ∀ k, r.getLsbD k = ((s.read s1).getLsbD k && (s.read s2).getLsbD k)) ∧
    (∀ s1 s2, s.passes (.or d s1 s2) →
      ∃ t r, exec (.or d s1 s2) s = .next t ∧ AluDone s t d (s.freezes (.or d s1 s2)) r none ∧
        ∀ k, r.getLsbD k = ((s.read s1).getLsbD k || (s.read s2).getLsbD k)) ∧
    (∀ s1 s2, s.passes (.xor d s1 s2) →
      ∃ t r, exec (.xor d s1 s2) s = .next t ∧ AluDone s t d (s.freezes (.xor d s1 s2)) r none ∧
        ∀ k, r.getLsbD k = ((s.read s1).getLsbD k ^^ (s.read s2).getLsbD k)) ∧
    (∀ a (i : BitVec 14) c, s.passes (.andi d a i c) →
      ∃ t r, exec (.andi d a i c) s = .next t ∧ AluDone s t d c.freeze r none ∧
        ∀ k, r.getLsbD k = ((s.read a).getLsbD k && (i.signExtend 32 : Word).getLsbD k)) ∧
    (∀ a (i : BitVec 14) c, s.passes (.ori d a i c) →
      ∃ t r, exec (.ori d a i c) s = .next t ∧ AluDone s t d c.freeze r none ∧
        ∀ k, r.getLsbD k = ((s.read a).getLsbD k || (i.signExtend 32 : Word).getLsbD k)) ∧
    (∀ a (i : BitVec 14) c, s.passes (.xori d a i c) →
      ∃ t r, exec (.xori d a i c) s = .next t ∧ AluDone s t d c.freeze r none ∧
        ∀ k, r.getLsbD k = ((s.read a).getLsbD k ^^ (i.signExtend 32 : Word).getLsbD k))

/-- 10_state.md R35, 40_conditions_and_cnd.md R134, R135: one of the fourteen ALU instructions with destination
`SR` and a result with `WFI` and `STEP` clear writes the `SR` of the current mode and may switch mode. Frozen,
the condition flags are the result's bits; not frozen, they are `any` and nothing is said of them. The spec's
decisions D4, D16 and D17; log entries 7, 14 and, for the places of the flags, 18. -/
def Obligations.AluWriteOfSr : Prop :=
  ∀ (s : State) (i : Instr) (out : AluOut), s.aluResult i = some (.sr, out) → s.passes i →
    out.r.getLsbD 7 = false → out.r.getLsbD 8 = false →
    ∃ t, exec i s = .next t ∧ SrDone s t out.r ∧ (s.freezes i = true → ConditionFlagsFrom s t out.r)

/-! ## Moves -/

/-- 42_immediate.md R188, 44_misc.md R231, R238, R240, R241: `LDH`, `LDI`, `MVHI`, `MVLO` and `MVSU` into any
register but `SR` write that register and nothing else; into `PC` it is a jump (R260). That they touch no flag
is the spec's decision D12. -/
def Obligations.MovesIntoRegisters : Prop :=
  ∀ (s : State) (i : Instr) (d : Reg) (v : Word), s.moveResult i = some (d, v) → d ≠ .sr → s.passes i →
    ∃ t, exec i s = .next t ∧ MoveDone s t d v

/-- 10_state.md R35: the same five moves into `SR`, of a value with `WFI` and `STEP` clear, write the `SR` of
the current mode and may switch mode. The spec's decisions D4 and D17; the places of the flags are log entry 18. -/
def Obligations.MovesIntoSr : Prop :=
  ∀ (s : State) (i : Instr) (v : Word), s.moveResult i = some (.sr, v) → s.passes i →
    v.getLsbD 7 = false → v.getLsbD 8 = false →
    ∃ t, exec i s = .next t ∧ SrDone s t v ∧ ConditionFlagsFrom s t v

/-- 10_state.md R35, R295: a write of `SR` that would set `WFI` or `STEP` is refused, by whichever of the ALU
instructions, the five moves and the five loads from RAM or ROM it comes, and by `MVUS` to `uSR`. The spec's
decision D28 (log entries 18, 24 and 30); values that are `any` are in UnspecifiedHiLoCanBeRead and
LoadsFromPortsAndUnmapped. -/
def Obligations.SettingWfiOrStepIsRefused : Prop :=
  ∀ (s : State) (i : Instr) (v : Word), s.passes i → (v.getLsbD 7 = true ∨ v.getLsbD 8 = true) →
    ((∃ out, s.aluResult i = some (.sr, out) ∧ out.r = v) ∨ s.moveResult i = some (.sr, v) ∨
      (s.cur = .supervisor ∧ ∃ r c, i = .mvus .sr r c ∧ s.read r = v) ∨
      (∃ a imm n f, accessOf i = some (a, imm, n) ∧ loadOf i = some (.sr, f) ∧
        (s.effectiveAddress a imm).toNat % n = 0 ∧ 0 < (s.effectiveAddress a imm).toNat ∧
        (s.effectiveAddress a imm).toNat < 0xF0000000 ∧ f (s.bytesFrom (s.effectiveAddress a imm)) = v)) →
    exec i s = .refused .wfiOrStepSet

/-- 44_misc.md R242: while `HI` and `LO` are unspecified `MVHI` and `MVLO` run, and put some value in the
register, nothing else. Into `SR` some value is written as R35 says: refused if it sets `WFI` or `STEP`, else
`SrDone`. That the read runs is the model's choice where R242 also allows a stop (log entry 8); the spec's
decisions D28 and D4 (log entry 18). -/
def Obligations.UnspecifiedHiLoCanBeRead : Prop :=
  ∀ (s : State) (d : Reg) (c : Specifier) (i : Instr), s.hiLoOpen = true → i = .mvhi d c ∨ i = .mvlo d c →
    s.passes i →
    (d ≠ .sr → ∃ t v, exec i s = .next t ∧ MoveDone s t d v) ∧
    (d = .sr → ∃ v : Word,
      ((v.getLsbD 7 = true ∨ v.getLsbD 8 = true) ∧ exec i s = .refused .wfiOrStepSet) ∨
      (v.getLsbD 7 = false ∧ v.getLsbD 8 = false ∧
        ∃ t, exec i s = .next t ∧ SrDone s t v ∧ ConditionFlagsFrom s t v))

/-- 44_misc.md R239: in supervisor mode `MVUS` writes a user register and nothing else: `R0` discards, `uPC` is
no transfer, `uSR` takes the stored flags and ignores the `M` bit. The spec's decisions D4 and D17; the places
of the flags are log entry 18. -/
def Obligations.MoveToUserRegister : Prop :=
  ∀ (s : State) (d r : Reg) (c : Specifier), s.cur = .supervisor → s.passes (.mvus d r c) →
    (d ≠ .sr → ∃ t, exec (.mvus d r c) s = .next t ∧
      t.reg .user d = (if d = .r0 then 0 else s.read r) ∧ SameRegistersBut .user d s t ∧ SameFlags s t ∧
      QueueConsumed s t ∧ SameHiLo s t ∧ t.div = s.div ∧ SameControl s t ∧ SameMemory s t) ∧
    (d = .sr → (s.read r).getLsbD 7 = false → (s.read r).getLsbD 8 = false →
      ∃ t, exec (.mvus d r c) s = .next t ∧
        t.flagsOf .user = { z := (s.read r).getLsbD 0, c := (s.read r).getLsbD 1, n := (s.read r).getLsbD 2,
                            v := (s.read r).getLsbD 3, zd := (s.read r).getLsbD 5, il := (s.read r).getLsbD 6,
                            wfi := false, step := false, hwi := (s.read r).getLsbD 9,
                            nul := (s.read r).getLsbD 10 } ∧
        t.flagsOf .supervisor = s.flagsOf .supervisor ∧ SameRegisters s t ∧ QueueConsumed s t ∧
        SameHiLo s t ∧ t.div = s.div ∧ SameControl s t ∧ SameMemory s t)

/-- 44_misc.md R238, R239, 60_exceptions.md R296: in user mode `MVSU` and `MVUS` raise `IllegalOpcode` and move
nothing. The spec's decisions D24 and D22; `FAULT_PC` is either value (log entries 11 and 27). -/
def Obligations.CrossMovesAreIllegalInUserMode : Prop :=
  ∀ (s : State) (d r : Reg) (c : Specifier), s.cur = .user →
    (s.passes (.mvsu d r c) → ∃ t, exec (.mvsu d r c) s = .next t ∧
      FaultTaken s t .illegalOpcode (faultResume (s.pc - 4) s.pc) s.cndq.tail ∧ SameHiLo s t) ∧
    (s.passes (.mvus d r c) → ∃ t, exec (.mvus d r c) s = .next t ∧
      FaultTaken s t .illegalOpcode (faultResume (s.pc - 4) s.pc) s.cndq.tail ∧ SameHiLo s t)

/-- 10_state.md R34: what reading `SR` gives: the stored flags and the mode at their bits, every other bit 0.
The places are the default `SR_LAYOUT` (D2, log entry 18), the `M` bit the spec's decision D4. -/
def Obligations.SrReadsItsFlags : Prop :=
  ∀ (s : State) (m : Mode) (k : Nat), k < 32 →
    (s.reg m .sr).getLsbD k =
      (([(s.flagsOf m).z, (s.flagsOf m).c, (s.flagsOf m).n, (s.flagsOf m).v, decide (m = .user),
         (s.flagsOf m).zd, (s.flagsOf m).il, (s.flagsOf m).wfi, (s.flagsOf m).step, (s.flagsOf m).hwi,
         (s.flagsOf m).nul] : List Bool)[k]?).getD false

/-! ## Loads and stores -/

/-- 43_load_store.md R201, R205 to R208: the five loads from an aligned address that holds RAM or ROM, into any
register but `SR`: the bytes there, extended; nothing else changes. Which addresses hold memory is the default
`MEMMAP` (log entry 24). The effective address is `x[A] + sext_15(I)` (R69; its sign is the spec's decision
D18). -/
def Obligations.LoadsFromMemory : Prop :=
  ∀ (s : State) (i : Instr) (a d : Reg) (imm : BitVec 15) (n : Nat) (f : Word → Word),
    accessOf i = some (a, imm, n) → loadOf i = some (d, f) → d ≠ .sr → s.passes i →
    (s.effectiveAddress a imm).toNat % n = 0 → 0 < (s.effectiveAddress a imm).toNat →
    (s.effectiveAddress a imm).toNat < 0xF0000000 →
    s.effectiveAddress a imm = s.read a + imm.signExtend 32 ∧
    ∃ t, exec i s = .next t ∧ MoveDone s t d (f (s.bytesFrom (s.effectiveAddress a imm)))

/-- 10_state.md R35: the same loads into `SR`, of a value with `WFI` and `STEP` clear. Default `MEMMAP` and
`SR_LAYOUT` (log entries 24 and 18). The effective address is `x[A] + sext_15(I)` (R69; its sign is the spec's
decision D18). -/
def Obligations.LoadsIntoSr : Prop :=
  ∀ (s : State) (i : Instr) (a : Reg) (imm : BitVec 15) (n : Nat) (f : Word → Word) (v : Word),
    accessOf i = some (a, imm, n) → loadOf i = some (.sr, f) → s.passes i →
    (s.effectiveAddress a imm).toNat % n = 0 → 0 < (s.effectiveAddress a imm).toNat →
    (s.effectiveAddress a imm).toNat < 0xF0000000 → v = f (s.bytesFrom (s.effectiveAddress a imm)) →
    v.getLsbD 7 = false → v.getLsbD 8 = false →
    s.effectiveAddress a imm = s.read a + imm.signExtend 32 ∧
    ∃ t, exec i s = .next t ∧ SrDone s t v ∧ ConditionFlagsFrom s t v

/-- 20_memory.md R69, R72, R76: an aligned load from a port or from an address mapped to nothing runs, and puts
some value, extended as the load says, in the register, nothing else. Into `SR` it is written as R35 says:
refused if it sets `WFI` or `STEP`, else `SrDone`. The spec's decisions D18, D28, D36 and D42; default `MEMMAP`
(log entries 9, 18 and 24). -/
def Obligations.LoadsFromPortsAndUnmapped : Prop :=
  ∀ (s : State) (i : Instr) (a d : Reg) (imm : BitVec 15) (n : Nat) (f : Word → Word),
    accessOf i = some (a, imm, n) → loadOf i = some (d, f) → s.passes i →
    (s.effectiveAddress a imm).toNat % n = 0 → 0xF0000000 ≤ (s.effectiveAddress a imm).toNat →
    s.effectiveAddress a imm = s.read a + imm.signExtend 32 ∧
    (d ≠ .sr → ∃ t v, exec i s = .next t ∧ MoveDone s t d (f v)) ∧
    (d = .sr → ∃ v : Word,
      (((f v).getLsbD 7 = true ∨ (f v).getLsbD 8 = true) ∧ exec i s = .refused .wfiOrStepSet) ∨
      ((f v).getLsbD 7 = false ∧ (f v).getLsbD 8 = false ∧
        ∃ t, exec i s = .next t ∧ SrDone s t (f v) ∧ ConditionFlagsFrom s t (f v)))

/-- 43_load_store.md R202, R203, R204, 20_memory.md R62: the three stores to an aligned address of RAM: the low
bytes of the register, least significant first; no other byte, no register, no flag changes. Default `MEMMAP`
(log entry 24); that the low bytes are stored is the spec's decision D20. The effective address is `x[A] +
sext_15(I)` (R69; its sign is the spec's decision D18). -/
def Obligations.StoresToRam : Prop :=
  ∀ (s : State) (i : Instr) (a d : Reg) (imm : BitVec 15) (n : Nat),
    accessOf i = some (a, imm, n) → storeOf i = some d → s.passes i →
    (s.effectiveAddress a imm).toNat % n = 0 → 0x10000 ≤ (s.effectiveAddress a imm).toNat →
    (s.effectiveAddress a imm).toNat < 0xF0000000 →
    s.effectiveAddress a imm = s.read a + imm.signExtend 32 ∧
    ∃ t, exec i s = .next t ∧
      (∀ k, k < n → Memory.lookup t.mem (s.effectiveAddress a imm + BitVec.ofNat 32 k).toNat =
        some ((s.read d).extractLsb' (8 * k) 8)) ∧
      SameMemoryOutside (s.effectiveAddress a imm) n s t ∧ StoreFrame s t ∧ t.outputs = s.outputs

/-- 20_memory.md R74, R75: `SB` to one of the three ports is one more output event, the low byte of the
register; no memory, register or flag changes. The port does nothing else by the spec's decisions D36 and D42
(log entry 25). The effective address is `x[A] + sext_15(I)` (R69; its sign is the spec's decision D18). -/
def Obligations.ByteStoreToPort : Prop :=
  ∀ (s : State) (a d : Reg) (imm : BitVec 15) (c : Specifier) (p : Config.Port), s.passes (.sb d a imm c) →
    ((s.effectiveAddress a imm = 0xFFFFFFFF ∧ p = .lcdCtrl) ∨ (s.effectiveAddress a imm = 0xFFFFFFFE ∧ p = .lcdData) ∨
      (s.effectiveAddress a imm = 0xFFFFFFFD ∧ p = .cpuSpeed)) →
    s.effectiveAddress a imm = s.read a + imm.signExtend 32 ∧
    ∃ t, exec (.sb d a imm c) s = .next t ∧
      t.outputs = s.outputs ++ [⟨p, (s.read d).extractLsb' 0 8⟩] ∧ SameMemory s t ∧ StoreFrame s t

/-- 20_memory.md R62, R72, R75: an aligned store to ROM is refused, a store of two or four bytes that reaches a
port is refused, any other store beyond RAM is refused. The spec's decisions D36 and D42; the names of the stops
are the model's (log entry 17). The effective address is `x[A] + sext_15(I)` (R69; its sign is the spec's
decision D18). -/
def Obligations.StoresThatStop : Prop :=
  ∀ (s : State) (i : Instr) (a d : Reg) (imm : BitVec 15) (n : Nat),
    accessOf i = some (a, imm, n) → storeOf i = some d → s.passes i →
    (s.effectiveAddress a imm).toNat % n = 0 → 0 < (s.effectiveAddress a imm).toNat →
    s.effectiveAddress a imm = s.read a + imm.signExtend 32 ∧
    ((s.effectiveAddress a imm).toNat < 0x10000 → exec i s = .refused .storeToRom) ∧
    (2 ≤ n → 0xFFFFFFFD < (s.effectiveAddress a imm).toNat + n → exec i s = .refused .wideStoreOverPort) ∧
    (0xF0000000 ≤ (s.effectiveAddress a imm).toNat → (s.effectiveAddress a imm).toNat + n ≤ 0xFFFFFFFD →
      exec i s = .refused .storeToNothing)

/-- 20_memory.md R71, 43_load_store.md R200: each of the eight loads and stores at effective address 0 raises
`NullReference`: in user mode the flag and the switch to supervisor mode, in supervisor mode the halt. No
register and no memory is written. The spec's decisions D21 and D23; `FAULT_PC` is either value (log entries 11
and 27). The effective address is `x[A] + sext_15(I)` (R69; its sign is the spec's decision D18). -/
def Obligations.NullReferenceFaults : Prop :=
  ∀ (s : State) (i : Instr) (a : Reg) (imm : BitVec 15) (n : Nat),
    accessOf i = some (a, imm, n) → s.passes i → s.effectiveAddress a imm = 0 →
    s.effectiveAddress a imm = s.read a + imm.signExtend 32 ∧
    ∃ t, exec i s = .next t ∧
      FaultTaken s t .nullReference (faultResume (s.pc - 4) s.pc) s.cndq.tail ∧ SameHiLo s t

/-- 20_memory.md R65: with `MISALIGNED` = refuse, exactly the executed loads and stores of 4 bytes off a
multiple of 4 and of 2 bytes off a multiple of 2 are refused as misaligned; one byte never is. The spec's
decision D19 (log entry 16). The effective address is `x[A] + sext_15(I)` (R69; its sign is the spec's decision
D18). -/
def Obligations.MisalignedAccessIsRefused : Prop :=
  ∀ (s : State) (i : Instr) (a : Reg) (imm : BitVec 15) (n : Nat), accessOf i = some (a, imm, n) →
    s.effectiveAddress a imm = s.read a + imm.signExtend 32 ∧
    (exec i s = .refused .misaligned ↔ s.passes i ∧ (s.effectiveAddress a imm).toNat % n ≠ 0)

/-- 20_memory.md R64, R61, R62: after a word is written to memory, the word, its two halfwords and its four
bytes read back from the addresses they stand at. The addresses are RAM by the default `MEMMAP` (log entry 24). -/
def Obligations.NarrowReadsSeeTheWordWritten : Prop :=
  ∀ (s t : State) (ea v : Word), 0x10000 ≤ ea.toNat → ea.toNat + 4 ≤ 0xF0000000 →
    t = { s with mem := Memory.write s.mem ea v 4 } →
    (t.readBytes ea 4).1 = v ∧
    (∀ k, k ≤ 2 → (t.readBytes (ea + BitVec.ofNat 32 k) 2).1 = (v.extractLsb' (8 * k) 16).setWidth 32) ∧
    (∀ k, k ≤ 3 → (t.readBytes (ea + BitVec.ofNat 32 k) 1).1 = (v.extractLsb' (8 * k) 8).setWidth 32)

/-! ## Multiplication and division -/

/-- 44_misc.md R233, R234: `MLTU` and `MLTS`, but as the 11th instruction after a divide, leave the exact 64-bit
product in `HI` and `LO`, and change nothing else. That the product is there at once is the spec's decision D34,
the one exception D33 (log entry 12). -/
def Obligations.Multiplication : Prop :=
  ∀ (s : State) (s1 s2 : Reg) (c : Specifier), s.landingNow = false →
    (s.passes (.mltu s1 s2 c) → ∃ t, exec (.mltu s1 s2 c) s = .next t ∧
      t.hi.toNat * 2 ^ 32 + t.lo.toNat = (s.read s1).toNat * (s.read s2).toNat ∧
      t.hiLoOpen = false ∧ t.div = s.div ∧ HiLoFrame s t) ∧
    (s.passes (.mlts s1 s2 c) → ∃ t, exec (.mlts s1 s2 c) s = .next t ∧
      (t.hi ++ t.lo : BitVec 64).toInt = (s.read s1).toInt * (s.read s2).toInt ∧
      t.hiLoOpen = false ∧ t.div = s.div ∧ HiLoFrame s t)

/-- 44_misc.md R237: an executed `MLTU` or `MLTS` as the 11th instruction after a divide, when one instruction
is still to pass, is refused; predicated off it is harmless. The spec's decision D33 (log entries 12 and 30). -/
def Obligations.MultiplyAtTheEleventhIsRefused : Prop :=
  ∀ (irq : Config.Irq) (s : State) (i : Instr) (u : State) (w : DivWindow) (s1 s2 : Reg) (c : Specifier),
    s.fetch irq = .run i u →
    s.div = some w → w.n = 1 → (i = .mltu s1 s2 c ∨ i = .mlts s1 s2 c) →
    (u.passes i → stepUnder irq s = .refused .multiplyAt11thAfterDivide) ∧
    (¬ u.passes i → ∃ t, stepUnder irq s = .next t ∧ t.lo = w.q ∧ t.hi = w.r ∧ t.div = none)

/-- 44_misc.md R235, R236: with no division pending and a divisor that is not zero, `DIVU` and `DIVS` leave `HI`
and `LO` unspecified and start a window of 11 with the quotient and the remainder (`DIVS_ROUND` = truncate);
`-2^31 / -1` starts none. Nothing else changes. The spec's decisions D32 and D33 (log entries 8, 12 and 23). -/
def Obligations.DivisionStartsTheWindow : Prop :=
  ∀ (s : State) (s1 s2 : Reg) (c : Specifier), s.div = none → s.read s2 ≠ 0 →
    (s.passes (.divu s1 s2 c) → ∃ t q r, exec (.divu s1 s2 c) s = .next t ∧ t.div = some ⟨q, r, 11⟩ ∧
      q.toNat = (s.read s1).toNat / (s.read s2).toNat ∧ r.toNat = (s.read s1).toNat % (s.read s2).toNat ∧
      t.hiLoOpen = true ∧ HiLoFrame s t) ∧
    (s.passes (.divs s1 s2 c) → ¬((s.read s1).toInt = -2 ^ 31 ∧ (s.read s2).toInt = -1) →
      ∃ t q r, exec (.divs s1 s2 c) s = .next t ∧ t.div = some ⟨q, r, 11⟩ ∧
        q.toInt = Int.tdiv (s.read s1).toInt (s.read s2).toInt ∧
        r.toInt = Int.tmod (s.read s1).toInt (s.read s2).toInt ∧
        t.hiLoOpen = true ∧ HiLoFrame s t) ∧
    (s.passes (.divs s1 s2 c) → (s.read s1).toInt = -2 ^ 31 → (s.read s2).toInt = -1 →
      ∃ t, exec (.divs s1 s2 c) s = .next t ∧ t.div = none ∧ t.hiLoOpen = true ∧ HiLoFrame s t)

/-- 44_misc.md R235, R236: with no division pending, `DIVU` and `DIVS` by zero raise `ZeroDivision`; `HI` and
`LO` are unspecified and no window starts. The spec's decisions D22 and D32; `FAULT_PC` is either value (log
entries 8, 11 and 27). -/
def Obligations.DivisionByZeroFaults : Prop :=
  ∀ (s : State) (i : Instr) (s1 s2 : Reg) (c : Specifier), (i = .divu s1 s2 c ∨ i = .divs s1 s2 c) →
    s.div = none → s.read s2 = 0 → s.passes i →
    ∃ t, exec i s = .next t ∧
      FaultTaken s t .zeroDivision (faultResume (s.pc - 4) s.pc) s.cndq.tail ∧ t.hiLoOpen = true

/-- 44_misc.md R237: an executed `DIVU` or `DIVS` while a division is pending is refused, by zero too. The
spec's decision D33 (log entry 30). -/
def Obligations.DivideWhilePendingIsRefused : Prop :=
  ∀ (s : State) (i : Instr) (s1 s2 : Reg) (c : Specifier), (i = .divu s1 s2 c ∨ i = .divs s1 s2 c) →
    s.div ≠ none → s.passes i → exec i s = .refused .divideWhileDividePending

/-- 44_misc.md R237: every instruction a step processes counts in the window; after the one that finds 1 left,
`LO` is the quotient and `HI` the remainder. The spec's decision D33 (log entries 12 and 29). -/
def Obligations.WindowCountsInstructions : Prop :=
  ∀ (irq : Config.Irq) (s : State) (i : Instr) (u t : State) (w : DivWindow), s.fetch irq = .run i u →
    stepUnder irq s = .next t →
    s.div = some w →
    (2 ≤ w.n → t.div = some { w with n := w.n - 1 }) ∧
    (w.n = 1 → t.div = none ∧ t.lo = w.q ∧ t.hi = w.r ∧ t.hiLoOpen = false)

/-- 44_misc.md R237, 70_reset_and_hazards.md R326: from a state in which a divide has just run, eleven steps
that each process an instruction, whichever they are and in whichever mode, bring the quotient and the
remainder; until then the division is pending. The spec's decision D33 (log entries 12 and 29). -/
def Obligations.DivisionLandsAfterElevenInstructions : Prop :=
  ∀ (irq : Config.Irq) (f : Nat → State) (q r : Word), (f 0).div = some ⟨q, r, 11⟩ →
    (∀ k, k < 11 → (∃ i u, (f k).fetch irq = .run i u) ∧ stepUnder irq (f k) = .next (f (k + 1))) →
    (∀ k, k ≤ 10 → (f k).div = some ⟨q, r, 11 - k⟩) ∧
    (f 11).div = none ∧ (f 11).lo = q ∧ (f 11).hi = r ∧ (f 11).hiLoOpen = false

/-! ## Modes, faults, interrupts, halt -/

/-- 60_exceptions.md R281, R282, R292: a system call (`XORI* SR, SR, 0x10` in user mode) and a return from a
trap (`ORI* SR, SR, 0x10` in supervisor mode), where no `WFI` or `STEP` is stored: the mode changes, the queue
is emptied, the user `HWI` is cleared on the way in; every register of both sets, `PC` among them, every other
flag, `HI`, `LO` and memory stay. The spec's decisions D4 and D5; bit 4 is `M` by log entry 18. -/
def Obligations.SystemCallAndReturn : Prop :=
  ∀ s : State, (s.flagsOf s.cur).wfi = false → (s.flagsOf s.cur).step = false →
    (s.cur = .user → ∃ t, exec (.xori .sr .sr 0x10 ⟨true, .always⟩) s = .next t ∧
      t.cur = .supervisor ∧ t.cndq = [] ∧ t.sup = s.sup ∧
      t.usr = { s.usr with flags := { s.usr.flags with hwi := false } } ∧
      SameHiLo s t ∧ t.div = s.div ∧ t.halted = s.halted ∧ t.outputs = s.outputs ∧ SameMemory s t) ∧
    (s.cur = .supervisor → ∃ t, exec (.ori .sr .sr 0x10 ⟨true, .always⟩) s = .next t ∧
      t.cur = .user ∧ t.cndq = [] ∧ t.sup = s.sup ∧ t.usr = s.usr ∧
      SameHiLo s t ∧ t.div = s.div ∧ t.halted = s.halted ∧ t.outputs = s.outputs ∧ SameMemory s t)

/-- 30_encoding.md R106, 60_exceptions.md R283, R289: a first halfword with bit 15 set raises `IllegalOpcode`
whatever the queue holds; it takes no queue entry and does not count in the division window. The spec's
decisions D25 and D22; log entries 11, 19 and, for the window, 29. -/
def Obligations.IllegalHalfwordFaults : Prop :=
  ∀ (irq : Config.Irq) (s : State), s.fetches irq → s.pc.getLsbD 1 = false → s.fetchWord.1.getLsbD 31 = false →
    s.fetchWord.1.getLsbD 15 = true →
    ∃ t, stepUnder irq s = .next t ∧
      FaultTaken s t .illegalOpcode
        (faultResume s.pc (if s.fetchWord.1.extractLsb' 16 16 = 0 then s.pc + 4 else s.pc + 2)) s.cndq ∧
      SameHiLo s t

/-- 20_memory.md R71, 60_exceptions.md R285, R288: with `NULL_FETCH` = faults a fetch from word 0 raises
`NullReference`, and `PC` stays at the address under either `FAULT_PC`; only a second slot inside a long
instruction is refused before it. The spec's decisions D21 and D40 (log entry 22). -/
def Obligations.FetchFromWordZeroFaults : Prop :=
  ∀ (irq : Config.Irq) (s : State), s.halted = false → s.interruptTaken irq = false → s.pc.getLsbD 0 = false →
    wordAddress s.pc = 0 → s.pc.getLsbD 1 = false ∨ s.fetchWord.1.getLsbD 31 = false →
    ∃ t, stepUnder irq s = .next t ∧ FaultTaken s t .nullReference s.pc s.cndq ∧ SameHiLo s t

/-- 60_exceptions.md R290, R43, 00_scope.md R4: with a predicate for `IRQ` that holds at the step, in user mode
with an empty queue, a step takes the interrupt: `HWI` is set in the user `SR` and the supervisor is to run;
nothing else of the machine changes. In supervisor mode, inside a `CND` window, and where the predicate does not
hold, none is taken; with `IRQ` = none, the default, none ever is. A step that is no halt counts as one, so that
the predicate is asked of each in turn. The spec's decision D29; the count is the model's (log entry 15). -/
def Obligations.InterruptIsTakenAtTheBoundary : Prop :=
  (∀ (asserted : Nat → Bool) (s : State), s.halted = false →
    (s.cur = .user → s.cndq = [] → asserted s.steps = true →
      stepUnder (some asserted) s = .next { s with
        usr := { s.usr with flags := { s.usr.flags with hwi := true } }, cur := .supervisor, steps := s.steps + 1 }) ∧
    (s.cur = .supervisor ∨ s.cndq ≠ [] ∨ asserted s.steps = false → s.interruptTaken (some asserted) = false)) ∧
  (∀ s : State, s.interruptTaken none = false ∧ step s = stepUnder none s) ∧
  (∀ (irq : Config.Irq) (s t : State), stepUnder irq s = .next t → s.halted = false → t.steps = s.steps + 1)

/-- 60_exceptions.md R286, 10_state.md R42: a halted CPU stays as it is. That its step is the state itself is the
model's reading (log entry 13). -/
def Obligations.HaltIsAbsorbing : Prop :=
  ∀ (irq : Config.Irq) (s : State), s.halted = true → stepUnder irq s = .next s

/-- 10_state.md R42, 60_exceptions.md R286, R296: the CPU comes to halt only by a fault in supervisor mode,
which leaves a cause flag set; user code cannot halt it. The spec's decisions D22 and D30. -/
def Obligations.OnlySupervisorFaultsHalt : Prop :=
  ∀ (irq : Config.Irq) (s t : State), stepUnder irq s = .next t → s.halted = false → t.halted = true →
    s.cur = .supervisor ∧ t.cur = .supervisor ∧
      ((t.flagsOf .supervisor).nul = true ∨ (t.flagsOf .supervisor).zd = true ∨ (t.flagsOf .supervisor).il = true)

/-- 60_exceptions.md R284, R140: every entry to supervisor mode empties the queue and writes the user `HWI`: 1
on a hardware interrupt, 0 on any other entry. The spec's decision D23. -/
def Obligations.EntryToSupervisorWritesHwi : Prop :=
  ∀ (irq : Config.Irq) (s t : State), stepUnder irq s = .next t → s.cur = .user → t.cur = .supervisor →
    t.cndq = [] ∧ (t.flagsOf .user).hwi = s.interruptTaken irq

/-- 60_exceptions.md R292, R296: user mode is entered from supervisor mode by an instruction alone, with the
queue empty, and finds every user register, flag and `PC` as it was left. The spec's decision D5. That the queue
is empty is R140 (D10); that the free flags of an unfrozen ALU write of `SR` go to the supervisor `SR` is the
model's reading (log entry 14). -/
def Obligations.EntryToUserRestoresNothing : Prop :=
  ∀ (irq : Config.Irq) (s t : State), stepUnder irq s = .next t → s.cur = .supervisor → t.cur = .user →
    (∃ i u, s.fetch irq = .run i u) ∧ t.cndq = [] ∧ t.usr = s.usr ∧ t.halted = false

/-- 10_state.md R25, 60_exceptions.md R280, R296: no step made in user mode changes any register or flag of the
supervisor set. The two whole sets are the spec's decision D3, the illegal moves D24. That the free flags of an
unfrozen ALU write of `SR` that switches mode go to the user `SR` is the model's reading (log entry 14). -/
def Obligations.UserModeCannotWriteTheSupervisorSet : Prop :=
  ∀ (irq : Config.Irq) (s t : State), stepUnder irq s = .next t → s.cur = .user → t.sup = s.sup

/-- 10_state.md R25: "KCPU in user mode can access only its own registers": what a step made in user mode does
to everything else does not depend on the supervisor set. The two whole sets are the spec's decision D3, the
illegal moves D24. That the free flags of an unfrozen ALU write of `SR` that switches mode go to the user `SR`
is the model's reading (log entry 14). -/
def Obligations.UserModeCannotReadTheSupervisorSet : Prop :=
  ∀ (irq : Config.Irq) (s : State) (x : RegSet), s.cur = .user →
    stepUnder irq { s with sup := x } =
      match stepUnder irq s with
      | .next t => .next { t with sup := x }
      | .fault r => .fault r
      | .refused r => .refused r

/-- 20_memory.md R62, R72: no step changes a byte outside RAM. Default `MEMMAP` (D36, log entries 17 and 24). -/
def Obligations.OnlyRamChanges : Prop :=
  ∀ (irq : Config.Irq) (s t : State), stepUnder irq s = .next t →
    ∀ a : Word, a.toNat < 0x10000 ∨ 0xF0000000 ≤ a.toNat →
    Memory.lookup t.mem a.toNat = Memory.lookup s.mem a.toNat

/-- 20_memory.md R75, R78: a step adds at most one output event, after those already there. The spec's decision
D36 (log entry 25). -/
def Obligations.OutputsOnlyGrow : Prop :=
  ∀ (irq : Config.Irq) (s t : State), stepUnder irq s = .next t →
    t.outputs = s.outputs ∨ ∃ e, t.outputs = s.outputs ++ [e]
end

