-- ==== Sys2Proof/Laws/State.lean ====
section
/-! SUPPORT. One lemma per field per update of the state, so that no later proof unfolds a record update. -/

namespace Sys2Proof.Machine
open Sys2Proof

/-! ### `withRegs` -/

@[simp] theorem State.withRegs_cur (s : State) (m : Mode) (x : RegSet) : (s.withRegs m x).cur = s.cur := by cases m <;> rfl
@[simp] theorem State.withRegs_hi (s : State) (m : Mode) (x : RegSet) : (s.withRegs m x).hi = s.hi := by cases m <;> rfl
@[simp] theorem State.withRegs_lo (s : State) (m : Mode) (x : RegSet) : (s.withRegs m x).lo = s.lo := by cases m <;> rfl
@[simp] theorem State.withRegs_hiLoOpen (s : State) (m : Mode) (x : RegSet) : (s.withRegs m x).hiLoOpen = s.hiLoOpen := by cases m <;> rfl
@[simp] theorem State.withRegs_cndq (s : State) (m : Mode) (x : RegSet) : (s.withRegs m x).cndq = s.cndq := by cases m <;> rfl
@[simp] theorem State.withRegs_div (s : State) (m : Mode) (x : RegSet) : (s.withRegs m x).div = s.div := by cases m <;> rfl
@[simp] theorem State.withRegs_halted (s : State) (m : Mode) (x : RegSet) : (s.withRegs m x).halted = s.halted := by cases m <;> rfl
@[simp] theorem State.withRegs_mem (s : State) (m : Mode) (x : RegSet) : (s.withRegs m x).mem = s.mem := by cases m <;> rfl
@[simp] theorem State.withRegs_outputs (s : State) (m : Mode) (x : RegSet) : (s.withRegs m x).outputs = s.outputs := by cases m <;> rfl
@[simp] theorem State.withRegs_steps (s : State) (m : Mode) (x : RegSet) : (s.withRegs m x).steps = s.steps := by cases m <;> rfl
@[simp] theorem State.withRegs_drawn (s : State) (m : Mode) (x : RegSet) : (s.withRegs m x).drawn = s.drawn := by cases m <;> rfl

@[simp] theorem State.withRegs_regs (s : State) (m : Mode) (x : RegSet) : (s.withRegs m x).regs m = x := by
  cases m <;> rfl

theorem State.withRegs_regs_ne (s : State) {m m' : Mode} (x : RegSet) (h : m' ≠ m) :
    (s.withRegs m x).regs m' = s.regs m' := by
  cases m <;> cases m' <;> first | rfl | exact absurd rfl h

@[simp] theorem State.withRegs_self (s : State) (m : Mode) : s.withRegs m (s.regs m) = s := by
  cases m <;> rfl

@[simp] theorem State.withRegs_withRegs (s : State) (m : Mode) (x y : RegSet) :
    (s.withRegs m x).withRegs m y = s.withRegs m y := by
  cases m <;> rfl

/-! ### `withFlags` -/

@[simp] theorem State.withFlags_cur (s : State) (m : Mode) (f : StatusFlags) : (s.withFlags m f).cur = s.cur := by cases m <;> rfl
@[simp] theorem State.withFlags_hi (s : State) (m : Mode) (f : StatusFlags) : (s.withFlags m f).hi = s.hi := by cases m <;> rfl
@[simp] theorem State.withFlags_lo (s : State) (m : Mode) (f : StatusFlags) : (s.withFlags m f).lo = s.lo := by cases m <;> rfl
@[simp] theorem State.withFlags_hiLoOpen (s : State) (m : Mode) (f : StatusFlags) : (s.withFlags m f).hiLoOpen = s.hiLoOpen := by cases m <;> rfl
@[simp] theorem State.withFlags_cndq (s : State) (m : Mode) (f : StatusFlags) : (s.withFlags m f).cndq = s.cndq := by cases m <;> rfl
@[simp] theorem State.withFlags_div (s : State) (m : Mode) (f : StatusFlags) : (s.withFlags m f).div = s.div := by cases m <;> rfl
@[simp] theorem State.withFlags_halted (s : State) (m : Mode) (f : StatusFlags) : (s.withFlags m f).halted = s.halted := by cases m <;> rfl
@[simp] theorem State.withFlags_mem (s : State) (m : Mode) (f : StatusFlags) : (s.withFlags m f).mem = s.mem := by cases m <;> rfl
@[simp] theorem State.withFlags_outputs (s : State) (m : Mode) (f : StatusFlags) : (s.withFlags m f).outputs = s.outputs := by cases m <;> rfl
@[simp] theorem State.withFlags_steps (s : State) (m : Mode) (f : StatusFlags) : (s.withFlags m f).steps = s.steps := by cases m <;> rfl
@[simp] theorem State.withFlags_drawn (s : State) (m : Mode) (f : StatusFlags) : (s.withFlags m f).drawn = s.drawn := by cases m <;> rfl

@[simp] theorem State.withFlags_regs (s : State) (m : Mode) (f : StatusFlags) :
    (s.withFlags m f).regs m = { s.regs m with flags := f } := by
  cases m <;> rfl

theorem State.withFlags_regs_ne (s : State) {m m' : Mode} (f : StatusFlags) (h : m' ≠ m) :
    (s.withFlags m f).regs m' = s.regs m' :=
  State.withRegs_regs_ne s _ h

@[simp] theorem State.withFlags_flagsOf (s : State) (m : Mode) (f : StatusFlags) :
    (s.withFlags m f).flagsOf m = f := by
  cases m <;> rfl

theorem State.withFlags_flagsOf_ne (s : State) {m m' : Mode} (f : StatusFlags) (h : m' ≠ m) :
    (s.withFlags m f).flagsOf m' = s.flagsOf m' := by
  simp [State.flagsOf, State.withFlags_regs_ne s f h]

/-! ### `withPc` -/

@[simp] theorem State.withPc_cur (s : State) (v : Word) : (s.withPc v).cur = s.cur := by simp [State.withPc]
@[simp] theorem State.withPc_hi (s : State) (v : Word) : (s.withPc v).hi = s.hi := by simp [State.withPc]
@[simp] theorem State.withPc_lo (s : State) (v : Word) : (s.withPc v).lo = s.lo := by simp [State.withPc]
@[simp] theorem State.withPc_hiLoOpen (s : State) (v : Word) : (s.withPc v).hiLoOpen = s.hiLoOpen := by simp [State.withPc]
@[simp] theorem State.withPc_cndq (s : State) (v : Word) : (s.withPc v).cndq = s.cndq := by simp [State.withPc]
@[simp] theorem State.withPc_div (s : State) (v : Word) : (s.withPc v).div = s.div := by simp [State.withPc]
@[simp] theorem State.withPc_halted (s : State) (v : Word) : (s.withPc v).halted = s.halted := by simp [State.withPc]
@[simp] theorem State.withPc_mem (s : State) (v : Word) : (s.withPc v).mem = s.mem := by simp [State.withPc]
@[simp] theorem State.withPc_outputs (s : State) (v : Word) : (s.withPc v).outputs = s.outputs := by simp [State.withPc]
@[simp] theorem State.withPc_steps (s : State) (v : Word) : (s.withPc v).steps = s.steps := by simp [State.withPc]
@[simp] theorem State.withPc_drawn (s : State) (v : Word) : (s.withPc v).drawn = s.drawn := by simp [State.withPc]

@[simp] theorem State.withPc_pc (s : State) (v : Word) : (s.withPc v).pc = v := by
  simp [State.withPc, State.pc]

@[simp] theorem State.withPc_flagsOf (s : State) (m : Mode) (v : Word) : (s.withPc v).flagsOf m = s.flagsOf m := by
  by_cases h : m = s.cur
  · subst h; simp [State.withPc, State.flagsOf]
  · simp [State.withPc, State.flagsOf, State.withRegs_regs_ne s _ h]

/-! ### `draw` -/

@[simp] theorem State.draw_sup (s : State) (k : Nat) : (s.draw k).sup = s.sup := rfl
@[simp] theorem State.draw_usr (s : State) (k : Nat) : (s.draw k).usr = s.usr := rfl
@[simp] theorem State.draw_cur (s : State) (k : Nat) : (s.draw k).cur = s.cur := rfl
@[simp] theorem State.draw_hi (s : State) (k : Nat) : (s.draw k).hi = s.hi := rfl
@[simp] theorem State.draw_lo (s : State) (k : Nat) : (s.draw k).lo = s.lo := rfl
@[simp] theorem State.draw_hiLoOpen (s : State) (k : Nat) : (s.draw k).hiLoOpen = s.hiLoOpen := rfl
@[simp] theorem State.draw_cndq (s : State) (k : Nat) : (s.draw k).cndq = s.cndq := rfl
@[simp] theorem State.draw_div (s : State) (k : Nat) : (s.draw k).div = s.div := rfl
@[simp] theorem State.draw_halted (s : State) (k : Nat) : (s.draw k).halted = s.halted := rfl
@[simp] theorem State.draw_mem (s : State) (k : Nat) : (s.draw k).mem = s.mem := rfl
@[simp] theorem State.draw_outputs (s : State) (k : Nat) : (s.draw k).outputs = s.outputs := rfl
@[simp] theorem State.draw_steps (s : State) (k : Nat) : (s.draw k).steps = s.steps := rfl

@[simp] theorem State.draw_drawn (s : State) (k : Nat) : (s.draw k).drawn = s.drawn + k := rfl
@[simp] theorem State.draw_regs (s : State) (k : Nat) (m : Mode) : (s.draw k).regs m = s.regs m := by cases m <;> rfl

@[simp] theorem State.draw_flagsOf (s : State) (k : Nat) (m : Mode) : (s.draw k).flagsOf m = s.flagsOf m := by cases m <;> rfl
@[simp] theorem State.draw_reg (s : State) (k : Nat) (m : Mode) (r : Reg) : (s.draw k).reg m r = s.reg m r := by cases m <;> rfl

/-! ### `popCondition` -/

@[simp] theorem State.popCondition_sup (s : State) : (s.popCondition).sup = s.sup := rfl
@[simp] theorem State.popCondition_usr (s : State) : (s.popCondition).usr = s.usr := rfl
@[simp] theorem State.popCondition_cur (s : State) : (s.popCondition).cur = s.cur := rfl
@[simp] theorem State.popCondition_hi (s : State) : (s.popCondition).hi = s.hi := rfl
@[simp] theorem State.popCondition_lo (s : State) : (s.popCondition).lo = s.lo := rfl
@[simp] theorem State.popCondition_hiLoOpen (s : State) : (s.popCondition).hiLoOpen = s.hiLoOpen := rfl
@[simp] theorem State.popCondition_div (s : State) : (s.popCondition).div = s.div := rfl
@[simp] theorem State.popCondition_halted (s : State) : (s.popCondition).halted = s.halted := rfl
@[simp] theorem State.popCondition_mem (s : State) : (s.popCondition).mem = s.mem := rfl
@[simp] theorem State.popCondition_outputs (s : State) : (s.popCondition).outputs = s.outputs := rfl
@[simp] theorem State.popCondition_steps (s : State) : (s.popCondition).steps = s.steps := rfl
@[simp] theorem State.popCondition_drawn (s : State) : (s.popCondition).drawn = s.drawn := rfl

@[simp] theorem State.popCondition_cndq (s : State) : s.popCondition.cndq = s.cndq.tail := rfl
@[simp] theorem State.popCondition_regs (s : State) (m : Mode) : s.popCondition.regs m = s.regs m := by cases m <;> rfl
@[simp] theorem State.popCondition_flagsOf (s : State) (m : Mode) : s.popCondition.flagsOf m = s.flagsOf m := by cases m <;> rfl
@[simp] theorem State.popCondition_reg (s : State) (m : Mode) (r : Reg) : s.popCondition.reg m r = s.reg m r := by cases m <;> rfl
@[simp] theorem State.popCondition_read (s : State) (r : Reg) : s.popCondition.read r = s.read r := State.popCondition_reg s s.cur r
@[simp] theorem State.popCondition_pc (s : State) : s.popCondition.pc = s.pc := by simp [State.pc]

/-! ### `tickBefore` -/

@[simp] theorem State.tickBefore_sup (s : State) : (s.tickBefore).sup = s.sup := rfl
@[simp] theorem State.tickBefore_usr (s : State) : (s.tickBefore).usr = s.usr := rfl
@[simp] theorem State.tickBefore_cur (s : State) : (s.tickBefore).cur = s.cur := rfl
@[simp] theorem State.tickBefore_hi (s : State) : (s.tickBefore).hi = s.hi := rfl
@[simp] theorem State.tickBefore_lo (s : State) : (s.tickBefore).lo = s.lo := rfl
@[simp] theorem State.tickBefore_hiLoOpen (s : State) : (s.tickBefore).hiLoOpen = s.hiLoOpen := rfl
@[simp] theorem State.tickBefore_cndq (s : State) : (s.tickBefore).cndq = s.cndq := rfl
@[simp] theorem State.tickBefore_halted (s : State) : (s.tickBefore).halted = s.halted := rfl
@[simp] theorem State.tickBefore_mem (s : State) : (s.tickBefore).mem = s.mem := rfl
@[simp] theorem State.tickBefore_outputs (s : State) : (s.tickBefore).outputs = s.outputs := rfl
@[simp] theorem State.tickBefore_steps (s : State) : (s.tickBefore).steps = s.steps := rfl
@[simp] theorem State.tickBefore_drawn (s : State) : (s.tickBefore).drawn = s.drawn := rfl

@[simp] theorem State.tickBefore_regs (s : State) (m : Mode) : s.tickBefore.regs m = s.regs m := by cases m <;> rfl

/-! ### `switchMode` -/

@[simp] theorem State.switchMode_sup (s : State) (m : Mode) : (s.switchMode m).sup = s.sup := by cases m <;> rfl
@[simp] theorem State.switchMode_hi (s : State) (m : Mode) : (s.switchMode m).hi = s.hi := by cases m <;> rfl
@[simp] theorem State.switchMode_lo (s : State) (m : Mode) : (s.switchMode m).lo = s.lo := by cases m <;> rfl
@[simp] theorem State.switchMode_hiLoOpen (s : State) (m : Mode) : (s.switchMode m).hiLoOpen = s.hiLoOpen := by cases m <;> rfl
@[simp] theorem State.switchMode_div (s : State) (m : Mode) : (s.switchMode m).div = s.div := by cases m <;> rfl
@[simp] theorem State.switchMode_halted (s : State) (m : Mode) : (s.switchMode m).halted = s.halted := by cases m <;> rfl
@[simp] theorem State.switchMode_mem (s : State) (m : Mode) : (s.switchMode m).mem = s.mem := by cases m <;> rfl
@[simp] theorem State.switchMode_outputs (s : State) (m : Mode) : (s.switchMode m).outputs = s.outputs := by cases m <;> rfl
@[simp] theorem State.switchMode_steps (s : State) (m : Mode) : (s.switchMode m).steps = s.steps := by cases m <;> rfl
@[simp] theorem State.switchMode_drawn (s : State) (m : Mode) : (s.switchMode m).drawn = s.drawn := by cases m <;> rfl

@[simp] theorem State.switchMode_cur (s : State) (m : Mode) : (s.switchMode m).cur = m := by cases m <;> rfl
@[simp] theorem State.switchMode_cndq (s : State) (m : Mode) : (s.switchMode m).cndq = [] := by cases m <;> rfl
@[simp] theorem State.switchMode_user_usr (s : State) : (s.switchMode .user).usr = s.usr := rfl
@[simp] theorem State.switchMode_supervisor_usr (s : State) :
    (s.switchMode .supervisor).usr = { s.usr with flags := { s.usr.flags with hwi := false } } := rfl

/-! ### `takeInterrupt` -/

@[simp] theorem State.takeInterrupt_sup (s : State) : (s.takeInterrupt).sup = s.sup := rfl
@[simp] theorem State.takeInterrupt_hi (s : State) : (s.takeInterrupt).hi = s.hi := rfl
@[simp] theorem State.takeInterrupt_lo (s : State) : (s.takeInterrupt).lo = s.lo := rfl
@[simp] theorem State.takeInterrupt_hiLoOpen (s : State) : (s.takeInterrupt).hiLoOpen = s.hiLoOpen := rfl
@[simp] theorem State.takeInterrupt_cndq (s : State) : (s.takeInterrupt).cndq = s.cndq := rfl
@[simp] theorem State.takeInterrupt_div (s : State) : (s.takeInterrupt).div = s.div := rfl
@[simp] theorem State.takeInterrupt_halted (s : State) : (s.takeInterrupt).halted = s.halted := rfl
@[simp] theorem State.takeInterrupt_mem (s : State) : (s.takeInterrupt).mem = s.mem := rfl
@[simp] theorem State.takeInterrupt_outputs (s : State) : (s.takeInterrupt).outputs = s.outputs := rfl
@[simp] theorem State.takeInterrupt_steps (s : State) : (s.takeInterrupt).steps = s.steps := rfl
@[simp] theorem State.takeInterrupt_drawn (s : State) : (s.takeInterrupt).drawn = s.drawn := rfl

@[simp] theorem State.takeInterrupt_cur (s : State) : s.takeInterrupt.cur = .supervisor := rfl
@[simp] theorem State.takeInterrupt_usr (s : State) :
    s.takeInterrupt.usr = { s.usr with flags := { s.usr.flags with hwi := true } } := rfl

/-! ### `countStep` -/

@[simp] theorem State.countStep_sup (s : State) : s.countStep.sup = s.sup := rfl
@[simp] theorem State.countStep_usr (s : State) : s.countStep.usr = s.usr := rfl
@[simp] theorem State.countStep_cur (s : State) : s.countStep.cur = s.cur := rfl
@[simp] theorem State.countStep_hi (s : State) : s.countStep.hi = s.hi := rfl
@[simp] theorem State.countStep_lo (s : State) : s.countStep.lo = s.lo := rfl
@[simp] theorem State.countStep_hiLoOpen (s : State) : s.countStep.hiLoOpen = s.hiLoOpen := rfl
@[simp] theorem State.countStep_cndq (s : State) : s.countStep.cndq = s.cndq := rfl
@[simp] theorem State.countStep_div (s : State) : s.countStep.div = s.div := rfl
@[simp] theorem State.countStep_halted (s : State) : s.countStep.halted = s.halted := rfl
@[simp] theorem State.countStep_mem (s : State) : s.countStep.mem = s.mem := rfl
@[simp] theorem State.countStep_outputs (s : State) : s.countStep.outputs = s.outputs := rfl
@[simp] theorem State.countStep_drawn (s : State) : s.countStep.drawn = s.drawn := rfl
@[simp] theorem State.countStep_steps (s : State) : s.countStep.steps = s.steps + 1 := rfl
@[simp] theorem State.countStep_regs (s : State) (m : Mode) : s.countStep.regs m = s.regs m := by cases m <;> rfl
@[simp] theorem State.countStep_flagsOf (s : State) (m : Mode) : s.countStep.flagsOf m = s.flagsOf m := by
  cases m <;> rfl
@[simp] theorem State.countStep_reg (s : State) (m : Mode) (r : Reg) : s.countStep.reg m r = s.reg m r := by
  cases m <;> rfl
@[simp] theorem State.countStep_pc (s : State) : s.countStep.pc = s.pc := by simp [State.pc]

/-! ### `openHiLo` -/

@[simp] theorem State.openHiLo_sup (s : State) : (s.openHiLo).sup = s.sup := rfl
@[simp] theorem State.openHiLo_usr (s : State) : (s.openHiLo).usr = s.usr := rfl
@[simp] theorem State.openHiLo_cur (s : State) : (s.openHiLo).cur = s.cur := rfl
@[simp] theorem State.openHiLo_cndq (s : State) : (s.openHiLo).cndq = s.cndq := rfl
@[simp] theorem State.openHiLo_div (s : State) : (s.openHiLo).div = s.div := rfl
@[simp] theorem State.openHiLo_halted (s : State) : (s.openHiLo).halted = s.halted := rfl
@[simp] theorem State.openHiLo_mem (s : State) : (s.openHiLo).mem = s.mem := rfl
@[simp] theorem State.openHiLo_outputs (s : State) : (s.openHiLo).outputs = s.outputs := rfl
@[simp] theorem State.openHiLo_steps (s : State) : (s.openHiLo).steps = s.steps := rfl

@[simp] theorem State.openHiLo_hiLoOpen (s : State) : s.openHiLo.hiLoOpen = true := rfl
@[simp] theorem State.openHiLo_regs (s : State) (m : Mode) : s.openHiLo.regs m = s.regs m := by cases m <;> rfl

/-! ### `tickAfter` -/

@[simp] theorem State.tickAfter_sup (s : State) : s.tickAfter.sup = s.sup := by
  unfold State.tickAfter; split <;> [split; skip] <;> rfl
@[simp] theorem State.tickAfter_usr (s : State) : s.tickAfter.usr = s.usr := by
  unfold State.tickAfter; split <;> [split; skip] <;> rfl
@[simp] theorem State.tickAfter_cur (s : State) : s.tickAfter.cur = s.cur := by
  unfold State.tickAfter; split <;> [split; skip] <;> rfl
@[simp] theorem State.tickAfter_cndq (s : State) : s.tickAfter.cndq = s.cndq := by
  unfold State.tickAfter; split <;> [split; skip] <;> rfl
@[simp] theorem State.tickAfter_halted (s : State) : s.tickAfter.halted = s.halted := by
  unfold State.tickAfter; split <;> [split; skip] <;> rfl
@[simp] theorem State.tickAfter_mem (s : State) : s.tickAfter.mem = s.mem := by
  unfold State.tickAfter; split <;> [split; skip] <;> rfl
@[simp] theorem State.tickAfter_outputs (s : State) : s.tickAfter.outputs = s.outputs := by
  unfold State.tickAfter; split <;> [split; skip] <;> rfl
@[simp] theorem State.tickAfter_steps (s : State) : s.tickAfter.steps = s.steps := by
  unfold State.tickAfter; split <;> [split; skip] <;> rfl
@[simp] theorem State.tickAfter_drawn (s : State) : s.tickAfter.drawn = s.drawn := by
  unfold State.tickAfter; split <;> [split; skip] <;> rfl
@[simp] theorem State.tickAfter_regs (s : State) (m : Mode) : s.tickAfter.regs m = s.regs m := by
  cases m <;> simp [State.regs]

/-! ### `raiseAt` -/

@[simp] theorem State.raiseAt_hi (s : State) (e : Event) (p : Word) : (s.raiseAt e p).hi = s.hi := by
  unfold State.raiseAt; split <;> simp
@[simp] theorem State.raiseAt_lo (s : State) (e : Event) (p : Word) : (s.raiseAt e p).lo = s.lo := by
  unfold State.raiseAt; split <;> simp
@[simp] theorem State.raiseAt_hiLoOpen (s : State) (e : Event) (p : Word) : (s.raiseAt e p).hiLoOpen = s.hiLoOpen := by
  unfold State.raiseAt; split <;> simp
@[simp] theorem State.raiseAt_div (s : State) (e : Event) (p : Word) : (s.raiseAt e p).div = s.div := by
  unfold State.raiseAt; split <;> simp
@[simp] theorem State.raiseAt_mem (s : State) (e : Event) (p : Word) : (s.raiseAt e p).mem = s.mem := by
  unfold State.raiseAt; split <;> simp
@[simp] theorem State.raiseAt_outputs (s : State) (e : Event) (p : Word) : (s.raiseAt e p).outputs = s.outputs := by
  unfold State.raiseAt; split <;> simp
@[simp] theorem State.raiseAt_steps (s : State) (e : Event) (p : Word) : (s.raiseAt e p).steps = s.steps := by
  unfold State.raiseAt; split <;> simp
@[simp] theorem State.raiseAt_drawn (s : State) (e : Event) (p : Word) : (s.raiseAt e p).drawn = s.drawn := by
  unfold State.raiseAt; split <;> simp
@[simp] theorem State.raiseAt_cur (s : State) (e : Event) (p : Word) : (s.raiseAt e p).cur = .supervisor := by
  unfold State.raiseAt; split <;> simp_all

/-! ### `setAluFlags`, `setFreeFlags` -/

@[simp] theorem State.setAluFlags_cur (s : State) (m : Mode) (out : AluOut) : (s.setAluFlags m out).cur = s.cur := by
  unfold State.setAluFlags; split <;> simp
@[simp] theorem State.setAluFlags_hi (s : State) (m : Mode) (out : AluOut) : (s.setAluFlags m out).hi = s.hi := by
  unfold State.setAluFlags; split <;> simp
@[simp] theorem State.setAluFlags_lo (s : State) (m : Mode) (out : AluOut) : (s.setAluFlags m out).lo = s.lo := by
  unfold State.setAluFlags; split <;> simp
@[simp] theorem State.setAluFlags_hiLoOpen (s : State) (m : Mode) (out : AluOut) : (s.setAluFlags m out).hiLoOpen = s.hiLoOpen := by
  unfold State.setAluFlags; split <;> simp
@[simp] theorem State.setAluFlags_cndq (s : State) (m : Mode) (out : AluOut) : (s.setAluFlags m out).cndq = s.cndq := by
  unfold State.setAluFlags; split <;> simp
@[simp] theorem State.setAluFlags_div (s : State) (m : Mode) (out : AluOut) : (s.setAluFlags m out).div = s.div := by
  unfold State.setAluFlags; split <;> simp
@[simp] theorem State.setAluFlags_halted (s : State) (m : Mode) (out : AluOut) : (s.setAluFlags m out).halted = s.halted := by
  unfold State.setAluFlags; split <;> simp
@[simp] theorem State.setAluFlags_mem (s : State) (m : Mode) (out : AluOut) : (s.setAluFlags m out).mem = s.mem := by
  unfold State.setAluFlags; split <;> simp
@[simp] theorem State.setAluFlags_outputs (s : State) (m : Mode) (out : AluOut) : (s.setAluFlags m out).outputs = s.outputs := by
  unfold State.setAluFlags; split <;> simp
@[simp] theorem State.setAluFlags_steps (s : State) (m : Mode) (out : AluOut) : (s.setAluFlags m out).steps = s.steps := by
  unfold State.setAluFlags; split <;> simp
@[simp] theorem State.setFreeFlags_cur (s : State) (m : Mode) : (s.setFreeFlags m).cur = s.cur := by
  simp [State.setFreeFlags]
@[simp] theorem State.setFreeFlags_hi (s : State) (m : Mode) : (s.setFreeFlags m).hi = s.hi := by
  simp [State.setFreeFlags]
@[simp] theorem State.setFreeFlags_lo (s : State) (m : Mode) : (s.setFreeFlags m).lo = s.lo := by
  simp [State.setFreeFlags]
@[simp] theorem State.setFreeFlags_hiLoOpen (s : State) (m : Mode) : (s.setFreeFlags m).hiLoOpen = s.hiLoOpen := by
  simp [State.setFreeFlags]
@[simp] theorem State.setFreeFlags_cndq (s : State) (m : Mode) : (s.setFreeFlags m).cndq = s.cndq := by
  simp [State.setFreeFlags]
@[simp] theorem State.setFreeFlags_div (s : State) (m : Mode) : (s.setFreeFlags m).div = s.div := by
  simp [State.setFreeFlags]
@[simp] theorem State.setFreeFlags_halted (s : State) (m : Mode) : (s.setFreeFlags m).halted = s.halted := by
  simp [State.setFreeFlags]
@[simp] theorem State.setFreeFlags_mem (s : State) (m : Mode) : (s.setFreeFlags m).mem = s.mem := by
  simp [State.setFreeFlags]
@[simp] theorem State.setFreeFlags_outputs (s : State) (m : Mode) : (s.setFreeFlags m).outputs = s.outputs := by
  simp [State.setFreeFlags]
@[simp] theorem State.setFreeFlags_steps (s : State) (m : Mode) : (s.setFreeFlags m).steps = s.steps := by
  simp [State.setFreeFlags]

end Sys2Proof.Machine
end

