-- ==== Sys2Proof/Laws/Memory.lean ====
section
/-! SUPPORT. Memory (20_memory.md R61, R62): every operation keeps the canonical form, a byte written reads
back, a write leaves every other byte alone. -/

namespace Sys2Proof.Machine
open Sys2Proof

@[simp] theorem Memory.lookup_nil (a : Nat) : lookup [] a = none := rfl

theorem Memory.lookup_insert (m : Memory) (a b : Nat) (v : Byte) :
    lookup (insert m a v) b = if b = a then some v else lookup m b := by
  induction m with
  | nil => simp [insert, lookup, eq_comm]
  | cons c rest ih =>
    obtain ⟨k, w⟩ := c
    unfold insert
    split
    · simp [lookup, eq_comm]
    · split
      · next h => subst h; simp only [lookup, eq_comm]; split <;> simp_all
      · simp only [lookup, ih]
        split <;> split <;> simp_all

theorem Memory.risingFrom_mono {m : Memory} {lo lo' : Nat} (h : lo' ≤ lo) (hm : risingFrom lo m = true) :
    risingFrom lo' m = true := by
  cases m with
  | nil => rfl
  | cons c rest =>
    simp only [risingFrom, Bool.and_eq_true, decide_eq_true_eq] at hm ⊢
    exact ⟨⟨by omega, hm.1.2⟩, hm.2⟩

theorem Memory.risingFrom_insert {m : Memory} {lo a : Nat} (v : Byte) (hlo : lo ≤ a) (ha : a < 2 ^ 32)
    (hm : risingFrom lo m = true) : risingFrom lo (insert m a v) = true := by
  induction m generalizing lo with
  | nil => simp [insert, risingFrom, hlo]; omega
  | cons c rest ih =>
    obtain ⟨k, w⟩ := c
    have hm' := hm
    simp only [risingFrom, Bool.and_eq_true, decide_eq_true_eq] at hm
    unfold insert
    split
    · simp only [risingFrom, Bool.and_eq_true, decide_eq_true_eq]
      exact ⟨⟨hlo, ha⟩, ⟨by omega, hm.1.2⟩, hm.2⟩
    · split
      · next h => subst h; simp only [risingFrom, Bool.and_eq_true, decide_eq_true_eq]; exact ⟨⟨hlo, ha⟩, hm.2⟩
      · simp only [risingFrom, Bool.and_eq_true, decide_eq_true_eq]
        exact ⟨hm.1, ih (by omega) hm.2⟩

/-- Writing a byte at an address of the space keeps the canonical form. -/
theorem Memory.wf_insert {m : Memory} {a : Nat} (v : Byte) (ha : a < 2 ^ 32) (hm : wf m = true) :
    wf (insert m a v) = true :=
  risingFrom_insert v (Nat.zero_le a) ha hm

/-- `MemWrite` keeps the canonical form. -/
theorem Memory.wf_write {m : Memory} (ea v : Word) (n : Nat) (hm : wf m = true) : wf (write m ea v n) = true := by
  induction n generalizing m ea v with
  | zero => exact hm
  | succ n ih => exact ih _ _ (wf_insert _ ea.isLt hm)

/-- The addresses from `ea` on, modulo 2^32 (R61, R62). -/
theorem Memory.toNat_eq_iff (a b : Word) : a.toNat = b.toNat ↔ a = b :=
  ⟨BitVec.eq_of_toNat_eq, fun h => h ▸ rfl⟩

/-- `MemWrite` leaves every byte alone but the `n` from `ea` on. -/
theorem Memory.lookup_write_of_ne (m : Memory) (ea v : Word) (n : Nat) (a : Word)
    (h : ∀ k, k < n → a ≠ ea + BitVec.ofNat 32 k) : lookup (write m ea v n) a.toNat = lookup m a.toNat := by
  induction n generalizing m ea v with
  | zero => rfl
  | succ n ih =>
    rw [write, ih, lookup_insert, if_neg]
    · have h0 := h 0 (by omega)
      rw [toNat_eq_iff]; simpa using h0
    · intro k hk
      have hk' := h (k + 1) (by omega)
      intro e
      apply hk'
      rw [e, BitVec.add_assoc]
      congr 1
      apply BitVec.eq_of_toNat_eq
      simp [Nat.add_comm]

/-- Byte `k` of `n ≤ 4` bytes written from `ea` on is byte `k` of the value, least significant first (R62). -/
theorem Memory.lookup_write_self (m : Memory) (ea v : Word) (n k : Nat) (hk : k < n) (hn : n ≤ 4) :
    lookup (write m ea v n) (ea + BitVec.ofNat 32 k).toNat = some (v.extractLsb' (8 * k) 8) := by
  induction n generalizing m ea v k with
  | zero => omega
  | succ n ih =>
    rw [write]
    cases k with
    | zero =>
      rw [lookup_write_of_ne _ _ _ _ _ ?_, lookup_insert]
      · simp
      · intro j hj e
        have := congrArg BitVec.toNat e
        have h1 : BitVec.toNat (1 : Word) = 1 := rfl
        simp only [BitVec.toNat_add, BitVec.toNat_ofNat, h1] at this
        omega
    | succ k =>
      have := ih (insert m ea.toNat (v.extractLsb' 0 8)) (ea + 1) (v >>> 8) k (by omega) (by omega)
      rw [show ea + BitVec.ofNat 32 (k + 1) = ea + 1 + BitVec.ofNat 32 k by
        rw [BitVec.add_assoc]; congr 1; apply BitVec.eq_of_toNat_eq; simp [Nat.add_comm]]
      rw [this]
      congr 1
      ext i hi
      simp
      congr 1
      omega

end Sys2Proof.Machine
end

