-- ==== Sys2Proof/Laws/Registers.lean ====
section
/-! SUPPORT. What reading a register after storing one gives (10_state.md R22 to R27), and what packing and
unpacking `SR` do to each other (R34, R35). -/

namespace Sys2Proof.Machine
open Sys2Proof

@[simp] theorem RegSet.value_r0 (x : RegSet) (m : Mode) : x.value m .r0 = 0 := rfl
@[simp] theorem RegSet.value_sr (x : RegSet) (m : Mode) : x.value m .sr = x.flags.pack m := rfl
@[simp] theorem RegSet.value_pc (x : RegSet) (m : Mode) : x.value m .pc = x.pc := rfl

@[simp] theorem RegSet.store_r0 (x : RegSet) (v : Word) : x.store .r0 v = x := rfl
@[simp] theorem RegSet.store_sr (x : RegSet) (v : Word) : x.store .sr v = x := rfl
@[simp] theorem RegSet.store_pc (x : RegSet) (v : Word) : x.store .pc v = { x with pc := v } := rfl

@[simp] theorem RegSet.store_flags (x : RegSet) (r : Reg) (v : Word) : (x.store r v).flags = x.flags := by
  cases r <;> rfl

theorem RegSet.store_pc_of_ne (x : RegSet) {r : Reg} (v : Word) (h : r ≠ .pc) : (x.store r v).pc = x.pc := by
  cases r <;> first | rfl | exact absurd rfl h

/-- A stored register reads back, but `R0`, which reads 0, and `SR`, which is not stored this way. -/
theorem RegSet.value_store_self (x : RegSet) (m : Mode) {r : Reg} (v : Word) (h : r ≠ .sr) :
    (x.store r v).value m r = if r = .r0 then 0 else v := by
  cases r <;> first | rfl | exact absurd rfl h

/-- Storing a register leaves every other register alone. -/
theorem RegSet.value_store_of_ne (x : RegSet) (m : Mode) {r r' : Reg} (v : Word) (h : r' ≠ r) :
    (x.store r v).value m r' = x.value m r' := by
  cases r <;> cases r' <;> first | rfl | exact absurd rfl h

/-- The value of a register other than `SR` does not depend on the flags. -/
theorem RegSet.value_flags (x : RegSet) (m : Mode) {r : Reg} (f : StatusFlags) (h : r ≠ .sr) :
    ({ x with flags := f } : RegSet).value m r = x.value m r := by
  cases r <;> first | rfl | exact absurd rfl h

/-- The value of a register other than `PC` does not depend on `PC`. -/
theorem RegSet.value_withPc (x : RegSet) (m : Mode) {r : Reg} (v : Word) (h : r ≠ .pc) :
    ({ x with pc := v } : RegSet).value m r = x.value m r := by
  cases r <;> first | rfl | exact absurd rfl h

/-- What is read back after storing a register of mode `m'`. -/
theorem State.reg_withRegs_store (s : State) (m m' : Mode) {d r : Reg} (v : Word) (hd : d ≠ .sr) :
    (s.withRegs m' ((s.regs m').store d v)).reg m r =
      if m = m' ∧ r = d then (if d = .r0 then 0 else v) else s.reg m r := by
  by_cases hm : m = m'
  · subst hm
    by_cases hr : r = d
    · subst hr; simp [State.reg, RegSet.value_store_self _ _ _ hd]
    · simp [State.reg, hr, RegSet.value_store_of_ne _ _ _ hr]
  · simp [State.reg, hm, State.withRegs_regs_ne s _ hm]

/-- A register other than `SR` does not change when flags are written. -/
theorem State.reg_withFlags (s : State) (m m' : Mode) {r : Reg} (f : StatusFlags) (h : r ≠ .sr) :
    (s.withFlags m' f).reg m r = s.reg m r := by
  by_cases hm : m = m'
  · subst hm; simp [State.reg, RegSet.value_flags _ _ _ h]
  · simp [State.reg, State.withFlags_regs_ne s f hm]

@[simp] theorem State.flagsOf_withRegs_store (s : State) (m m' : Mode) (d : Reg) (v : Word) :
    (s.withRegs m' ((s.regs m').store d v)).flagsOf m = s.flagsOf m := by
  by_cases hm : m = m'
  · subst hm; simp [State.flagsOf]
  · simp [State.flagsOf, State.withRegs_regs_ne s _ hm]

theorem bitAt_getLsbD (b : Bool) (k i : Nat) (h : i < 32) : (bitAt b k).getLsbD i = (b && decide (i = k)) := by
  unfold bitAt
  cases b
  · simp
  · simp only [↓reduceIte, BitVec.getLsbD_shiftLeft, BitVec.getLsbD_one, h, decide_true, Bool.true_and]
    by_cases hk : i = k
    · subst hk; simp
    · by_cases hl : i < k
      · simp [hl, hk]
      · have : ¬ i - k = 0 := by omega
        simp [hk, this]

/-- The bits of `SRread` (R34). -/
theorem StatusFlags.getLsbD_pack (f : StatusFlags) (m : Mode) (i : Nat) (h : i < 32) :
    (f.pack m).getLsbD i = match i with
      | 0 => f.z
      | 1 => f.c
      | 2 => f.n
      | 3 => f.v
      | 4 => decide (m = .user)
      | 5 => f.zd
      | 6 => f.il
      | 7 => f.wfi
      | 8 => f.step
      | 9 => f.hwi
      | 10 => f.nul
      | _ => false := by
  unfold StatusFlags.pack
  simp only [BitVec.getLsbD_or, bitAt_getLsbD _ _ _ h, Params.srLayout]
  rcases i with _ | _ | _ | _ | _ | _ | _ | _ | _ | _ | _ | i <;> simp

/-- Writing back what `SR` reads changes no stored flag. -/
theorem StatusFlags.unpack_pack (f : StatusFlags) (m : Mode) : StatusFlags.unpack (f.pack m) = f := by
  simp (disch := decide) only [StatusFlags.unpack, Params.srLayout, StatusFlags.getLsbD_pack]

end Sys2Proof.Machine
end

