-- ==== Sys2Proof/Laws/Ops.lean ====
section
/-! SUPPORT. For each shared operation, once, everything it can do: the lemmas to cite instead of unfolding it. -/

namespace Sys2Proof.Machine
open Sys2Proof Sys2Proof.Config

/-! ## Outcomes -/

@[simp] theorem Result.andThen_next (s : State) (f : State → Result) :
    Result.andThen (.next s : Result) f = f s := rfl
@[simp] theorem Result.andThen_fault (r : Fault) (f : State → Result) :
    Result.andThen (.fault r : Result) f = .fault r := rfl
@[simp] theorem Result.andThen_refused (r : Refusal) (f : State → Result) :
    Result.andThen (.refused r : Result) f = .refused r := rfl

theorem Result.andThen_eq_next {o : Result} {f : State → Result} {t : State} (h : o.andThen f = .next t) :
    ∃ s, o = .next s ∧ f s = .next t := by
  cases o with
  | next s => exact ⟨s, rfl, h⟩
  | fault r => cases h
  | refused r => cases h

/-! ## Registers and `SR` -/

/-- Everything a write of `SR` can do (R35). -/
theorem State.srWrite_eq_next {s t : State} {m : Mode} {v : Word} (h : s.srWrite m v = .next t) :
    v.getLsbD 7 = false ∧ v.getLsbD 8 = false ∧
      ((m ≠ s.cur ∨ v.getLsbD 4 = decide (s.cur = .user)) ∧ t = s.withFlags m (StatusFlags.unpack v) ∨
        m = s.cur ∧ v.getLsbD 4 ≠ decide (s.cur = .user) ∧
          t = (s.withFlags m (StatusFlags.unpack v)).switchMode (modeOfBit (v.getLsbD 4))) := by
  unfold State.srWrite at h
  split at h
  · cases h
  · next hw =>
    have hw' : v.getLsbD 7 = false ∧ v.getLsbD 8 = false := by simpa [Params.srLayout] using hw
    refine ⟨hw'.1, hw'.2, ?_⟩
    dsimp only at h
    split at h
    · next hc =>
      right
      obtain ⟨rfl, hne⟩ := hc
      cases h
      refine ⟨rfl, ?_, rfl⟩
      intro he
      apply hne
      rw [show Params.srLayout.m = 4 from rfl, he]
      cases s.cur <;> rfl
    · next hc =>
      left
      cases h
      refine ⟨?_, rfl⟩
      by_cases hm : m = s.cur
      · right
        have hn : modeOfBit (v.getLsbD 4) = s.cur := by
          by_contra hn; exact hc ⟨hm, hn⟩
        rw [← hn]
        cases v.getLsbD 4 <;> rfl
      · exact .inl hm

/-- A write of `SR` is refused exactly when it would set `WFI` or `STEP` (R35). -/
theorem State.srWrite_completes (s : State) (m : Mode) (v : Word) (h7 : v.getLsbD 7 = false)
    (h8 : v.getLsbD 8 = false) : ∃ t, s.srWrite m v = .next t := by
  unfold State.srWrite
  have hw : (v.getLsbD Params.srLayout.wfi || v.getLsbD Params.srLayout.step) = false := by
    rw [show Params.srLayout.wfi = 7 from rfl, show Params.srLayout.step = 8 from rfl, h7, h8]; rfl
  rw [hw, if_neg (by decide)]
  dsimp only
  split <;> exact ⟨_, rfl⟩

theorem State.write_of_ne_sr (s : State) {d : Reg} (v : Word) (h : d ≠ .sr) :
    s.write d v = .next (s.withRegs s.cur ((s.regs s.cur).store d v)) := by
  cases d <;> first | rfl | exact absurd rfl h

@[simp] theorem State.write_sr (s : State) (v : Word) : s.write .sr v = s.srWrite s.cur v := rfl

/-- Everything a register write can do (R6). -/
theorem State.write_eq_next {s t : State} {d : Reg} {v : Word} (h : s.write d v = .next t) :
    (d ≠ .sr ∧ t = s.withRegs s.cur ((s.regs s.cur).store d v)) ∨ (d = .sr ∧ s.srWrite s.cur v = .next t) := by
  by_cases hd : d = .sr
  · subst hd; exact .inr ⟨rfl, h⟩
  · rw [State.write_of_ne_sr s v hd] at h
    cases h; exact .inl ⟨hd, rfl⟩

/-- Everything the end of an ALU instruction can do (R150, R134, R135). -/
theorem State.writeAlu_eq_next {s t : State} {d : Reg} {out : AluOut} {fr : Bool}
    (h : s.writeAlu d out fr = .next t) :
    ∃ u, s.write d out.r = .next u ∧
      (fr = true ∧ t = u ∨ fr = false ∧ d = .sr ∧ t = u.setFreeFlags s.cur ∨
        fr = false ∧ d ≠ .sr ∧ t = u.setAluFlags s.cur out) := by
  obtain ⟨u, hu, ht⟩ := Result.andThen_eq_next h
  refine ⟨u, hu, ?_⟩
  cases ht
  cases fr
  · by_cases hd : d = .sr <;> simp [hd]
  · simp

/-! ## Flags -/

/-- The condition flags an ALU instruction leaves (R150): `Z` and `N` from the result, `C` and `V` as the
function says or free; the six other flags of the mode, and the other mode, unchanged. -/
theorem State.setAluFlags_flagsOf (s : State) (m : Mode) (out : AluOut) :
    (s.setAluFlags m out).flagsOf m =
      { s.flagsOf m with
          z := out.r == 0, n := out.r.msb,
          c := (out.cv.map Prod.fst).getD (Config.freeBit s.drawn),
          v := (out.cv.map Prod.snd).getD (Config.freeBit (s.drawn + 1)) } := by
  unfold State.setAluFlags
  cases out.cv <;> simp [State.flagsOf]

theorem State.setAluFlags_flagsOf_ne (s : State) {m m' : Mode} (out : AluOut) (h : m' ≠ m) :
    (s.setAluFlags m out).flagsOf m' = s.flagsOf m' := by
  unfold State.setAluFlags
  cases out.cv <;> simp [State.flagsOf, State.withFlags_regs_ne s _ h]

theorem State.setAluFlags_reg (s : State) (m m' : Mode) {r : Reg} (out : AluOut) (h : r ≠ .sr) :
    (s.setAluFlags m out).reg m' r = s.reg m' r := by
  unfold State.setAluFlags
  cases out.cv
  · rw [State.draw_reg]; exact State.reg_withFlags s m' m _ h
  · exact State.reg_withFlags s m' m _ h

theorem State.setFreeFlags_flagsOf (s : State) (m : Mode) :
    (s.setFreeFlags m).flagsOf m =
      { s.flagsOf m with
          z := Config.freeBit s.drawn, c := Config.freeBit (s.drawn + 1),
          n := Config.freeBit (s.drawn + 2), v := Config.freeBit (s.drawn + 3) } := by
  simp [State.setFreeFlags, State.flagsOf]

theorem State.setFreeFlags_flagsOf_ne (s : State) {m m' : Mode} (h : m' ≠ m) :
    (s.setFreeFlags m).flagsOf m' = s.flagsOf m' := by
  simp [State.setFreeFlags, State.flagsOf, State.withFlags_regs_ne s _ h]

theorem State.setFreeFlags_reg (s : State) (m m' : Mode) {r : Reg} (h : r ≠ .sr) :
    (s.setFreeFlags m).reg m' r = s.reg m' r := by
  unfold State.setFreeFlags
  rw [State.draw_reg]; exact State.reg_withFlags s m' m _ h

/-! ## Faults -/

/-- A fault in user mode (R283): the cause flag set and `HWI` cleared in the user `SR`, the user `PC` set, the
supervisor to run, the queue empty; the supervisor set and the halt state as they were. -/
theorem State.raiseAt_user {s : State} (e : Event) (p : Word) (h : s.cur = .user) :
    s.raiseAt e p = { s with
      usr := { s.usr with flags := { s.usr.flags.record e with hwi := false }, pc := p },
      cur := .supervisor, cndq := [] } := by
  simp [State.raiseAt, h, State.switchMode, State.withRegs, State.regs]

/-- A fault in supervisor mode (R283, R286): the cause flag set in the supervisor `SR`, its `PC` set, halt. -/
theorem State.raiseAt_supervisor {s : State} (e : Event) (p : Word) (h : s.cur = .supervisor) :
    s.raiseAt e p = { s with
      sup := { s.sup with flags := s.sup.flags.record e, pc := p }, halted := true } := by
  simp [State.raiseAt, h, State.withRegs, State.regs]

/-! ## Memory access -/

/-- A read draws at most one free value and changes nothing else. -/
theorem State.readBytes_cases (s : State) (ea : Word) (n : Nat) :
    (allBacked ea n = true ∧ s.readBytes ea n = (s.memRead 0 ea n, s)) ∨
      (allBacked ea n = false ∧
        s.readBytes ea n = (s.memRead (Config.freeWord s.drawn) ea n, s.draw 1)) := by
  unfold State.readBytes
  cases h : allBacked ea n <;> simp

/-- Everything a store can do (R62, R72, R75). -/
theorem State.store_eq_next {s t : State} {ea : Word} {n : Nat} {v : Word} (h : s.store ea n v = .next t) :
    (∃ p, n = 1 ∧ Params.memmap ea = .port p ∧
        t = { s with outputs := s.outputs ++ [⟨p, v.extractLsb' 0 8⟩] }) ∨
      (someAddress isPort ea n = false ∧ someAddress isRom ea n = false ∧ someAddress isNothing ea n = false ∧
        t = { s with mem := Memory.write s.mem ea v n }) := by
  unfold State.store at h
  split at h
  · next p hp => cases h; exact .inl ⟨p, rfl, hp, rfl⟩
  · right
    split at h
    · cases h
    · split at h
      · cases h
      · split at h
        · cases h
        · cases h; simp_all

/-- Everything a load can do (R200, R209). -/
theorem State.loadInto_eq_next {s t : State} {sd a : Reg} {imm : BitVec 15} {n : Nat} {f : Word → Word}
    (h : s.loadInto sd a imm n f = .next t) :
    ∃ ea, accessAddress (s.effectiveAddress a imm) n = some ea ∧
      (ea = 0 ∧ t = s.raise .nullReference ∨
        ea ≠ 0 ∧ (s.readBytes ea n).2.write sd (f (s.readBytes ea n).1) = .next t) := by
  unfold State.loadInto at h
  split at h
  · cases h
  · next ea hea =>
    refine ⟨ea, hea, ?_⟩
    split at h
    · next h0 => cases h; exact .inl ⟨h0, rfl⟩
    · next h0 => exact .inr ⟨h0, h⟩

/-- Everything a store instruction can do (R200, R209). -/
theorem State.storeFrom_eq_next {s t : State} {sd a : Reg} {imm : BitVec 15} {n : Nat}
    (h : s.storeFrom sd a imm n = .next t) :
    ∃ ea, accessAddress (s.effectiveAddress a imm) n = some ea ∧
      (ea = 0 ∧ t = s.raise .nullReference ∨ ea ≠ 0 ∧ s.store ea n (s.read sd) = .next t) := by
  unfold State.storeFrom at h
  split at h
  · cases h
  · next ea hea =>
    refine ⟨ea, hea, ?_⟩
    split at h
    · next h0 => cases h; exact .inl ⟨h0, rfl⟩
    · next h0 => exact .inr ⟨h0, h⟩

/-- Alignment (R65): with `MISALIGNED` = refuse an access takes place at `ea` or nowhere. -/
theorem accessAddress_eq_some {ea b : Word} {n : Nat} (h : accessAddress ea n = some b) :
    b = ea ∧ ea.toNat % n = 0 := by
  unfold accessAddress at h
  split at h
  · next hm => cases h; exact ⟨rfl, hm⟩
  · cases h

/-! ## `HI`, `LO` and the division window -/

/-- Everything a multiplication can do (R233, R234). -/
theorem State.multiply_eq_next {s t : State} {p : BitVec 64} (h : s.multiply p = .next t) :
    s.landingNow = false ∧
      t = { s with hi := p.extractLsb' 32 32, lo := p.extractLsb' 0 32, hiLoOpen := false } := by
  unfold State.multiply at h
  split at h
  · cases h
  · cases h; simp_all

/-- Everything a division can do (R235, R236). -/
theorem State.divide_eq_next {s t : State} {b : Word} {qr : Option (Word × Word)}
    (h : s.divide b qr = .next t) :
    s.div = none ∧
      (b = 0 ∧ t = s.openHiLo.raise .zeroDivision ∨
        b ≠ 0 ∧ t = { s.openHiLo with div := qr.map fun x => ⟨x.1, x.2, 11⟩ }) := by
  unfold State.divide at h
  split at h
  · cases h
  · next hd =>
    have hd' : s.div = none := by simpa using hd
    refine ⟨hd', ?_⟩
    split at h
    · next h0 => cases h; exact .inl ⟨h0, rfl⟩
    · next h0 =>
      right
      refine ⟨h0, ?_⟩
      split at h
      · cases h; rfl
      · cases h
        show s.openHiLo = { s.openHiLo with div := none }
        rw [← hd']; rfl

/-- A read of `HI` or `LO` draws at most one free value and changes nothing else (R242). -/
theorem State.readHiLo_cases (s : State) (v : Word) :
    (s.hiLoOpen = false ∧ s.readHiLo v = (v, s)) ∨
      (s.hiLoOpen = true ∧ s.readHiLo v = (Config.freeWord s.drawn, s.draw 1)) := by
  unfold State.readHiLo
  cases h : s.hiLoOpen <;> simp

/-! ## Predication -/

/-- Everything predication can do (R133, R134). -/
theorem State.predicated_eq_next {s t : State} {c : Specifier} {f : Bool → State → Result}
    (h : s.predicated c f = .next t) :
    (condHolds c.cond (s.flagsOf s.cur) = true ∧ f c.freeze s = .next t) ∨
      (condHolds c.cond (s.flagsOf s.cur) = false ∧ t = s) := by
  unfold State.predicated at h
  split at h
  · next hc => exact .inl ⟨hc, h⟩
  · next hc => cases h; exact .inr ⟨by simpa using hc, rfl⟩

theorem State.runShort_eq (s : State) (f : Bool → State → Result) :
    s.runShort f =
      if condHolds s.shortSpecifier.cond (s.flagsOf s.cur) then f s.shortSpecifier.freeze s.popCondition
      else .next s.popCondition := by
  simp [State.runShort, State.predicated]

theorem State.runLong_eq (s : State) (c : Specifier) (f : Bool → State → Result) :
    s.runLong c f =
      if condHolds c.cond (s.flagsOf s.cur) then f c.freeze s.popCondition else .next s.popCondition := by
  simp [State.runLong, State.predicated]

end Sys2Proof.Machine
end

