-- ==== Sys2Proof/Laws/Access.lean ====
section
/-! SUPPORT. Loads and stores by the region of the address (20_memory.md R61, R62, R72): what an aligned read of
RAM or ROM gives, which regions an access covers, what a store does there. -/

namespace Sys2Proof.Machine
open Sys2Proof Sys2Proof.Config

/-- RAM and ROM are the addresses above 0 and below `0xF0000000`. -/
theorem backed_eq (a : Word) : backed a = decide (0 < a.toNat ∧ a.toNat < 0xF0000000) := by
  unfold backed Params.memmap
  have := a.isLt
  dsimp only
  split_ifs <;> simp <;> omega

/-- The next address, where it does not wrap. -/
theorem toNat_succ {a : Word} (h : a.toNat + 1 < 2^32) : (a + 1).toNat = a.toNat + 1 := by
  rw [BitVec.toNat_add, show (1 : Word).toNat = 1 from rfl, Nat.mod_eq_of_lt h]

/-- Addresses that lie between 0 and `0xF0000000` all hold RAM or ROM. -/
theorem allBacked_of (ea : Word) (n : Nat) (h0 : 0 < ea.toNat) (h1 : ea.toNat + n ≤ 0xF0000000) : allBacked ea n = true := by
  induction n generalizing ea with
  | zero => rfl
  | succ n ih =>
    have e : (ea + 1).toNat = ea.toNat + 1 := toNat_succ (by omega)
    rw [allBacked, backed_eq, ih _ (by omega) (by omega)]; simp; omega

theorem shiftLeft_or_byte (x : Word) (b : Byte) : x <<< 8 ||| b.setWidth 32 = x.extractLsb' 0 24 ++ b := by
  apply BitVec.eq_of_getLsbD_eq; intro k hk
  simp only [BitVec.getLsbD_or, BitVec.getLsbD_shiftLeft, BitVec.getLsbD_setWidth, BitVec.getLsbD_append, BitVec.getLsbD_extractLsb', hk, decide_true, Bool.true_and, Nat.zero_add]
  by_cases h : k < 8
  · simp only [h, decide_true, Bool.not_true, Bool.false_and, Bool.false_or, if_true]
  · have h2 : k - 8 < 24 := by omega
    simp only [h, h2, decide_true, decide_false, Bool.not_false, Bool.true_and, if_false, BitVec.getLsbD_of_ge b k (by omega), Bool.or_false]

/-- The byte at the lowest address is the least significant (R61). -/
theorem State.memRead_backed (s : State) (free ea : Word) (n : Nat) (h0 : 0 < ea.toNat) (h1 : ea.toNat + (n+1) ≤ 0xF0000000) :
    s.memRead free ea (n+1) = (s.memRead (free >>> 8) (ea+1) n).extractLsb' 0 24 ++ s.byteAt ea := by
  rw [State.memRead, backed_eq, if_pos (by simp; omega), shiftLeft_or_byte]

/-- A byte of RAM or ROM reads as it stands, and nothing is drawn. -/
theorem State.readBytes_one (s : State) (ea : Word) (h0 : 0 < ea.toNat) (h1 : ea.toNat + 1 ≤ 0xF0000000) :
    s.readBytes ea 1 = ((s.bytesFrom ea).setWidth 8 |>.setWidth 32, s) := by
  unfold State.readBytes; rw [allBacked_of _ _ h0 h1, if_pos rfl, State.memRead_backed _ _ _ _ h0 h1]
  congr 1
  simp only [State.memRead, State.bytesFrom]
  apply BitVec.eq_of_getLsbD_eq; intro k hk
  simp only [BitVec.getLsbD_append, BitVec.getLsbD_setWidth, BitVec.getLsbD_extractLsb', hk]
  split <;> simp_all

/-- Two bytes of RAM or ROM. -/
theorem State.readBytes_two (s : State) (ea : Word) (h0 : 0 < ea.toNat) (h1 : ea.toNat + 2 ≤ 0xF0000000) :
    s.readBytes ea 2 = ((s.bytesFrom ea).setWidth 16 |>.setWidth 32, s) := by
  have e : (ea + 1).toNat = ea.toNat + 1 := toNat_succ (by omega)
  unfold State.readBytes; rw [allBacked_of _ _ h0 h1, if_pos rfl, State.memRead_backed _ _ _ _ h0 h1, State.memRead_backed _ _ _ _ (by omega) (by omega)]
  congr 1
  simp only [State.memRead, State.bytesFrom]
  apply BitVec.eq_of_getLsbD_eq; intro k hk
  simp only [BitVec.getLsbD_append, BitVec.getLsbD_setWidth, BitVec.getLsbD_extractLsb', hk, Nat.zero_add]
  by_cases h : k < 8
  · have : k < 16 := by omega
    simp only [h, this, if_true, decide_true, Bool.true_and]
  · by_cases h2 : k < 16
    · have h3 : k - 8 < 24 := by omega
      have h4 : k - 8 < 8 := by omega
      simp only [h,h2, h3, h4, if_true, if_false, decide_true, Bool.true_and]
    · have h4 : ¬ k - 8 < 8 := by omega
      simp [h,h2,h4]

/-- Four bytes of RAM or ROM. -/
theorem State.readBytes_four (s : State) (ea : Word) (h0 : 0 < ea.toNat) (h1 : ea.toNat + 4 ≤ 0xF0000000) :
    s.readBytes ea 4 = (s.bytesFrom ea, s) := by
  have e : (ea + 1).toNat = ea.toNat + 1 := toNat_succ (by omega)
  have e2 : (ea + 1 + 1).toNat = ea.toNat + 2 := by rw [toNat_succ (by omega)]; omega
  have e3 : (ea + 1 + 1 + 1).toNat = ea.toNat + 3 := by rw [toNat_succ (by omega)]; omega
  unfold State.readBytes; rw [allBacked_of _ _ h0 h1, if_pos rfl, State.memRead_backed _ _ _ _ h0 h1, State.memRead_backed _ _ _ _ (by omega) (by omega), State.memRead_backed _ _ _ _ (by omega) (by omega), State.memRead_backed _ _ _ _ (by omega) (by omega)]
  congr 1
  have q2 : ea + 1 + 1 = ea + 2 := by rw [BitVec.add_assoc]; rfl
  have q3 : ea + 2 + 1 = ea + 3 := by rw [BitVec.add_assoc]; rfl
  rw [q2, q3]
  simp only [State.memRead, State.bytesFrom]
  apply BitVec.eq_of_getLsbD_eq; intro k hk
  simp only [BitVec.getLsbD_append,  BitVec.getLsbD_extractLsb', Nat.zero_add]
  by_cases h : k < 8
  · simp only [h, if_true]
  · have h3 : k - 8 < 24 := by omega
    by_cases h2 : k - 8 < 8
    · simp only [h,h2, h3, if_true, if_false, decide_true, Bool.true_and]
    · have h4 : k - 8 - 8 < 24 := by omega
      by_cases h5 : k - 8 - 8 < 8
      · simp only [h,h2, h3, h4, h5, if_true, if_false, decide_true, Bool.true_and]
      · have h6 : k - 8 - 8 - 8 < 8 := by omega
        have h7 : k - 8 - 8 - 8 < 24 := by omega
        simp only [h,h2, h3, h4, h5, h6, h7, if_true, if_false, decide_true, Bool.true_and]

/-! ## Stores -/

/-- The region of some of `n` addresses that do not wrap satisfies `p` exactly if one of them does. -/
theorem someAddress_iff (p : Region → Bool) (ea : Word) (n : Nat) (h : ea.toNat + n ≤ 2 ^ 32) :
    someAddress p ea n = true ↔ ∃ a : Word, ea.toNat ≤ a.toNat ∧ a.toNat < ea.toNat + n ∧ p (Params.memmap a) = true := by
  induction n generalizing ea with
  | zero => simp [someAddress]; intro a _ _; omega
  | succ n ih =>
    rw [someAddress, Bool.or_eq_true]
    constructor
    · rintro (h0 | h0)
      · exact ⟨ea, by omega, by omega, h0⟩
      · by_cases hn : n = 0
        · subst hn; simp [someAddress] at h0
        · have e : (ea + 1).toNat = ea.toNat + 1 := toNat_succ (by omega)
          obtain ⟨a, h1, h2, h3⟩ := (ih _ (by omega)).1 h0
          exact ⟨a, by omega, by omega, h3⟩
    · rintro ⟨a, h1, h2, h3⟩
      by_cases ha : a = ea
      · exact .inl (ha ▸ h3)
      · right
        have hne : a.toNat ≠ ea.toNat := fun e => ha (BitVec.eq_of_toNat_eq e)
        have e : (ea + 1).toNat = ea.toNat + 1 := toNat_succ (by have := a.isLt; omega)
        exact (ih _ (by omega)).2 ⟨a, by omega, by omega, h3⟩

theorem someAddress_false (p : Region → Bool) (ea : Word) (n : Nat) (h : ea.toNat + n ≤ 2 ^ 32)
    (hp : ∀ a : Word, ea.toNat ≤ a.toNat → a.toNat < ea.toNat + n → p (Params.memmap a) = false) :
    someAddress p ea n = false := by
  rw [Bool.eq_false_iff]
  intro hs
  obtain ⟨a, h1, h2, h3⟩ := (someAddress_iff p ea n h).1 hs
  rw [hp a h1 h2] at h3
  cases h3

/-- The map (R72): ROM. -/
theorem memmap_rom {a : Word} (h0 : 0 < a.toNat) (h1 : a.toNat < 0x10000) : Params.memmap a = .rom := by
  unfold Params.memmap; dsimp only
  rw [if_neg (by omega), if_pos (by omega)]

/-- The map (R72): RAM. -/
theorem memmap_ram {a : Word} (h0 : 0x10000 ≤ a.toNat) (h1 : a.toNat < 0xF0000000) : Params.memmap a = .ram := by
  unfold Params.memmap; dsimp only
  rw [if_neg (by omega), if_neg (by omega), if_pos (by omega)]

/-- The map (R72): nothing between RAM and the ports. -/
theorem memmap_nothing {a : Word} (h0 : 0xF0000000 ≤ a.toNat) (h1 : a.toNat < 0xFFFFFFFD) :
    Params.memmap a = .nothing := by
  unfold Params.memmap; dsimp only
  rw [if_neg (by omega), if_neg (by omega), if_neg (by omega), if_neg (by omega), if_neg (by omega),
    if_neg (by omega)]

/-- The map (R74): the three highest addresses are ports. -/
theorem memmap_port {a : Word} (h : 0xFFFFFFFD ≤ a.toNat) : isPort (Params.memmap a) = true := by
  unfold Params.memmap; dsimp only
  have := a.isLt
  split_ifs <;> first | rfl | omega

/-- A store that is not one byte to a port: by what the addresses hold (R62, R72, R75). -/
theorem State.store_not_port (s : State) (ea : Word) (n : Nat) (v : Word)
    (h : ∀ p, n = 1 → Params.memmap ea ≠ .port p) :
    s.store ea n v =
      if someAddress isPort ea n then .refused .wideStoreOverPort
      else if someAddress isRom ea n then .refused .storeToRom
      else if someAddress isNothing ea n then .refused .storeToNothing
      else .next { s with mem := Memory.write s.mem ea v n } := by
  unfold State.store
  split
  · next p hp => exact absurd hp (h p rfl)
  · rfl

/-- A store to RAM writes the bytes and nothing else (R62). -/
theorem State.store_ram (s : State) (ea : Word) (n : Nat) (v : Word) (hn : 0 < n) (h0 : 0x10000 ≤ ea.toNat)
    (h1 : ea.toNat + n ≤ 0xF0000000) : s.store ea n v = .next { s with mem := Memory.write s.mem ea v n } := by
  have hm : ∀ a : Word, ea.toNat ≤ a.toNat → a.toNat < ea.toNat + n → Params.memmap a = .ram :=
    fun a h2 h3 => memmap_ram (by omega) (by omega)
  rw [State.store_not_port s ea n v (fun p _ hp => by rw [hm ea (by omega) (by omega)] at hp; cases hp),
    someAddress_false isPort ea n (by omega) (fun a h2 h3 => by rw [hm a h2 h3]; rfl),
    someAddress_false isRom ea n (by omega) (fun a h2 h3 => by rw [hm a h2 h3]; rfl),
    someAddress_false isNothing ea n (by omega) (fun a h2 h3 => by rw [hm a h2 h3]; rfl)]
  rfl

/-- A store to ROM is refused (R62, R72). -/
theorem State.store_rom (s : State) (ea : Word) (n : Nat) (v : Word) (hn : 0 < n) (h0 : 0 < ea.toNat)
    (h1 : ea.toNat + n ≤ 0x10000) : s.store ea n v = .refused .storeToRom := by
  have hm : ∀ a : Word, ea.toNat ≤ a.toNat → a.toNat < ea.toNat + n → Params.memmap a = .rom :=
    fun a h2 h3 => memmap_rom (by omega) (by omega)
  rw [State.store_not_port s ea n v (fun p _ hp => by rw [hm ea (by omega) (by omega)] at hp; cases hp),
    someAddress_false isPort ea n (by omega) (fun a h2 h3 => by rw [hm a h2 h3]; rfl),
    (someAddress_iff isRom ea n (by omega)).2 ⟨ea, by omega, by omega, by rw [hm ea (by omega) (by omega)]; rfl⟩]
  rfl

/-- A store to addresses mapped to nothing is refused (R62, R72). -/
theorem State.store_nothing (s : State) (ea : Word) (n : Nat) (v : Word) (hn : 0 < n) (h0 : 0xF0000000 ≤ ea.toNat)
    (h1 : ea.toNat + n ≤ 0xFFFFFFFD) : s.store ea n v = .refused .storeToNothing := by
  have hm : ∀ a : Word, ea.toNat ≤ a.toNat → a.toNat < ea.toNat + n → Params.memmap a = .nothing :=
    fun a h2 h3 => memmap_nothing (by omega) (by omega)
  rw [State.store_not_port s ea n v (fun p _ hp => by rw [hm ea (by omega) (by omega)] at hp; cases hp),
    someAddress_false isPort ea n (by omega) (fun a h2 h3 => by rw [hm a h2 h3]; rfl),
    someAddress_false isRom ea n (by omega) (fun a h2 h3 => by rw [hm a h2 h3]; rfl),
    (someAddress_iff isNothing ea n (by omega)).2 ⟨ea, by omega, by omega, by rw [hm ea (by omega) (by omega)]; rfl⟩]
  rfl

/-- A store of more than one byte that covers a port is refused (R75). -/
theorem State.store_wide_port (s : State) (ea : Word) (n : Nat) (v : Word) (hn : 2 ≤ n)
    (h0 : 0xFFFFFFFD < ea.toNat + n) (h1 : ea.toNat + n ≤ 2 ^ 32) : s.store ea n v = .refused .wideStoreOverPort := by
  rw [State.store_not_port s ea n v fun p h => by omega]
  · rw [(someAddress_iff isPort ea n h1).2 ?_]
    · rfl
    · by_cases h2 : 0xFFFFFFFD ≤ ea.toNat
      · exact ⟨ea, by omega, by omega, memmap_port h2⟩
      · exact ⟨0xFFFFFFFD, by simp; omega, by simp; omega, by rfl⟩

/-- A store of one byte to a port is one output event and nothing else (R75). -/
theorem State.store_port (s : State) (ea v : Word) (p : Port) (h : Params.memmap ea = .port p) :
    s.store ea 1 v = .next { s with outputs := s.outputs ++ [⟨p, v.extractLsb' 0 8⟩] } := by
  unfold State.store
  split
  · next q hq => rw [h] at hq; cases hq; rfl
  · next hx => exact absurd h (hx p rfl)

end Sys2Proof.Machine
end

