-- ==== Sys2Proof/Laws/Decode.lean ====
section
/-! SUPPORT. What a decoder of a format reads from the bits its encoder wrote (30_encoding.md R95 to R101). -/

namespace Sys2Proof

@[simp] theorem Reg.ofBits_bits (r : Reg) : Reg.ofBits r.bits = r := by cases r <;> rfl
@[simp] theorem Cond.ofBits_bits (c : Cond) : Cond.ofBits c.bits = c := by cases c <;> rfl

@[simp] theorem Specifier.ofBits_bits (c : Specifier) : Specifier.ofBits c.bits = c := by
  obtain ⟨f, c⟩ := c
  cases f <;> cases c <;> decide

theorem Reg.bits_ofBits (b : BitVec 4) : (Reg.ofBits b).bits = b := by
  revert b; decide

theorem Specifier.bits_ofBits (b : BitVec 4) : (Specifier.ofBits b).bits = b := by
  revert b; decide

theorem Reg.bits_eq_zero {r : Reg} (h : r.bits = 0) : r = .r0 := by
  cases r <;> first | rfl | exact absurd h (by decide)

/-- A bit of a field is a bit of the word. -/
theorem getLsbD_of_extract {n : Nat} (w : BitVec n) (k len i : Nat) (hk : k ≤ i) (hi : i < k + len) :
    w.getLsbD i = (w.extractLsb' k len).getLsbD (i - k) := by
  rw [BitVec.getLsbD_extractLsb']
  have h1 : i - k < len := by omega
  have h2 : k + (i - k) = i := by omega
  simp [h1, h2]

/-- The fields of the Short format read back (R95, R96). -/
theorem short_fields (op : BitVec 3) (d s1 s2 : BitVec 4) :
    (0#1 ++ op ++ d ++ s1 ++ s2).extractLsb' 8 4 = d ∧
    (0#1 ++ op ++ d ++ s1 ++ s2).extractLsb' 4 4 = s1 ∧
    (0#1 ++ op ++ d ++ s1 ++ s2).extractLsb' 0 4 = s2 ∧
    (0#1 ++ op ++ d ++ s1 ++ s2).extractLsb' 12 3 = op ∧
    (0#1 ++ op ++ d ++ s1 ++ s2).getLsbD 15 = false := by
  have top : (0#1 ++ op ++ d ++ s1 ++ s2).extractLsb' 15 1 = 0#1 := by
    simp (disch := decide) only [BitVec.extractLsb'_append_eq_of_le, Nat.reduceSub, BitVec.extractLsb'_eq_self]
  refine ⟨?_, ?_, ?_, ?_, ?_⟩
  case refine_5 => rw [getLsbD_of_extract _ 15 1 15 (by decide) (by decide), top]; rfl
  all_goals
    simp (disch := decide) only [BitVec.extractLsb'_append_eq_of_le, BitVec.extractLsb'_append_eq_of_add_le,
      Nat.reduceSub, BitVec.extractLsb'_eq_self]

/-- The fields of the Immediate format read back (R97). -/
theorem immediate_fields (op : BitVec 3) (d s : BitVec 4) (imm : BitVec 14) (c : BitVec 4) :
    (0b100#3 ++ op ++ d ++ s ++ imm ++ c).extractLsb' 26 3 = op ∧
    (0b100#3 ++ op ++ d ++ s ++ imm ++ c).extractLsb' 22 4 = d ∧
    (0b100#3 ++ op ++ d ++ s ++ imm ++ c).extractLsb' 18 4 = s ∧
    (0b100#3 ++ op ++ d ++ s ++ imm ++ c).extractLsb' 4 14 = imm ∧
    (0b100#3 ++ op ++ d ++ s ++ imm ++ c).extractLsb' 0 4 = c ∧
    (0b100#3 ++ op ++ d ++ s ++ imm ++ c).extractLsb' 29 3 = 0b100#3 := by
  refine ⟨?_, ?_, ?_, ?_, ?_, ?_⟩
  all_goals
    simp (disch := decide) only [BitVec.extractLsb'_append_eq_of_le, BitVec.extractLsb'_append_eq_of_add_le,
      Nat.reduceSub, BitVec.extractLsb'_eq_self]

/-- The fields of the Load/store format read back (R98). -/
theorem loadStore_fields (op : BitVec 3) (sd a : BitVec 4) (imm : BitVec 15) (c : BitVec 4) :
    (0b11#2 ++ op ++ sd ++ a ++ imm ++ c).extractLsb' 27 3 = op ∧
    (0b11#2 ++ op ++ sd ++ a ++ imm ++ c).extractLsb' 23 4 = sd ∧
    (0b11#2 ++ op ++ sd ++ a ++ imm ++ c).extractLsb' 19 4 = a ∧
    (0b11#2 ++ op ++ sd ++ a ++ imm ++ c).extractLsb' 4 15 = imm ∧
    (0b11#2 ++ op ++ sd ++ a ++ imm ++ c).extractLsb' 0 4 = c ∧
    (0b11#2 ++ op ++ sd ++ a ++ imm ++ c).extractLsb' 30 2 = 0b11#2 := by
  refine ⟨?_, ?_, ?_, ?_, ?_, ?_⟩
  all_goals
    simp (disch := decide) only [BitVec.extractLsb'_append_eq_of_le, BitVec.extractLsb'_append_eq_of_add_le,
      Nat.reduceSub, BitVec.extractLsb'_eq_self]

/-- The fields of the `LDI` format read back (R99). -/
theorem ldi_fields (d : BitVec 4) (imm : BitVec 20) (c : BitVec 4) :
    (0b1010#4 ++ d ++ imm ++ c).extractLsb' 24 4 = d ∧
    (0b1010#4 ++ d ++ imm ++ c).extractLsb' 4 20 = imm ∧
    (0b1010#4 ++ d ++ imm ++ c).extractLsb' 0 4 = c ∧
    (0b1010#4 ++ d ++ imm ++ c).extractLsb' 28 4 = 0b1010#4 := by
  refine ⟨?_, ?_, ?_, ?_⟩
  all_goals
    simp (disch := decide) only [BitVec.extractLsb'_append_eq_of_le, BitVec.extractLsb'_append_eq_of_add_le,
      Nat.reduceSub, BitVec.extractLsb'_eq_self]

/-- The fields of the Misc formats read back (R100, R101). -/
theorem misc_fields (op : BitVec 3) (f1 f2 : BitVec 4) (u : BitVec 13) (c : BitVec 4) :
    (0b1011#4 ++ op ++ f1 ++ f2 ++ u ++ c).extractLsb' 25 3 = op ∧
    (0b1011#4 ++ op ++ f1 ++ f2 ++ u ++ c).extractLsb' 21 4 = f1 ∧
    (0b1011#4 ++ op ++ f1 ++ f2 ++ u ++ c).extractLsb' 17 4 = f2 ∧
    (0b1011#4 ++ op ++ f1 ++ f2 ++ u ++ c).extractLsb' 0 4 = c ∧
    (0b1011#4 ++ op ++ f1 ++ f2 ++ u ++ c).extractLsb' 28 4 = 0b1011#4 := by
  refine ⟨?_, ?_, ?_, ?_, ?_⟩
  all_goals
    simp (disch := decide) only [BitVec.extractLsb'_append_eq_of_le, BitVec.extractLsb'_append_eq_of_add_le,
      Nat.reduceSub, BitVec.extractLsb'_eq_self]

/-- A word whose leading bits are `11` decodes as a load or store (R91). -/
theorem decodeLong_of_11 (w : Word) (h : w.extractLsb' 30 2 = 0b11#2) : decodeLong w = .ok (decodeLoadStore w) := by
  have h31 : w.getLsbD 31 = true := by rw [getLsbD_of_extract w 30 2 31 (by decide) (by decide), h]; rfl
  have h30 : w.getLsbD 30 = true := by rw [getLsbD_of_extract w 30 2 30 (by decide) (by decide), h]; rfl
  unfold decodeLong
  rw [h31, h30]; rfl

/-- A word whose leading bits are `100` decodes as an immediate instruction (R91). -/
theorem decodeLong_of_100 (w : Word) (h : w.extractLsb' 29 3 = 0b100#3) : decodeLong w = .ok (decodeImmediate w) := by
  have h31 : w.getLsbD 31 = true := by rw [getLsbD_of_extract w 29 3 31 (by decide) (by decide), h]; rfl
  have h30 : w.getLsbD 30 = false := by rw [getLsbD_of_extract w 29 3 30 (by decide) (by decide), h]; rfl
  have h29 : w.getLsbD 29 = false := by rw [getLsbD_of_extract w 29 3 29 (by decide) (by decide), h]; rfl
  unfold decodeLong
  rw [h31, h30, h29]; rfl

/-- A word whose leading bits are `1010` decodes as `LDI` (R91). -/
theorem decodeLong_of_1010 (w : Word) (h : w.extractLsb' 28 4 = 0b1010#4) : decodeLong w = .ok (decodeLdi w) := by
  have h31 : w.getLsbD 31 = true := by rw [getLsbD_of_extract w 28 4 31 (by decide) (by decide), h]; rfl
  have h30 : w.getLsbD 30 = false := by rw [getLsbD_of_extract w 28 4 30 (by decide) (by decide), h]; rfl
  have h29 : w.getLsbD 29 = true := by rw [getLsbD_of_extract w 28 4 29 (by decide) (by decide), h]; rfl
  have h28 : w.getLsbD 28 = false := by rw [getLsbD_of_extract w 28 4 28 (by decide) (by decide), h]; rfl
  unfold decodeLong
  rw [h31, h30, h29, h28]; rfl

/-- A word whose leading bits are `1011` decodes as a Misc instruction (R91). -/
theorem decodeLong_of_1011 (w : Word) (h : w.extractLsb' 28 4 = 0b1011#4) : decodeLong w = .ok (decodeMisc w) := by
  have h31 : w.getLsbD 31 = true := by rw [getLsbD_of_extract w 28 4 31 (by decide) (by decide), h]; rfl
  have h30 : w.getLsbD 30 = false := by rw [getLsbD_of_extract w 28 4 30 (by decide) (by decide), h]; rfl
  have h29 : w.getLsbD 29 = true := by rw [getLsbD_of_extract w 28 4 29 (by decide) (by decide), h]; rfl
  have h28 : w.getLsbD 28 = true := by rw [getLsbD_of_extract w 28 4 28 (by decide) (by decide), h]; rfl
  unfold decodeLong
  rw [h31, h30, h29, h28]; rfl

/-- The halfword of three registers is zero only if all its fields are. -/
theorem short_eq_zero {op : BitVec 3} {d s1 s2 : BitVec 4} (h : (0#1 ++ op ++ d ++ s1 ++ s2 : Half) = 0) :
    op = 0 ∧ d = 0 ∧ s1 = 0 ∧ s2 = 0 := by
  obtain ⟨hd, h1, h2, ho, _⟩ := short_fields op d s1 s2
  rw [h] at hd h1 h2 ho
  exact ⟨ho ▸ by decide, hd ▸ by decide, h1 ▸ by decide, h2 ▸ by decide⟩

/-- The Short format read back (R95, R96): what `decodeShort` answers for a halfword that is not `0x0000`. -/
theorem decodeShort_fields (op : BitVec 3) (d s1 s2 : BitVec 4) (h0 : (0#1 ++ op ++ d ++ s1 ++ s2 : Half) ≠ 0) :
    decodeShort (0#1 ++ op ++ d ++ s1 ++ s2) = match op.toNat with
      | 0 => .ok (.add (Reg.ofBits d) (Reg.ofBits s1) (Reg.ofBits s2))
      | 1 => .ok (.sub (Reg.ofBits d) (Reg.ofBits s1) (Reg.ofBits s2))
      | 2 => .ok (.lsh (Reg.ofBits d) (Reg.ofBits s1) (Reg.ofBits s2))
      | 3 => .ok (.ash (Reg.ofBits d) (Reg.ofBits s1) (Reg.ofBits s2))
      | 4 => .ok (.and (Reg.ofBits d) (Reg.ofBits s1) (Reg.ofBits s2))
      | 5 => .ok (.or (Reg.ofBits d) (Reg.ofBits s1) (Reg.ofBits s2))
      | 6 => .ok (.xor (Reg.ofBits d) (Reg.ofBits s1) (Reg.ofBits s2))
      | _ => .ok (.cnd (Specifier.ofBits d) (Specifier.ofBits s1) (Specifier.ofBits s2)) := by
  obtain ⟨hd, h1, h2, ho, hb⟩ := short_fields op d s1 s2
  unfold decodeShort
  rw [if_neg h0]
  simp only [hd, h1, h2, ho, hb]
  rfl

end Sys2Proof
end

