-- ==== Sys2Proof/Laws/Exec.lean ====
section
/-! SUPPORT. What an instruction can do, said once for all 34, and what a step can do, said once: every invariant
is a case analysis over these two. -/

namespace Sys2Proof.Machine
open Sys2Proof Sys2Proof.Config

/-- Every way in which the action of an instruction takes the state `u`, whose queue entry is already gone, to
a next state. -/
inductive ActionTo (u : State) : State → Prop where
  /-- Nothing: a condition that does not hold, or `NOP`. -/
  | skip : ActionTo u u
  /-- `CND` fills the queue. -/
  | queue (c1 c2 c3 : Specifier) : ActionTo u { u with cndq := [c1, c2, c3] }
  /-- One of the fourteen ALU instructions. -/
  | alu (d : Reg) (out : AluOut) (freeze : Bool) (t : State) (h : u.writeAlu d out freeze = .next t) : ActionTo u t
  /-- A register is written, after at most one free value has been drawn. -/
  | write (k : Nat) (d : Reg) (v : Word) (t : State) (h : (u.draw k).write d v = .next t) : ActionTo u t
  /-- A fault is taken. -/
  | raise (e : Event) : ActionTo u (u.raise e)
  /-- A store. -/
  | store (ea : Word) (n : Nat) (v : Word) (t : State) (h : u.store ea n v = .next t) : ActionTo u t
  /-- A multiplication. -/
  | multiply (p : BitVec 64) (t : State) (h : u.multiply p = .next t) : ActionTo u t
  /-- A division. -/
  | divide (b : Word) (qr : Option (Word × Word)) (t : State) (h : u.divide b qr = .next t) : ActionTo u t
  /-- `MVUS` to `uSR`, in supervisor mode. -/
  | userSr (hc : u.cur = .supervisor) (v : Word) (t : State) (h : u.srWrite .user v = .next t) : ActionTo u t
  /-- `MVUS` to another user register, in supervisor mode. -/
  | userReg (hc : u.cur = .supervisor) (d : Reg) (v : Word) :
      ActionTo u (u.withRegs .user ((u.regs .user).store d v))

theorem ActionTo.of_predicated {u t : State} {c : Specifier} {f : Bool → State → Result}
    (hf : ∀ fr t, f fr u = .next t → ActionTo u t) (h : u.predicated c f = .next t) : ActionTo u t := by
  rcases State.predicated_eq_next h with ⟨_, h⟩ | ⟨_, rfl⟩
  · exact hf _ _ h
  · exact .skip

theorem ActionTo.of_loadInto {u t : State} {sd a : Reg} {imm : BitVec 15} {n : Nat} {f : Word → Word}
    (h : u.loadInto sd a imm n f = .next t) : ActionTo u t := by
  obtain ⟨ea, _, ⟨_, rfl⟩ | ⟨_, hw⟩⟩ := State.loadInto_eq_next h
  · exact .raise _
  · rcases State.readBytes_cases u ea n with ⟨_, hr⟩ | ⟨_, hr⟩
    · rw [hr] at hw; exact .write 0 _ _ _ hw
    · rw [hr] at hw; exact .write 1 _ _ _ hw

theorem ActionTo.of_storeFrom {u t : State} {sd a : Reg} {imm : BitVec 15} {n : Nat}
    (h : u.storeFrom sd a imm n = .next t) : ActionTo u t := by
  obtain ⟨ea, _, ⟨_, rfl⟩ | ⟨_, hw⟩⟩ := State.storeFrom_eq_next h
  · exact .raise _
  · exact .store _ _ _ _ hw

theorem ActionTo.of_readHiLo {u t : State} {d : Reg} {v : Word}
    (h : (u.readHiLo v).2.write d (u.readHiLo v).1 = .next t) : ActionTo u t := by
  rcases State.readHiLo_cases u v with ⟨_, hr⟩ | ⟨_, hr⟩
  · rw [hr] at h; exact .write 0 _ _ _ h
  · rw [hr] at h; exact .write 1 _ _ _ h

/-! ### No action counts a step -/

theorem State.srWrite_steps {s t : State} {m : Mode} {v : Word} (h : s.srWrite m v = .next t) : t.steps = s.steps := by
  obtain ⟨_, _, ⟨_, rfl⟩ | ⟨_, _, rfl⟩⟩ := State.srWrite_eq_next h <;> simp

theorem State.write_steps {s t : State} {d : Reg} {v : Word} (h : s.write d v = .next t) : t.steps = s.steps := by
  by_cases hd : d = .sr
  · subst hd; exact State.srWrite_steps h
  · rw [State.write_of_ne_sr s v hd] at h; cases h; simp

theorem ActionTo.steps {u t : State} (h : ActionTo u t) : t.steps = u.steps := by
  cases h with
  | skip => rfl
  | queue => rfl
  | alu d out fr _ h =>
    obtain ⟨v, hv, ht⟩ := Result.andThen_eq_next h
    cases ht
    rw [← State.write_steps hv]
    split_ifs <;> simp
  | write k d v _ h => exact (State.write_steps h).trans (State.draw_steps u k)
  | raise => simp [State.raise]
  | store _ _ _ _ h => rcases State.store_eq_next h with ⟨_, _, _, rfl⟩ | ⟨_, _, _, rfl⟩ <;> rfl
  | multiply _ _ h => obtain ⟨_, rfl⟩ := State.multiply_eq_next h; rfl
  | divide _ _ _ h => obtain ⟨_, ⟨_, rfl⟩ | ⟨_, rfl⟩⟩ := State.divide_eq_next h <;> simp [State.raise]
  | userSr _ _ _ h => exact State.srWrite_steps h
  | userReg => simp

/-- An instruction is an action under its specifier, once its queue entry is gone (R133, R137, R139). -/
theorem exec_eq_predicated (i : Instr) (s : State) :
    ∃ f, exec i s = s.popCondition.predicated (s.specifierOf i) f := by
  cases i <;>
    simp only [exec, execNop, execAdd, execSub, execLsh, execAsh, execAnd, execOr, execXor, execCnd, execAddi,
      execSubi, execLshi, execAshi, execAndi, execOri, execXori, execLdh, execLdi, execMltu, execMlts, execDivu,
      execDivs, execMvsu, execMvus, execMvhi, execMvlo, execLw, execSw, execSh, execSb, execLhu, execLhs,
      execLbu, execLbs, State.runShortAlu, State.runImmediateAlu, State.runShort, State.runLong,
      State.specifierOf] <;>
    exact ⟨_, rfl⟩

/-- An instruction whose condition does not hold does nothing but take its queue entry (R133). -/
theorem exec_of_not_passes {i : Instr} {s : State} (h : ¬ s.passes i) : exec i s = .next s.popCondition := by
  obtain ⟨f, hf⟩ := exec_eq_predicated i s
  have h' : condHolds (s.specifierOf i).cond (s.flagsOf s.cur) = false := by simpa [State.passes] using h
  rw [hf]
  simp [State.predicated, h']

/-- Everything an instruction can do: its queue entry goes, then its action. -/
theorem exec_eq_next {i : Instr} {s t : State} (h : exec i s = .next t) : ActionTo s.popCondition t := by
  cases i <;>
    simp only [exec, execNop, execAdd, execSub, execLsh, execAsh, execAnd, execOr, execXor, execCnd, execAddi,
      execSubi, execLshi, execAshi, execAndi, execOri, execXori, execLdh, execLdi, execMltu, execMlts, execDivu,
      execDivs, execMvsu, execMvus, execMvhi, execMvlo, execLw, execSw, execSh, execSb, execLhu, execLhs,
      execLbu, execLbs, State.runShortAlu, State.runImmediateAlu, State.runShort, State.runLong] at h <;>
    refine ActionTo.of_predicated (fun fr u hu => ?_) h
  case nop => cases hu; exact .skip
  case cnd => cases hu; exact .queue _ _ _
  case add | sub | lsh | ash | and | or | xor | addi | subi | lshi | ashi | andi | ori | xori =>
    exact .alu _ _ _ _ hu
  case ldh | ldi => exact .write 0 _ _ _ hu
  case mltu | mlts => exact .multiply _ _ hu
  case divu | divs => exact .divide _ _ _ hu
  case lw | lhu | lhs | lbu | lbs => exact .of_loadInto hu
  case sw | sh | sb => exact .of_storeFrom hu
  case mvhi | mvlo => exact .of_readHiLo hu
  case mvsu =>
    split at hu
    · cases hu; exact .raise _
    · exact .write 0 _ _ _ hu
  case mvus =>
    split at hu
    · cases hu; exact .raise _
    · next hc =>
      split at hu
      · exact .userSr hc _ _ hu
      · cases hu; exact .userReg hc _ _

/-- Every way in which a step takes a state to a next state (10_state.md R30), for a value of `IRQ`. -/
inductive StepTo (irq : Irq) (s : State) : State → Prop where
  /-- A halted CPU stays as it is (R286). -/
  | halted (h : s.halted = true) : StepTo irq s s
  /-- An interrupt at the boundary (R290). -/
  | interrupt (hh : s.halted = false) (h : s.interruptTaken irq = true) : StepTo irq s s.countStep.takeInterrupt
  /-- The fetch from word 0 (R71). -/
  | nullFetch (hh : s.halted = false) (hi : s.interruptTaken irq = false) (h : wordAddress s.pc = 0) :
      StepTo irq s (s.countStep.raiseAt .nullReference s.pc)
  /-- An illegal halfword, after the fetch (R106). -/
  | illegal (hh : s.halted = false) (hi : s.interruptTaken irq = false) (k : Nat) (p : Word) :
      StepTo irq s ((s.countStep.draw k).raiseAt .illegalOpcode p)
  /-- An instruction ran. -/
  | ran (hh : s.halted = false) (hi : s.interruptTaken irq = false) (k : Nat) (npc : Word) (i : Instr) (u : State)
      (h : exec i ((s.countStep.draw k).withPc npc).tickBefore = .next u) : StepTo irq s u.tickAfter

theorem State.decodeFetched_eq_over {t : State} {a w : Word} {o : Result}
    (h : t.decodeFetched a w = .over o) :
    o = .refused .pcInsideLongInstruction ∨ ∃ p, o = .next (t.raiseAt .illegalOpcode p) := by
  unfold State.decodeFetched at h
  split at h
  · cases h
  · cases h; exact .inl rfl
  · cases h; exact .inr ⟨_, rfl⟩

theorem State.decodeFetched_eq_run {t : State} {a w : Word} {i : Instr} {u : State}
    (h : t.decodeFetched a w = .run i u) :
    decodeSlot (slotOf a) w = .ok i ∧ u = (t.withPc (a + advance (slotOf a) w)).tickBefore := by
  unfold State.decodeFetched at h
  split at h
  · next hd => cases h; exact ⟨hd, rfl⟩
  · cases h
  · cases h

/-- The fetch of the instruction word draws at most one free value and changes nothing else. -/
theorem State.fetchWord_snd (s : State) : ∃ k, s.fetchWord.2 = s.draw k := by
  unfold State.fetchWord
  rcases State.readBytes_cases s (wordAddress s.pc) 4 with ⟨_, h⟩ | ⟨_, h⟩
  · exact ⟨0, by rw [h]; rfl⟩
  · exact ⟨1, by rw [h]⟩

theorem Result.finish_eq_next {o : Result} {t : State} (h : o.finish = .next t) :
    ∃ u, o = .next u ∧ t = u.tickAfter := by
  obtain ⟨u, hu, ht⟩ := Result.andThen_eq_next h
  cases ht
  exact ⟨u, hu, rfl⟩

/-- What the fetch at `pc` can be over with (R30, R288). -/
theorem State.fetchAtPc_eq_over {s : State} {o : Result} (h : s.fetchAtPc = .over o) :
    (∃ r, o = .refused r) ∨
      (wordAddress s.pc = 0 ∧ o = .next (s.raiseAt .nullReference s.pc)) ∨
      ∃ k p, o = .next ((s.draw k).raiseAt .illegalOpcode p) := by
  unfold State.fetchAtPc at h
  split_ifs at h with h1 h2 h3
  · cases h; exact .inl ⟨_, rfl⟩
  · cases h; exact .inl ⟨_, rfl⟩
  · cases h; exact .inr (.inl ⟨h3.1, rfl⟩)
  · obtain ⟨k, hk⟩ := State.fetchWord_snd s
    rw [hk] at h
    rcases State.decodeFetched_eq_over h with rfl | ⟨p, rfl⟩
    · exact .inl ⟨_, rfl⟩
    · exact .inr (.inr ⟨k, p, rfl⟩)

/-- The state in which a fetched instruction runs: `pc` set, the window told, at most one free value drawn (R30). -/
theorem State.fetchAtPc_eq_run {s u : State} {i : Instr} (h : s.fetchAtPc = .run i u) :
    ∃ k p, u = ((s.draw k).withPc p).tickBefore := by
  unfold State.fetchAtPc at h
  split_ifs at h with h1 h2 h3
  obtain ⟨_, hu⟩ := State.decodeFetched_eq_run h
  obtain ⟨k, hk⟩ := State.fetchWord_snd s
  rw [hk] at hu
  exact ⟨k, _, hu⟩

/-- The three parts of the fetch (R30): the halt, the interrupt, the fetch at `pc`. -/
theorem State.fetch_cases (s : State) (irq : Irq) :
    (s.halted = true ∧ s.fetch irq = .over (.next s)) ∨
      (s.halted = false ∧ s.interruptTaken irq = true ∧ s.fetch irq = .over (.next s.countStep.takeInterrupt)) ∨
      (s.halted = false ∧ s.interruptTaken irq = false ∧ s.fetch irq = s.countStep.fetchAtPc) := by
  unfold State.fetch
  cases s.halted <;> cases s.interruptTaken irq <;> simp

/-- Everything a step can do. -/
theorem stepUnder_eq_next {irq : Irq} {s t : State} (h : stepUnder irq s = .next t) : StepTo irq s t := by
  unfold stepUnder at h
  rcases State.fetch_cases s irq with ⟨hh, hf⟩ | ⟨hh, hi, hf⟩ | ⟨hh, hi, hf⟩
  · rw [hf] at h; cases h; exact .halted hh
  · rw [hf] at h; cases h; exact .interrupt hh hi
  · rw [hf] at h
    split at h
    · next ho =>
      rcases State.fetchAtPc_eq_over ho with ⟨r, rfl⟩ | ⟨hw, rfl⟩ | ⟨k, p, rfl⟩
      · cases h
      · cases h
        rw [State.countStep_pc] at hw ⊢
        exact .nullFetch hh hi hw
      · cases h; exact .illegal hh hi k p
    · next hr =>
      obtain ⟨k, p, rfl⟩ := State.fetchAtPc_eq_run hr
      obtain ⟨u, hu, rfl⟩ := Result.finish_eq_next h
      exact .ran hh hi k p _ u hu

theorem step_eq_next {s t : State} (h : step s = .next t) : StepTo Params.irq s t :=
  stepUnder_eq_next h

end Sys2Proof.Machine
end

