-- ==== Sys2Proof/Laws/Effects.lean ====
section
/-! SUPPORT. What the shared operations have done, in the terms of Sys2Proof/Safety.lean: a register written, an ALU
result written, `SR` written, a fault taken; after the queue entry of the instruction is gone. -/

namespace Sys2Proof.Machine
open Sys2Proof Sys2Proof.Config

/-- A short instruction whose condition holds runs its action (R133, R137). -/
theorem State.runShort_of_holds {s : State} {f : Bool → State → Result}
    (h : condHolds s.shortSpecifier.cond (s.flagsOf s.cur) = true) :
    s.runShort f = f s.shortSpecifier.freeze s.popCondition := by
  rw [State.runShort_eq, if_pos h]

/-- A long instruction whose condition holds runs its action (R133, R139). -/
theorem State.runLong_of_holds {s : State} {c : Specifier} {f : Bool → State → Result}
    (h : condHolds c.cond (s.flagsOf s.cur) = true) : s.runLong c f = f c.freeze s.popCondition := by
  rw [State.runLong_eq, if_pos h]

/-- Two states with the same current mode, of which `u` is `s` but for the queue and what has been drawn. -/
structure Begun (s u : State) : Prop where
  sup : u.sup = s.sup
  usr : u.usr = s.usr
  cur : u.cur = s.cur
  queue : u.cndq = s.cndq.tail
  hiLo : SameHiLo s u
  window : u.div = s.div
  control : SameControl s u
  mem : u.mem = s.mem

theorem Begun.regs {s u : State} (h : Begun s u) (m : Mode) : u.regs m = s.regs m := by
  cases m
  · exact h.sup
  · exact h.usr

theorem Begun.of_draw (s : State) (k : Nat) : Begun s (s.popCondition.draw k) :=
  ⟨rfl, rfl, rfl, rfl, ⟨rfl, rfl, rfl⟩, rfl, ⟨rfl, rfl, rfl⟩, rfl⟩

/-- A register other than `SR` written (R6). -/
theorem MoveDone.of_begun {s u : State} (h : Begun s u) {d : Reg} (hd : d ≠ .sr) (v : Word) :
    ∃ t, u.write d v = .next t ∧ MoveDone s t d v := by
  have hr : ∀ m r, (u.withRegs u.cur ((u.regs u.cur).store d v)).reg m r =
      if m = s.cur ∧ r = d then (if d = .r0 then 0 else v) else s.reg m r := by
    intro m r
    rw [State.reg_withRegs_store _ _ _ _ hd, h.cur]
    simp only [State.reg, h.regs]
  refine ⟨_, State.write_of_ne_sr u v hd, ?_⟩
  obtain ⟨h1, h2, h3⟩ := h.hiLo
  obtain ⟨c1, c2, c3⟩ := h.control
  refine ⟨?_, ?_, ?_, ?_, ?_, ?_, ?_, ?_⟩
  · rw [Received, hr]; simp
  · intro m r _ hn; rw [hr, if_neg hn]
  · intro m; rw [State.flagsOf_withRegs_store]; simp only [State.flagsOf, h.regs]
  · simpa [QueueConsumed] using h.queue
  · simpa [SameHiLo] using ⟨h1, h2, h3⟩
  · simpa using h.window
  · simpa [SameControl] using ⟨c1, c2, c3⟩
  · intro a; simp [h.mem]

/-- A register other than `SR` written, after `k` free values have been drawn. -/
theorem MoveDone.of_write (s : State) (k : Nat) {d : Reg} (hd : d ≠ .sr) (v : Word) :
    ∃ t, (s.popCondition.draw k).write d v = .next t ∧ MoveDone s t d v :=
  MoveDone.of_begun (Begun.of_draw s k) hd v

/-- The end of an ALU instruction whose destination is not `SR` (R150): the move, then the flags. -/
theorem AluDone.of_writeAlu (s : State) {d : Reg} (hd : d ≠ .sr) (out : AluOut) (fr : Bool) :
    ∃ t, s.popCondition.writeAlu d out fr = .next t ∧ AluDone s t d fr out.r out.cv := by
  obtain ⟨u, hu, hm⟩ := MoveDone.of_write s 0 hd out.r
  have hu' : s.popCondition.write d out.r = .next u := hu
  have hc : u.cur = s.cur := hm.control.1
  cases fr
  · refine ⟨u.setAluFlags s.cur out, by simp [State.writeAlu, hu', hd], ?_⟩
    obtain ⟨h1, h2, h3⟩ := hm.hiLo
    obtain ⟨c1, c2, c3⟩ := hm.control
    refine ⟨?_, ?_, ?_, nofun, ?_, ?_, ?_, ?_, ?_, ?_⟩
    · rw [Received, State.setAluFlags_reg _ _ _ _ hd]; exact hm.received
    · intro m r hr hn; rw [State.setAluFlags_reg _ _ _ _ hr]; exact hm.registers m r hr hn
    · intro m hne; rw [State.setAluFlags_flagsOf_ne _ _ hne]; exact hm.flags m
    · intro _
      refine ⟨(out.cv.map Prod.fst).getD (Config.freeBit u.drawn),
        (out.cv.map Prod.snd).getD (Config.freeBit (u.drawn + 1)), ?_, ?_⟩
      · rw [State.setAluFlags_flagsOf, hm.flags, BitVec.msb_eq_getLsbD_last]; rfl
      · intro x hx; simp [hx]
    · simpa [QueueConsumed] using hm.queue
    · simpa [SameHiLo] using ⟨h1, h2, h3⟩
    · simpa using hm.window
    · simpa [SameControl] using ⟨c1, c2, c3⟩
    · intro a; simpa using hm.memory a
  · exact ⟨u, by simp [State.writeAlu, hu'], hm.received, hm.registers, fun m _ => hm.flags m,
      fun _ => hm.flags _, nofun, hm.queue, hm.hiLo, hm.window, hm.control, hm.memory⟩

/-- `SR` written by a value that names the current mode (R35). -/
theorem SrDone.of_same_mode {s u : State} (h : Begun s u) {v : Word} (h7 : v.getLsbD 7 = false)
    (h8 : v.getLsbD 8 = false) (hm : modeOfBit (v.getLsbD 4) = s.cur) :
    SrDone s (u.withFlags s.cur (StatusFlags.unpack v)) v := by
  have hn : decide (s.cur = .user ∧ s.cur = .supervisor) = false := by cases s.cur <;> rfl
  obtain ⟨h1, h2, h3⟩ := h.hiLo
  refine ⟨?_, ?_, ?_, ?_, ?_, ?_, ?_, ?_, ?_, ?_, ?_, ?_, ?_, ?_, ?_⟩
  · rw [hm, State.withFlags_cur, h.cur]
  · rw [State.withFlags_cur, h.cur, if_pos rfl, State.withFlags_cndq, h.queue]
  · rw [State.withFlags_flagsOf]; rfl
  · rw [State.withFlags_flagsOf]; rfl
  · rw [State.withFlags_flagsOf]; exact h7
  · rw [State.withFlags_flagsOf]; exact h8
  · rw [State.withFlags_flagsOf, State.withFlags_cur, h.cur, hn]
    exact (Bool.and_true _).symm
  · rw [State.withFlags_flagsOf]; rfl
  · intro m hne; rw [State.withFlags_flagsOf_ne _ _ hne]; simp only [State.flagsOf, h.regs]
  · intro m r hr; rw [State.reg_withFlags _ _ _ _ hr]; simp only [State.reg, h.regs]
  · simpa [SameHiLo] using ⟨h1, h2, h3⟩
  · simpa using h.window
  · simpa using h.control.2.1
  · simpa using h.control.2.2
  · intro a; simp [h.mem]

/-- A switch of mode (R281, R284): the flags of the mode left behind, but for the user `HWI`. -/
theorem State.switchMode_flagsOf (s : State) (new m : Mode) :
    (s.switchMode new).flagsOf m =
      if new = .supervisor ∧ m = .user then { s.flagsOf m with hwi := false } else s.flagsOf m := by
  cases new <;> cases m <;> rfl

theorem State.switchMode_reg (s : State) (new m : Mode) {r : Reg} (h : r ≠ .sr) :
    (s.switchMode new).reg m r = s.reg m r := by
  cases new <;> cases m <;> first | rfl | exact RegSet.value_flags _ _ _ h

/-- `SR` written with `WFI` and `STEP` clear (R35), after `k` free values have been drawn. -/
theorem SrDone.of_write (s : State) (k : Nat) {v : Word} (h7 : v.getLsbD 7 = false) (h8 : v.getLsbD 8 = false) :
    ∃ t, (s.popCondition.draw k).write .sr v = .next t ∧ SrDone s t v ∧ ConditionFlagsFrom s t v := by
  have hb := Begun.of_draw s k
  obtain ⟨t, ht⟩ := State.srWrite_completes (s.popCondition.draw k) s.cur v h7 h8
  refine ⟨t, ht, ?_⟩
  obtain ⟨_, _, ⟨hm, rfl⟩ | ⟨_, hm, rfl⟩⟩ := State.srWrite_eq_next ht
  · refine ⟨SrDone.of_same_mode hb h7 h8 ?_, ?_⟩
    · rcases hm with hm | hm
      · exact absurd rfl hm
      · rw [hm]; show modeOfBit (decide (s.cur = .user)) = s.cur; cases s.cur <;> rfl
    · unfold ConditionFlagsFrom; rw [State.withFlags_flagsOf]; exact ⟨rfl, rfl, rfl, rfl⟩
  · have hm' : v.getLsbD 4 ≠ decide (s.cur = .user) := hm
    have hnew : modeOfBit (v.getLsbD 4) ≠ s.cur := by
      intro h; apply hm'; rw [← h]; cases v.getLsbD 4 <;> rfl
    have hf : ∀ m, ((s.popCondition.draw k).withFlags s.cur (StatusFlags.unpack v)).flagsOf m =
        if m = s.cur then StatusFlags.unpack v else s.flagsOf m := by
      intro m
      by_cases h : m = s.cur
      · subst h; rw [State.withFlags_flagsOf, if_pos rfl]
      · rw [State.withFlags_flagsOf_ne _ _ h, if_neg h]; simp
    have hcur : (((s.popCondition.draw k).withFlags s.cur (StatusFlags.unpack v)).switchMode
        (modeOfBit (v.getLsbD 4))).flagsOf s.cur =
        { StatusFlags.unpack v with hwi := v.getLsbD 9 && !(decide (s.cur = .user ∧ modeOfBit (v.getLsbD 4) = .supervisor)) } := by
      rw [State.switchMode_flagsOf, hf, if_pos rfl]
      cases hc : s.cur <;> cases modeOfBit (v.getLsbD 4) <;> simp [StatusFlags.unpack, Params.srLayout]
    refine ⟨⟨?_, ?_, ?_, ?_, ?_, ?_, ?_, ?_, ?_, ?_, ?_, ?_, ?_, ?_, ?_⟩, ?_⟩
    · rw [State.switchMode_cur]
    · rw [State.switchMode_cur, if_neg hnew, State.switchMode_cndq]
    · rw [hcur]; rfl
    · rw [hcur]; rfl
    · rw [hcur]; exact h7
    · rw [hcur]; exact h8
    · rw [hcur, State.switchMode_cur]
    · rw [hcur]; rfl
    · intro m hne
      rw [State.switchMode_flagsOf, hf, if_neg hne, if_neg]
      rintro ⟨h1, h2⟩
      rw [h1] at hnew; rw [h2] at hne
      cases hc : s.cur
      · exact hnew hc.symm
      · exact hne hc.symm
    · intro m r hr; rw [State.switchMode_reg _ _ _ hr, State.reg_withFlags _ _ _ _ hr]; simp
    · simp [SameHiLo]
    · simp
    · simp
    · simp
    · intro a; simp
    · unfold ConditionFlagsFrom; rw [hcur]; exact ⟨rfl, rfl, rfl, rfl⟩

/-- A fault (R283): which registers it leaves alone. -/
theorem State.raiseAt_reg (s : State) (e : Event) (p : Word) {m : Mode} {r : Reg} (hr : r ≠ .sr)
    (hn : ¬(m = s.cur ∧ r = .pc)) : (s.raiseAt e p).reg m r = s.reg m r := by
  cases hc : s.cur
  · rw [State.raiseAt_supervisor e p hc]
    cases m
    · have hp : r ≠ .pc := fun h => hn ⟨hc.symm, h⟩
      cases r <;> first | rfl | exact absurd rfl hr | exact absurd rfl hp
    · rfl
  · rw [State.raiseAt_user e p hc]
    cases m
    · rfl
    · have hp : r ≠ .pc := fun h => hn ⟨hc.symm, h⟩
      cases r <;> first | rfl | exact absurd rfl hr | exact absurd rfl hp

/-- A fault taken in a state that differs from `s` only in the queue, which is `q`, in `HI` and `LO` and in what
has been drawn (R283). -/
theorem FaultTaken.of_raiseAt {s u : State} {q : List Specifier} (e : Event) (p : Word) (hsup : u.sup = s.sup)
    (husr : u.usr = s.usr) (hcur : u.cur = s.cur) (hq : u.cndq = q) (hdiv : u.div = s.div)
    (hctl : SameControl s u) (hmem : u.mem = s.mem) : FaultTaken s (u.raiseAt e p) e p q := by
  obtain ⟨_, c2, c3⟩ := hctl
  have hreg : ∀ m r, u.reg m r = s.reg m r := by intro m r; cases m <;> simp [State.reg, State.regs, hsup, husr]
  have hother : SameRegistersBut s.cur .pc s (u.raiseAt e p) := by
    intro m r hr hn; rw [State.raiseAt_reg u e p hr (by rwa [hcur])]; exact hreg m r
  cases hc : s.cur
  · rw [hc] at hother
    rw [State.raiseAt_supervisor e p (hcur.trans hc)] at hother ⊢
    refine ⟨?_, ?_, ?_, ?_, ?_, ?_, hc ▸ hother, ?_, ?_, ?_⟩ <;>
      simp [hc, hcur, hsup, hq, hdiv, c3, hmem, State.flagsOf, State.regs, State.reg, SameMemory]
    intro m hm; cases m <;> simp [husr] at hm ⊢
  · rw [hc] at hother
    rw [State.raiseAt_user e p (hcur.trans hc)] at hother ⊢
    refine ⟨?_, ?_, ?_, ?_, ?_, ?_, hc ▸ hother, ?_, ?_, ?_⟩ <;>
      simp [hc, husr, hdiv, c2, c3, hmem, State.flagsOf, State.regs, State.reg, SameMemory]
    intro m hm; cases m <;> simp [hsup] at hm ⊢

theorem faultPcValue_eq (a npc : Word) : faultPcValue a npc = faultResume a npc := by
  unfold faultPcValue faultResume
  cases Config.faultPc <;> rfl

/-- A fault raised by an executing instruction once its queue entry is gone (R283, R285). -/
theorem FaultTaken.of_raise (s : State) (e : Event) :
    FaultTaken s (s.popCondition.raise e) e (faultResume (s.pc - 4) s.pc) s.cndq.tail ∧
      SameHiLo s (s.popCondition.raise e) := by
  unfold State.raise
  rw [faultPcValue_eq]
  exact ⟨FaultTaken.of_raiseAt e _ rfl rfl rfl rfl rfl ⟨rfl, rfl, rfl⟩ rfl, by simp [SameHiLo]⟩

end Sys2Proof.Machine
end

