-- ==== Sys2Proof/Laws/Fetch.lean ====
section
/-! SUPPORT. The fetch (10_state.md R29, R30): the two slots of a word, the address of the word, and what a step is
once an instruction has been fetched. -/

namespace Sys2Proof.Machine
open Sys2Proof Sys2Proof.Config

/-! ## The slots of a word -/

theorem pairSlots_eq (w : Word) :
    pairSlots Params.pairOrder w = (w.extractLsb' 0 16, w.extractLsb' 16 16) := rfl

theorem decodeSlot_first_long {w : Word} (h : w.getLsbD 31 = true) : decodeSlot .first w = decodeLong w := by
  unfold decodeSlot; rw [if_pos h]

theorem decodeSlot_second_long {w : Word} (h : w.getLsbD 31 = true) :
    decodeSlot .second w = .error .insideLongInstruction := by
  unfold decodeSlot; rw [if_pos h]

theorem decodeSlot_first_short {w : Word} (h : w.getLsbD 31 = false) :
    decodeSlot .first w = decodeShort (w.extractLsb' 0 16) := by
  unfold decodeSlot; rw [if_neg (by rw [h]; decide), pairSlots_eq]

theorem decodeSlot_second_short {w : Word} (h : w.getLsbD 31 = false) :
    decodeSlot .second w = decodeShort (w.extractLsb' 16 16) := by
  unfold decodeSlot; rw [if_neg (by rw [h]; decide), pairSlots_eq]

/-- `npc - a` (R29). -/
theorem advance_eq (sl : Slot) (w : Word) :
    advance sl w =
      if w.getLsbD 31 = true then 4
      else if sl = .second then 2
      else if w.extractLsb' 16 16 = 0 then 4 else 2 := by
  unfold advance
  rw [pairSlots_eq]
  cases sl <;> simp

theorem slotOf_eq (a : Word) : slotOf a = if a.getLsbD 1 = true then .second else .first := rfl

/-! ## The address of the word -/

theorem wordAddress_toNat (a : Word) : (wordAddress a).toNat = a.toNat / 4 * 4 := by
  unfold wordAddress
  rw [BitVec.toNat_and, show (0xFFFFFFFC : Word).toNat = (2 ^ 30 - 1) * 2 ^ 2 by decide]
  apply Nat.eq_of_testBit_eq
  intro i
  rw [Nat.testBit_and, show (4 : Nat) = 2 ^ 2 from rfl, Nat.testBit_mul_two_pow, Nat.testBit_mul_two_pow,
    Nat.testBit_two_pow_sub_one, Nat.testBit_div_two_pow]
  by_cases hi : 2 ≤ i
  · by_cases h32 : i < 32
    · have : i - 2 < 30 := by omega
      simp [hi, this]
    · have := a.isLt
      have hz := Nat.testBit_lt_two_pow (lt_of_lt_of_le this (Nat.pow_le_pow_right (by decide) (Nat.not_lt.1 h32)))
      simp [hi, hz]
  · simp [hi]

/-- The second slot lies two bytes after the word. -/
theorem wordAddress_of_second {a : Word} (h1 : a.getLsbD 1 = true) (h0 : a.getLsbD 0 = false) :
    wordAddress a + 4 = a + 2 := by
  have e0 : a.getLsbD 0 = decide (a.toNat % 2 = 1) := by simp [BitVec.getLsbD, Nat.testBit_zero]
  have e1 : a.getLsbD 1 = decide (a.toNat / 2 % 2 = 1) := by simp [BitVec.getLsbD, Nat.testBit_succ]
  rw [h0] at e0
  rw [h1] at e1
  have e0 := of_decide_eq_false e0.symm
  have e1 := of_decide_eq_true e1.symm
  apply BitVec.eq_of_toNat_eq
  rw [BitVec.toNat_add, BitVec.toNat_add, wordAddress_toNat, show (2 : Word).toNat = 2 from rfl,
    show (4 : Word).toNat = 4 from rfl]
  omega

/-! ## The step around an instruction -/

/-- The word at `pc` does not depend on how many steps have begun. -/
@[simp] theorem State.countStep_memRead (s : State) (free ea : Word) (n : Nat) :
    s.countStep.memRead free ea n = s.memRead free ea n := by
  induction n generalizing free ea with
  | zero => rfl
  | succ n ih => rw [State.memRead, State.memRead, ih]; rfl

@[simp] theorem State.countStep_fetchWord (s : State) :
    s.countStep.fetchWord = (s.fetchWord.1, s.fetchWord.2.countStep) := by
  unfold State.fetchWord State.readBytes
  rw [State.countStep_pc]
  cases allBacked (wordAddress s.pc) 4
  · simp only [State.countStep_memRead]; rfl
  · simp only [State.countStep_memRead, if_true]

@[simp] theorem State.countStep_insideLong (s : State) : s.countStep.insideLong = s.insideLong := by
  simp [State.insideLong]

/-- A second slot of a long word is refused by the decoding too (R31). -/
theorem State.decodeFetched_insideLong {s : State} (t : State) (h : s.insideLong = true) :
    t.decodeFetched s.pc s.fetchWord.1 = .over (.refused .pcInsideLongInstruction) := by
  simp only [State.insideLong, Bool.and_eq_true] at h
  unfold State.decodeFetched
  rw [slotOf_eq, if_pos h.1, decodeSlot_second_long h.2]

/-- At an even `pc` off word 0 the fetch is the decoding of the word at `pc` (R30). -/
theorem State.fetchAtPc_of_even {s : State} (ho : s.pc.getLsbD 0 = false) (hw : wordAddress s.pc ≠ 0) :
    s.fetchAtPc = s.fetchWord.2.decodeFetched s.pc s.fetchWord.1 := by
  unfold State.fetchAtPc
  rw [if_neg (by rw [ho]; decide)]
  by_cases h : s.insideLong = true
  · rw [if_pos h, State.decodeFetched_insideLong _ h]
  · rw [if_neg h, if_neg fun h => hw h.1]

/-- Where nothing stands before the decoding, the fetch is that of the word (R30). -/
theorem State.fetch_of_fetches {irq : Irq} {s : State} (h : s.fetches irq) :
    s.fetch irq = s.fetchWord.2.countStep.decodeFetched s.pc s.fetchWord.1 := by
  obtain ⟨hh, hi, ho, hw⟩ := h
  unfold State.fetch
  rw [if_neg (by rw [hh]; decide), if_neg (by rw [hi]; decide),
    State.fetchAtPc_of_even (by rw [State.countStep_pc]; exact ho) (by rw [State.countStep_pc]; exact hw),
    State.countStep_fetchWord, State.countStep_pc]

/-- The state in which a fetched instruction runs (R30). -/
theorem State.fetch_eq_run {irq : Irq} {s u : State} {i : Instr} (h : s.fetch irq = .run i u) :
    s.halted = false ∧ s.interruptTaken irq = false ∧ ∃ k p, u = ((s.countStep.draw k).withPc p).tickBefore := by
  rcases State.fetch_cases s irq with ⟨_, hf⟩ | ⟨_, _, hf⟩ | ⟨hh, hi, hf⟩
  · rw [hf] at h; cases h
  · rw [hf] at h; cases h
  · exact ⟨hh, hi, State.fetchAtPc_eq_run (hf ▸ h)⟩

theorem stepUnder_of_run {irq : Irq} {s u : State} {i : Instr} (h : s.fetch irq = .run i u) :
    stepUnder irq s = Result.finish (exec i u) := by
  unfold stepUnder; rw [h]

/-- A fetched instruction whose condition does not hold (R133). -/
theorem stepUnder_of_not_passes {irq : Irq} {s u : State} {i : Instr} (h : s.fetch irq = .run i u)
    (hp : ¬ u.passes i) : stepUnder irq s = .next u.popCondition.tickAfter := by
  rw [stepUnder_of_run h, exec_of_not_passes hp]; rfl

/-- With `IRQ` = none no interrupt is ever taken (R290). -/
@[simp] theorem State.interruptTaken_none (s : State) : s.interruptTaken none = false := by
  simp [State.interruptTaken, State.irqAsserted]

end Sys2Proof.Machine
end

