-- ==== Sys2Proof/Laws/PerInstr.lean ====
section
/-! SUPPORT. The families of statements made per instruction (LAWS.json). -/

namespace Sys2Proof.Laws.DecodeEncode
open Sys2Proof

/-- Decoding what the encoder writes for a well-formed instruction gives it back. -/
def Statement (i : Instr) : Prop :=
  i.wellFormed = true → decodeEncoding (encode i) = .ok i

theorem nop : Statement .nop := fun _ => rfl

theorem add (d s1 s2 : Reg) : Statement (.add d s1 s2) := by
  intro hw
  refine (decodeShort_fields _ _ _ _ ?_).trans (by simp)
  intro h
  obtain ⟨ho, hd, h1, h2⟩ := short_eq_zero h
  rw [Reg.bits_eq_zero hd, Reg.bits_eq_zero h1, Reg.bits_eq_zero h2] at hw
  exact absurd hw (by decide)

theorem sub (d s1 s2 : Reg) : Statement (.sub d s1 s2) := by
  intro _
  refine (decodeShort_fields _ _ _ _ ?_).trans (by simp)
  intro h
  obtain ⟨ho, hd, h1, h2⟩ := short_eq_zero h
  exact absurd ho (by decide)

theorem lsh (d s1 s2 : Reg) : Statement (.lsh d s1 s2) := by
  intro _
  refine (decodeShort_fields _ _ _ _ ?_).trans (by simp)
  intro h
  obtain ⟨ho, hd, h1, h2⟩ := short_eq_zero h
  exact absurd ho (by decide)

theorem ash (d s1 s2 : Reg) : Statement (.ash d s1 s2) := by
  intro _
  refine (decodeShort_fields _ _ _ _ ?_).trans (by simp)
  intro h
  obtain ⟨ho, hd, h1, h2⟩ := short_eq_zero h
  exact absurd ho (by decide)

theorem and (d s1 s2 : Reg) : Statement (.and d s1 s2) := by
  intro _
  refine (decodeShort_fields _ _ _ _ ?_).trans (by simp)
  intro h
  obtain ⟨ho, hd, h1, h2⟩ := short_eq_zero h
  exact absurd ho (by decide)

theorem or (d s1 s2 : Reg) : Statement (.or d s1 s2) := by
  intro _
  refine (decodeShort_fields _ _ _ _ ?_).trans (by simp)
  intro h
  obtain ⟨ho, hd, h1, h2⟩ := short_eq_zero h
  exact absurd ho (by decide)

theorem xor (d s1 s2 : Reg) : Statement (.xor d s1 s2) := by
  intro _
  refine (decodeShort_fields _ _ _ _ ?_).trans (by simp)
  intro h
  obtain ⟨ho, hd, h1, h2⟩ := short_eq_zero h
  exact absurd ho (by decide)

theorem cnd (c1 c2 c3 : Specifier) : Statement (.cnd c1 c2 c3) := by
  intro _
  refine (decodeShort_fields _ _ _ _ ?_).trans (by simp)
  intro h
  exact absurd (short_eq_zero h).1 (by decide)

theorem addi (d s : Reg) (imm : BitVec 14) (c : Specifier) : Statement (.addi d s imm c) := by
  intro _
  obtain ⟨ho, hd, hs, hi, hc, hp⟩ := immediate_fields 0 d.bits s.bits imm c.bits
  refine (decodeLong_of_100 _ hp).trans ?_
  unfold decodeImmediate
  simp only [ho, hd, hs, hi, hc, Reg.ofBits_bits, Specifier.ofBits_bits]
  rfl

theorem subi (d s : Reg) (imm : BitVec 14) (c : Specifier) : Statement (.subi d s imm c) := by
  intro _
  obtain ⟨ho, hd, hs, hi, hc, hp⟩ := immediate_fields 1 d.bits s.bits imm c.bits
  refine (decodeLong_of_100 _ hp).trans ?_
  unfold decodeImmediate
  simp only [ho, hd, hs, hi, hc, Reg.ofBits_bits, Specifier.ofBits_bits]
  rfl

theorem lshi (d s : Reg) (imm : BitVec 14) (c : Specifier) : Statement (.lshi d s imm c) := by
  intro _
  obtain ⟨ho, hd, hs, hi, hc, hp⟩ := immediate_fields 2 d.bits s.bits imm c.bits
  refine (decodeLong_of_100 _ hp).trans ?_
  unfold decodeImmediate
  simp only [ho, hd, hs, hi, hc, Reg.ofBits_bits, Specifier.ofBits_bits]
  rfl

theorem ashi (d s : Reg) (imm : BitVec 14) (c : Specifier) : Statement (.ashi d s imm c) := by
  intro _
  obtain ⟨ho, hd, hs, hi, hc, hp⟩ := immediate_fields 3 d.bits s.bits imm c.bits
  refine (decodeLong_of_100 _ hp).trans ?_
  unfold decodeImmediate
  simp only [ho, hd, hs, hi, hc, Reg.ofBits_bits, Specifier.ofBits_bits]
  rfl

theorem andi (d s : Reg) (imm : BitVec 14) (c : Specifier) : Statement (.andi d s imm c) := by
  intro _
  obtain ⟨ho, hd, hs, hi, hc, hp⟩ := immediate_fields 4 d.bits s.bits imm c.bits
  refine (decodeLong_of_100 _ hp).trans ?_
  unfold decodeImmediate
  simp only [ho, hd, hs, hi, hc, Reg.ofBits_bits, Specifier.ofBits_bits]
  rfl

theorem ori (d s : Reg) (imm : BitVec 14) (c : Specifier) : Statement (.ori d s imm c) := by
  intro _
  obtain ⟨ho, hd, hs, hi, hc, hp⟩ := immediate_fields 5 d.bits s.bits imm c.bits
  refine (decodeLong_of_100 _ hp).trans ?_
  unfold decodeImmediate
  simp only [ho, hd, hs, hi, hc, Reg.ofBits_bits, Specifier.ofBits_bits]
  rfl

theorem xori (d s : Reg) (imm : BitVec 14) (c : Specifier) : Statement (.xori d s imm c) := by
  intro _
  obtain ⟨ho, hd, hs, hi, hc, hp⟩ := immediate_fields 6 d.bits s.bits imm c.bits
  refine (decodeLong_of_100 _ hp).trans ?_
  unfold decodeImmediate
  simp only [ho, hd, hs, hi, hc, Reg.ofBits_bits, Specifier.ofBits_bits]
  rfl

theorem ldh (d s : Reg) (imm : BitVec 14) (c : Specifier) : Statement (.ldh d s imm c) := by
  intro _
  obtain ⟨ho, hd, hs, hi, hc, hp⟩ := immediate_fields 7 d.bits s.bits imm c.bits
  refine (decodeLong_of_100 _ hp).trans ?_
  unfold decodeImmediate
  simp only [ho, hd, hs, hi, hc, Reg.ofBits_bits, Specifier.ofBits_bits]
  rfl

theorem ldi (d : Reg) (imm : BitVec 20) (c : Specifier) : Statement (.ldi d imm c) := by
  intro _
  obtain ⟨hd, hi, hc, hp⟩ := ldi_fields d.bits imm c.bits
  refine (decodeLong_of_1010 _ hp).trans ?_
  unfold decodeLdi
  simp only [hd, hi, hc, Reg.ofBits_bits, Specifier.ofBits_bits]

theorem mltu (s1 s2 : Reg) (c : Specifier) : Statement (.mltu s1 s2 c) := by
  intro _
  obtain ⟨ho, h1, h2, hc, hp⟩ := misc_fields 0 s1.bits s2.bits 0 c.bits
  refine (decodeLong_of_1011 _ hp).trans ?_
  unfold decodeMisc
  simp only [ho, h1, h2, hc, Reg.ofBits_bits, Specifier.ofBits_bits]
  rfl

theorem mlts (s1 s2 : Reg) (c : Specifier) : Statement (.mlts s1 s2 c) := by
  intro _
  obtain ⟨ho, h1, h2, hc, hp⟩ := misc_fields 1 s1.bits s2.bits 0 c.bits
  refine (decodeLong_of_1011 _ hp).trans ?_
  unfold decodeMisc
  simp only [ho, h1, h2, hc, Reg.ofBits_bits, Specifier.ofBits_bits]
  rfl

theorem divu (s1 s2 : Reg) (c : Specifier) : Statement (.divu s1 s2 c) := by
  intro _
  obtain ⟨ho, h1, h2, hc, hp⟩ := misc_fields 2 s1.bits s2.bits 0 c.bits
  refine (decodeLong_of_1011 _ hp).trans ?_
  unfold decodeMisc
  simp only [ho, h1, h2, hc, Reg.ofBits_bits, Specifier.ofBits_bits]
  rfl

theorem divs (s1 s2 : Reg) (c : Specifier) : Statement (.divs s1 s2 c) := by
  intro _
  obtain ⟨ho, h1, h2, hc, hp⟩ := misc_fields 3 s1.bits s2.bits 0 c.bits
  refine (decodeLong_of_1011 _ hp).trans ?_
  unfold decodeMisc
  simp only [ho, h1, h2, hc, Reg.ofBits_bits, Specifier.ofBits_bits]
  rfl

theorem mvsu (d s : Reg) (c : Specifier) : Statement (.mvsu d s c) := by
  intro _
  obtain ⟨ho, h1, h2, hc, hp⟩ := misc_fields 4 d.bits s.bits 0 c.bits
  refine (decodeLong_of_1011 _ hp).trans ?_
  unfold decodeMisc
  simp only [ho, h1, h2, hc, Reg.ofBits_bits, Specifier.ofBits_bits]
  rfl

theorem mvus (d s : Reg) (c : Specifier) : Statement (.mvus d s c) := by
  intro _
  obtain ⟨ho, h1, h2, hc, hp⟩ := misc_fields 5 d.bits s.bits 0 c.bits
  refine (decodeLong_of_1011 _ hp).trans ?_
  unfold decodeMisc
  simp only [ho, h1, h2, hc, Reg.ofBits_bits, Specifier.ofBits_bits]
  rfl

theorem mvhi (d : Reg) (c : Specifier) : Statement (.mvhi d c) := by
  intro _
  obtain ⟨ho, h1, _, hc, hp⟩ := misc_fields 6 d.bits 0 0 c.bits
  refine (decodeLong_of_1011 _ hp).trans ?_
  unfold decodeMisc
  simp only [ho, h1, hc, Reg.ofBits_bits, Specifier.ofBits_bits]
  rfl

theorem mvlo (d : Reg) (c : Specifier) : Statement (.mvlo d c) := by
  intro _
  obtain ⟨ho, h1, _, hc, hp⟩ := misc_fields 7 d.bits 0 0 c.bits
  refine (decodeLong_of_1011 _ hp).trans ?_
  unfold decodeMisc
  simp only [ho, h1, hc, Reg.ofBits_bits, Specifier.ofBits_bits]
  rfl

theorem lw (sd a : Reg) (imm : BitVec 15) (c : Specifier) : Statement (.lw sd a imm c) := by
  intro _
  obtain ⟨ho, hd, hs, hi, hc, hp⟩ := loadStore_fields 0 sd.bits a.bits imm c.bits
  refine (decodeLong_of_11 _ hp).trans ?_
  unfold decodeLoadStore
  simp only [ho, hd, hs, hi, hc, Reg.ofBits_bits, Specifier.ofBits_bits]
  rfl

theorem sw (sd a : Reg) (imm : BitVec 15) (c : Specifier) : Statement (.sw sd a imm c) := by
  intro _
  obtain ⟨ho, hd, hs, hi, hc, hp⟩ := loadStore_fields 1 sd.bits a.bits imm c.bits
  refine (decodeLong_of_11 _ hp).trans ?_
  unfold decodeLoadStore
  simp only [ho, hd, hs, hi, hc, Reg.ofBits_bits, Specifier.ofBits_bits]
  rfl

theorem sh (sd a : Reg) (imm : BitVec 15) (c : Specifier) : Statement (.sh sd a imm c) := by
  intro _
  obtain ⟨ho, hd, hs, hi, hc, hp⟩ := loadStore_fields 2 sd.bits a.bits imm c.bits
  refine (decodeLong_of_11 _ hp).trans ?_
  unfold decodeLoadStore
  simp only [ho, hd, hs, hi, hc, Reg.ofBits_bits, Specifier.ofBits_bits]
  rfl

theorem sb (sd a : Reg) (imm : BitVec 15) (c : Specifier) : Statement (.sb sd a imm c) := by
  intro _
  obtain ⟨ho, hd, hs, hi, hc, hp⟩ := loadStore_fields 3 sd.bits a.bits imm c.bits
  refine (decodeLong_of_11 _ hp).trans ?_
  unfold decodeLoadStore
  simp only [ho, hd, hs, hi, hc, Reg.ofBits_bits, Specifier.ofBits_bits]
  rfl

theorem lhu (sd a : Reg) (imm : BitVec 15) (c : Specifier) : Statement (.lhu sd a imm c) := by
  intro _
  obtain ⟨ho, hd, hs, hi, hc, hp⟩ := loadStore_fields 4 sd.bits a.bits imm c.bits
  refine (decodeLong_of_11 _ hp).trans ?_
  unfold decodeLoadStore
  simp only [ho, hd, hs, hi, hc, Reg.ofBits_bits, Specifier.ofBits_bits]
  rfl

theorem lhs (sd a : Reg) (imm : BitVec 15) (c : Specifier) : Statement (.lhs sd a imm c) := by
  intro _
  obtain ⟨ho, hd, hs, hi, hc, hp⟩ := loadStore_fields 5 sd.bits a.bits imm c.bits
  refine (decodeLong_of_11 _ hp).trans ?_
  unfold decodeLoadStore
  simp only [ho, hd, hs, hi, hc, Reg.ofBits_bits, Specifier.ofBits_bits]
  rfl

theorem lbu (sd a : Reg) (imm : BitVec 15) (c : Specifier) : Statement (.lbu sd a imm c) := by
  intro _
  obtain ⟨ho, hd, hs, hi, hc, hp⟩ := loadStore_fields 6 sd.bits a.bits imm c.bits
  refine (decodeLong_of_11 _ hp).trans ?_
  unfold decodeLoadStore
  simp only [ho, hd, hs, hi, hc, Reg.ofBits_bits, Specifier.ofBits_bits]
  rfl

theorem lbs (sd a : Reg) (imm : BitVec 15) (c : Specifier) : Statement (.lbs sd a imm c) := by
  intro _
  obtain ⟨ho, hd, hs, hi, hc, hp⟩ := loadStore_fields 7 sd.bits a.bits imm c.bits
  refine (decodeLong_of_11 _ hp).trans ?_
  unfold decodeLoadStore
  simp only [ho, hd, hs, hi, hc, Reg.ofBits_bits, Specifier.ofBits_bits]
  rfl

end Sys2Proof.Laws.DecodeEncode
end

