-- ==== Sys2Proof/Tests/Slice0.lean ====
section
/-! SUPPORT. Tests. Expected values come from the worked examples and vectors of 95_test_vectors.md (S and V numbers)
or are worked by hand from the rule named; encodings are written out from the field tables of 30_encoding.md. -/

namespace Sys2Proof.Tests
open Sys2Proof Sys2Proof.Machine

/-! ## Small states -/

/-- The state with registers of one set given values. -/
def withRegisters (s : State) (m : Mode) : List (Reg × Word) → State
  | [] => s
  | (r, v) :: rest => withRegisters (s.withRegs m ((s.regs m).store r v)) m rest

/-- The supervisor after reset with some registers. -/
def sup (rs : List (Reg × Word)) : State := withRegisters State.reset .supervisor rs

/-- User code at `0x00010000`; the supervisor will resume at `0x00000100`. -/
def usr (rs : List (Reg × Word)) : State :=
  withRegisters { sup [(.pc, 0x100)] with cur := .user } .user ((.pc, 0x00010000) :: rs)

/-- The state after a step, if it is a next state. -/
def after (o : Host.Outcome State Fault Refusal) : Option State :=
  match o with
  | .next t => some t
  | .fault _ => none
  | .refused _ => none

/-- Why a step was refused. -/
def whyRefused (o : Host.Outcome State Fault Refusal) : Option Refusal :=
  match o with
  | .refused r => some r
  | .next _ => none
  | .fault _ => none

/-- One step of the instruction of 32 bits `w` placed where it is fetched, and what `f` finds after it. -/
def run32 {α : Type} (s : State) (w : Nat) (f : State → α) : Option α :=
  (after (step (s.withFetchWord 32 w))).map f

/-- The same for an instruction of 16 bits, with a `NOP` in the second slot. -/
def run16 {α : Type} (s : State) (w : Nat) (f : State → α) : Option α :=
  (after (step (s.withFetchWord 16 w))).map f

/-- `Z C N V` of the supervisor. -/
def zcnv (t : State) : Bool × Bool × Bool × Bool :=
  ((t.flagsOf .supervisor).z, (t.flagsOf .supervisor).c, (t.flagsOf .supervisor).n, (t.flagsOf .supervisor).v)

/-- `Z` and `N` of the supervisor. -/
def zn (t : State) : Bool × Bool := ((t.flagsOf .supervisor).z, (t.flagsOf .supervisor).n)

/-- A register of the supervisor. -/
def sreg (r : Reg) (t : State) : Word := t.reg .supervisor r

/-! ## Well-formedness -/

/-- `0x0000` is `NOP` and nothing else (R158): `ADD R0, R0, R0` is no instruction. -/
theorem test_wellFormed_refuses_add_of_r0 : (Instr.add .r0 .r0 .r0).wellFormed = false := by decide

/-- Any other `ADD` is one. -/
theorem test_wellFormed_accepts_add : (Instr.add .r0 .r0 .r1).wellFormed = true := by decide

/-! ## Decoding: one word of each instruction, field by field -/

/-- S3: `0x0000`. -/
theorem test_decode_nop : decodeTableWord 16 0b0000_0000_0000_0000 = some (.nop) := by decide

/-- V1: `0x0123`. -/
theorem test_decode_add : decodeTableWord 16 0b0_000_0001_0010_0011 = some (.add .r1 .r2 .r3) := by decide

/-- V2: `0x1012`. -/
theorem test_decode_sub : decodeTableWord 16 0b0_001_0000_0001_0010 = some (.sub .r0 .r1 .r2) := by decide

/-- V3: `0x2456`. -/
theorem test_decode_lsh : decodeTableWord 16 0b0_010_0100_0101_0110 = some (.lsh .r4 .r5 .r6) := by decide

/-- V3: `0x3789`. -/
theorem test_decode_ash : decodeTableWord 16 0b0_011_0111_1000_1001 = some (.ash .r7 .r8 .r9) := by decide

/-- V4: `0x4ABC`. -/
theorem test_decode_and : decodeTableWord 16 0b0_100_1010_1011_1100 = some (.and .r10 .sr .lr) := by decide

/-- V4: `0x5DEF`. -/
theorem test_decode_or : decodeTableWord 16 0b0_101_1101_1110_1111 = some (.or .fp .sp .pc) := by decide

/-- V4: `0x6111`. -/
theorem test_decode_xor : decodeTableWord 16 0b0_110_0001_0001_0001 = some (.xor .r1 .r1 .r1) := by decide

/-- S8: `0x7CD0`. -/
theorem test_decode_cnd : decodeTableWord 16 0b0111_1100_1101_0000 = some (.cnd ⟨true, .ifLT⟩ ⟨true, .ifGE⟩ ⟨false, .always⟩) := by decide

/-- S2: `0x8048003F`. -/
theorem test_decode_addi : decodeTableWord 32 0b100_000_0001_0010_00000000000011_1111 = some (.addi .r1 .r2 3 ⟨true, .ifNC⟩) := by decide

/-- V2: `0x84460000`. -/
theorem test_decode_subi : decodeTableWord 32 0b100_001_0001_0001_10000000000000_0000 = some (.subi .r1 .r1 (-8192) ⟨false, .always⟩) := by decide

/-- V3: `0x884BFFC0`. -/
theorem test_decode_lshi : decodeTableWord 32 0b100_010_0001_0010_11111111111100_0000 = some (.lshi .r1 .r2 (-4) ⟨false, .always⟩) := by decide

/-- V3: `0x8C4BFE10`. -/
theorem test_decode_ashi : decodeTableWord 32 0b100_011_0001_0010_11111111100001_0000 = some (.ashi .r1 .r2 (-31) ⟨false, .always⟩) := by decide

/-- V4: `0x90144000`. -/
theorem test_decode_andi : decodeTableWord 32 0b100_100_0000_0101_00010000000000_0000 = some (.andi .r0 .r5 0x400 ⟨false, .always⟩) := by decide

/-- V4: `0x96EC0108`. -/
theorem test_decode_ori : decodeTableWord 32 0b100_101_1011_1011_00000000010000_1000 = some (.ori .sr .sr 0x10 ⟨true, .always⟩) := by decide

/-- V4: `0x984BFFF0`. -/
theorem test_decode_xori : decodeTableWord 32 0b100_110_0001_0010_11111111111111_0000 = some (.xori .r1 .r2 (-1) ⟨false, .always⟩) := by decide

/-- S6: `0x9C4626A0`. -/
theorem test_decode_ldh : decodeTableWord 32 0b100_111_0001_0001_10001001101010_0000 = some (.ldh .r1 .r1 0x226A ⟨false, .always⟩) := by decide

/-- V6: `0xA1FFFFF3`. -/
theorem test_decode_ldi : decodeTableWord 32 0b1010_0001_11111111111111111111_0011 = some (.ldi .r1 (-1) ⟨false, .ifNZ⟩) := by decide

/-- V9: `0xB0680000`. -/
theorem test_decode_mltu : decodeTableWord 32 0b1011_000_0011_0100_0000000000000_0000 = some (.mltu .r3 .r4 ⟨false, .always⟩) := by decide

/-- V9: `0xB2680004`. -/
theorem test_decode_mlts : decodeTableWord 32 0b1011_001_0011_0100_0000000000000_0100 = some (.mlts .r3 .r4 ⟨false, .ifLT⟩) := by decide

/-- V10: `0xB4A00000`. -/
theorem test_decode_divu : decodeTableWord 32 0b1011_010_0101_0000_0000000000000_0000 = some (.divu .r5 .r0 ⟨false, .always⟩) := by decide

/-- V10: `0xB6240000`. -/
theorem test_decode_divs : decodeTableWord 32 0b1011_011_0001_0010_0000000000000_0000 = some (.divs .r1 .r2 ⟨false, .always⟩) := by decide

/-- V13: `0xB8240003`. -/
theorem test_decode_mvsu : decodeTableWord 32 0b1011_100_0001_0010_0000000000000_0011 = some (.mvsu .r1 .r2 ⟨false, .ifNZ⟩) := by decide

/-- V13: `0xBBE20000`. -/
theorem test_decode_mvus : decodeTableWord 32 0b1011_101_1111_0001_0000000000000_0000 = some (.mvus .pc .r1 ⟨false, .always⟩) := by decide

/-- P5: `0xBC600000`. -/
theorem test_decode_mvhi : decodeTableWord 32 0b1011_110_0011_0000_0000000000000_0000 = some (.mvhi .r3 ⟨false, .always⟩) := by decide

/-- P5: `0xBF000000`. -/
theorem test_decode_mvlo : decodeTableWord 32 0b1011_111_1000_0000_0000000000000_0000 = some (.mvlo .r8 ⟨false, .always⟩) := by decide

/-- P3: `0xC1680080`. -/
theorem test_decode_lw : decodeTableWord 32 0b11_000_0010_1101_000000000001000_0000 = some (.lw .r2 .fp 8 ⟨false, .always⟩) := by decide

/-- V8: `0xC8900080`. -/
theorem test_decode_sw : decodeTableWord 32 0b11_001_0001_0010_000000000001000_0000 = some (.sw .r1 .r2 8 ⟨false, .always⟩) := by decide

/-- V8b: `0xD087FFE0`. -/
theorem test_decode_sh : decodeTableWord 32 0b11_010_0001_0000_111111111111110_0000 = some (.sh .r1 .r0 (-2) ⟨false, .always⟩) := by decide

/-- S10: `0xD887FFF0`. -/
theorem test_decode_sb : decodeTableWord 32 0b11_011_0001_0000_111111111111111_0000 = some (.sb .r1 .r0 (-1) ⟨false, .always⟩) := by decide

/-- V7: `0xE0900020`. -/
theorem test_decode_lhu : decodeTableWord 32 0b11_100_0001_0010_000000000000010_0000 = some (.lhu .r1 .r2 2 ⟨false, .always⟩) := by decide

/-- P2: `0xEB100020`. -/
theorem test_decode_lhs : decodeTableWord 32 0b11_101_0110_0010_000000000000010_0000 = some (.lhs .r6 .r2 2 ⟨false, .always⟩) := by decide

/-- V8b: `0xF087FFE0`. -/
theorem test_decode_lbu : decodeTableWord 32 0b11_110_0001_0000_111111111111110_0000 = some (.lbu .r1 .r0 (-2) ⟨false, .always⟩) := by decide

/-- V7: `0xF8900013`. -/
theorem test_decode_lbs : decodeTableWord 32 0b11_111_0001_0010_000000000000001_0011 = some (.lbs .r1 .r2 1 ⟨false, .ifNZ⟩) := by decide

/-- R106: bit 15 set in a halfword is illegal (V13). -/
theorem test_decode_illegal : decodeTableWord 16 0x8123 = none := by decide

/-- R105: the unused bits of the Misc formats are ignored. -/
theorem test_decode_unused_bits :
    decodeTableWord 32 0b1011_000_0011_0100_1111111111111_0000 = some (.mltu .r3 .r4 ⟨false, .always⟩) := by decide

/-- R93: the second halfword of the pair `0x0123 | 0x1012` is bits 31..16 under `PAIR_ORDER` = low_first. -/
theorem test_decode_second_slot :
    (decodeBytes .second [0x23, 0x01, 0x12, 0x10]).toOption = some (.sub .r0 .r1 .r2) := by decide

/-! ## One step of each instruction -/

/-- The memory of V7, with `R2` at its start. -/
def loads : State :=
  { sup [(.r2, 0x20000)] with
      mem := Memory.write (Memory.write [] 0x20000 0x01FF7F80 4) 0x20004 0xFFFE8000 4 }

/-- S3: no flag and no register changes; `pc` passes the pair. -/
theorem test_nop :
    run16 (sup [(.r1, 5)]) 0x0000 (fun t => (sreg .r1 t, zcnv t, t.pc)) =
      some (5, (false, false, false, false), 0x00010004) := by decide

/-- V1, row 3 with the operands swapped. -/
theorem test_add_wraps :
    run16 (sup [(.r2, 0xFFFFFFFF), (.r3, 1)]) 0x0123 (fun t => (sreg .r1 t, zcnv t)) =
      some (0, true, true, false, false) := by decide

/-- V1, row 5: carry and overflow of `0x80000000 + 0x80000000`. -/
theorem test_add_overflows :
    run16 (sup [(.r2, 0x80000000), (.r3, 0x80000000)]) 0x0123 (fun t => (sreg .r1 t, zcnv t)) =
      some (0, true, true, false, true) := by decide

/-- V2, row 3: `7 - 9`, the borrow in `C`; `R0` stays 0. -/
theorem test_sub_borrows :
    run16 (sup [(.r1, 7), (.r2, 9)]) 0x1012 (fun t => (sreg .r0 t, zcnv t)) =
      some (0, false, true, true, false) := by decide

/-- V2, row 5: `-2^31 - 1`. -/
theorem test_sub_overflows :
    run16 (sup [(.r1, 0x80000000), (.r2, 1)]) 0x1012 zcnv = some (false, false, false, true) := by decide

/-- V3: a count of -4 shifts right and fills with 0. -/
theorem test_lsh_right :
    run16 (sup [(.r5, 0x80000001), (.r6, 0xFFFFFFFC)]) 0x2456 (fun t => (sreg .r4 t, zn t)) =
      some (0x08000000, false, false) := by decide

/-- V3: a count of -4 copies the sign. -/
theorem test_ash_right :
    run16 (sup [(.r8, 0x80000001), (.r9, 0xFFFFFFFC)]) 0x3789 (fun t => (sreg .r7 t, zn t)) =
      some (0xF8000000, false, true) := by decide

/-- V3: a count of -100 (`SHIFT_LARGE` = mathematical). -/
theorem test_ash_large :
    run16 (sup [(.r8, 0x80000000), (.r9, 0xFFFFFF9C)]) 0x3789 (sreg .r7) = some 0xFFFFFFFF := by decide

/-- V4, row 1, `AND R1, R2, R3`. -/
theorem test_and :
    run16 (sup [(.r2, 0xF0F0F0F0), (.r3, 0x0FF00FF0)]) 0x4123 (sreg .r1) = some 0x00F000F0 := by decide

/-- V4, row 1, `OR R1, R2, R3`. -/
theorem test_or :
    run16 (sup [(.r2, 0xF0F0F0F0), (.r3, 0x0FF00FF0)]) 0x5123 (fun t => (sreg .r1 t, zn t)) =
      some (0xFFF0FFF0, false, true) := by decide

/-- V4: `XOR R1, R1, R1` clears. -/
theorem test_xor :
    run16 (sup [(.r1, 0x12345678)]) 0x6111 (fun t => (sreg .r1 t, zn t)) = some (0, true, false) := by decide

/-- S8: the queue of `CND ?LT*, ?GE*, -`. -/
theorem test_cnd :
    run16 (sup []) 0x7CD0 (fun t => t.cndq) =
      some [⟨true, .ifLT⟩, ⟨true, .ifGE⟩, ⟨false, .always⟩] := by decide

/-- V1: `ADDI R1, R1, -1` with `R1 = 1`. -/
theorem test_addi_minus_one :
    run32 (sup [(.r1, 1)]) 0x8047FFF0 (fun t => (sreg .r1 t, zcnv t)) = some (0, true, true, false, false) := by decide

/-- V5: `ADDI* R1, PC, 0` at `0x00010000`. -/
theorem test_addi_reads_the_next_pc :
    run32 (sup []) 0x807C0008 (sreg .r1) = some 0x00010004 := by decide

/-- V2: `SUBI R1, R1, 1` of 0. -/
theorem test_subi :
    run32 (sup []) 0x84440010 (fun t => (sreg .r1 t, zcnv t)) = some (0xFFFFFFFF, false, true, true, false) := by decide

/-- V3: `LSHI R1, R2, 31`. -/
theorem test_lshi :
    run32 (sup [(.r2, 1)]) 0x884801F0 (sreg .r1) = some 0x80000000 := by decide

/-- V3: `ASHI R1, R2, -31`. -/
theorem test_ashi :
    run32 (sup [(.r2, 0x80000000)]) 0x8C4BFE10 (sreg .r1) = some 0xFFFFFFFF := by decide

/-- V4: `ANDI R1, R2, -8192`. -/
theorem test_andi_sign_extends :
    run32 (sup [(.r2, 0x12345678)]) 0x904A0000 (sreg .r1) = some 0x12344000 := by decide

/-- V4: `ORI R1, R0, -8192`. -/
theorem test_ori :
    run32 (sup []) 0x94420000 (fun t => (sreg .r1 t, zn t)) = some (0xFFFFE000, false, true) := by decide

/-- V13: `ORI* SR, SR, 0x10`: the mode, the `PC` left behind, the `PC` that runs next. -/
theorem test_ori_enters_user_mode :
    run32 (sup []) 0x96EC0108 (fun t => (t.cur, sreg .pc t, t.pc)) = some (.user, 0x00010004, 0) := by decide

/-- V4: `XORI R1, R2, -1`. -/
theorem test_xori :
    run32 (sup [(.r2, 0x12345678)]) 0x984BFFF0 (sreg .r1) = some 0xEDCBA987 := by decide

/-- V13: `XORI* SR, SR, 0x10` in user mode. -/
theorem test_xori_calls_the_supervisor :
    run32 (usr []) 0x9AEC0108 (fun t => (t.cur, t.pc, t.reg .user .pc)) = some (.supervisor, 0x100, 0x00010004) := by decide

/-- S6, first row. -/
theorem test_ldh :
    run32 (sup [(.r1, 0x0003CDEF)]) 0x9C4626A0 (sreg .r1) = some 0x89ABCDEF := by decide

/-- V6: `LDI R1, -0x80000`. -/
theorem test_ldi_sign :
    run32 (sup []) 0xA1800000 (sreg .r1) = some 0xFFF80000 := by decide

/-- V6: `LDI PC, 0x10040`. -/
theorem test_ldi_jumps :
    run32 (sup []) 0xAF100400 (fun t => t.pc) = some 0x00010040 := by decide

/-- V9, row 3: `HI : LO`. -/
theorem test_mltu :
    run32 (sup [(.r1, 0xFFFFFFF9), (.r2, 3)]) 0xB0240000 (fun t => (t.hi, t.lo)) = some (2, 0xFFFFFFEB) := by decide

/-- V9, row 6. -/
theorem test_mlts :
    run32 (sup [(.r1, 0x80000000), (.r2, 0xFFFFFFFF)]) 0xB2240000 (fun t => (t.hi, t.lo)) =
      some (0, 0x80000000) := by decide

/-- V10, row 2: what will land after 11 instructions. -/
theorem test_divu :
    run32 (sup [(.r1, 0xFFFFFFF9), (.r2, 2)]) 0xB4240000 (fun t => t.div) = some (some ⟨0x7FFFFFFC, 1, 11⟩) := by decide

/-- V10: `DIVU R5, R0` in supervisor mode. -/
theorem test_divu_by_zero :
    run32 (sup []) 0xB4A00000 (fun t => (sreg .sr t, t.halted)) = some (0x20, true) := by decide

/-- V10, row 2: `-7 / 2`. -/
theorem test_divs_truncates :
    run32 (sup [(.r1, 0xFFFFFFF9), (.r2, 2)]) 0xB6240000 (fun t => t.div) =
      some (some ⟨0xFFFFFFFD, 0xFFFFFFFF, 11⟩) := by decide

/-- V10: `-2^31 / -1` has no event and no window. -/
theorem test_divs_overflow :
    run32 (sup [(.r1, 0x80000000), (.r2, 0xFFFFFFFF)]) 0xB6240000 (fun t => (t.div, t.halted)) =
      some (none, false) := by decide

/-- S5: `MVSU sR1, uR2`. -/
theorem test_mvsu :
    run32 (withRegisters (sup []) .user [(.r2, 7)]) 0xB8240000 (sreg .r1) = some 7 := by decide

/-- V13: `MVSU R1, R2` in user mode: the user `SR` reads `0x50`. -/
theorem test_mvsu_in_user_mode :
    run32 (usr [(.r2, 7)]) 0xB8240000 (fun t => (t.cur, t.reg .user .sr, t.reg .user .r1)) =
      some (.supervisor, 0x50, 0) := by decide

/-- S5: `MVUS uR1, sR2`. -/
theorem test_mvus :
    run32 (sup [(.r2, 7)]) 0xBA240000 (fun t => (t.reg .user .r1, sreg .r1 t)) = some (7, 0) := by decide

/-- V13: `MVUS uSR, sR5`: the `M` bit is ignored, the mode stays. -/
theorem test_mvus_user_sr :
    run32 (sup [(.r5, 0x60F)]) 0xBB6A0000 (fun t => (t.reg .user .sr, t.cur)) = some (0x61F, .supervisor) := by decide

/-- R240. -/
theorem test_mvhi :
    run32 { sup [] with hi := 9, lo := 8 } 0xBC600000 (sreg .r3) = some 9 := by decide

/-- R241. -/
theorem test_mvlo :
    run32 { sup [] with hi := 9, lo := 8 } 0xBF000000 (sreg .r8) = some 8 := by decide

/-- V7. -/
theorem test_lw :
    run32 loads 0xC0900040 (sreg .r1) = some 0xFFFE8000 := by decide

/-- V8b: `SW` and `LW` at address 0 halt the supervisor with `NUL`. -/
theorem test_lw_null :
    run32 (sup []) 0xC1000000 (fun t => (sreg .sr t, t.halted)) = some (0x400, true) := by decide

/-- V8: `SW R1, R2, 8` and its four bytes. -/
theorem test_sw :
    run32 (sup [(.r1, 0xA1B2C3D4), (.r2, 0x20000)]) 0xC8900080
        (fun t => (t.byteAt 0x20008, t.byteAt 0x20009, t.byteAt 0x2000A, t.byteAt 0x2000B)) =
      some (0xD4, 0xC3, 0xB2, 0xA1) := by decide

/-- V8: `SH R1, R2, 14`. -/
theorem test_sh :
    run32 (sup [(.r1, 0xA1B2C3D4), (.r2, 0x20000)]) 0xD09000E0
        (fun t => (Memory.lookup t.mem 0x2000E, Memory.lookup t.mem 0x2000F, Memory.lookup t.mem 0x20010)) =
      some (some 0xD4, some 0xC3, none) := by decide

/-- V8b: `SB R1, R0, -1` is an output on `LCD_CTRL`. -/
theorem test_sb_to_port :
    run32 (sup [(.r1, 0xA1B2C3D4)]) 0xD887FFF0 (fun t => t.outputs) = some [⟨.lcdCtrl, 0xD4⟩] := by decide

/-- V8: `SB R1, R2, 19`. -/
theorem test_sb :
    run32 (sup [(.r1, 0xA1B2C3D4), (.r2, 0x20000)]) 0xD8900130
        (fun t => (Memory.lookup t.mem 0x20013, Memory.lookup t.mem 0x20014)) = some (some 0xD4, none) := by decide

/-- V7. -/
theorem test_lhu :
    run32 loads 0xE0900040 (sreg .r1) = some 0x00008000 := by decide

/-- V7. -/
theorem test_lhs :
    run32 loads 0xE8900040 (sreg .r1) = some 0xFFFF8000 := by decide

/-- V7. -/
theorem test_lbu :
    run32 loads 0xF0900000 (sreg .r1) = some 0x00000080 := by decide

/-- V7. -/
theorem test_lbs :
    run32 loads 0xF8900000 (sreg .r1) = some 0xFFFFFF80 := by decide

/-! ## Stops -/

/-- V8b: `LW R1, R2, 2` off a multiple of 4 (`MISALIGNED` = refuse). -/
theorem test_misaligned :
    whyRefused (step ((sup [(.r2, 0x20000)]).withFetchWord 32 0xC0900020)) = some .misaligned := by decide

/-- V8b: `SH R1, R0, -2` covers two ports. -/
theorem test_wide_store_over_port :
    whyRefused (step ((sup []).withFetchWord 32 0xD087FFE0)) = some .wideStoreOverPort := by decide

/-- R72: a store to the first address beyond RAM. -/
theorem test_store_to_nothing :
    whyRefused (step ((sup [(.r2, 0xF0000000)]).withFetchWord 32 0xC8900000)) = some .storeToNothing := by decide

/-- V8b: a store to ROM. -/
theorem test_store_to_rom :
    whyRefused (step ((sup [(.r2, 0x1000)]).withFetchWord 32 0xC8900000)) = some .storeToRom := by decide

/-- V11: `MLTU` as the 11th instruction after a divide. -/
theorem test_multiply_at_the_eleventh :
    whyRefused (step ({ sup [] with div := some ⟨14, 2, 1⟩ }.withFetchWord 32 0xB0240000)) =
      some .multiplyAt11thAfterDivide := by decide

/-- V5: a write of `SR` that sets `WFI` and `STEP`. -/
theorem test_wfi_or_step_set :
    whyRefused (step ((sup [(.r1, 0xFFFFFFFF)]).withFetchWord 32 0x82C40008)) = some .wfiOrStepSet := by decide

/-- V13: an illegal halfword in user mode: the user `SR` reads `0x50`, the supervisor goes on. -/
theorem test_illegal_halfword :
    run16 (usr []) 0x8123 (fun t => (t.cur, t.reg .user .sr, t.pc)) = some (.supervisor, 0x50, 0x100) := by decide

/-- R290, R280: an interrupt at the boundary: the user `SR` reads `0x210`, its `PC` stays, the supervisor goes on. -/
theorem test_interrupt :
    (after (stepUnder (some fun k => k == 0) (usr []))).map (fun t => (t.cur, t.reg .user .sr, t.reg .user .pc, t.pc)) =
      some (.supervisor, 0x210, 0x00010000, 0x100) := by decide

/-- R290: with `IRQ` = none the same user code runs on. -/
theorem test_no_interrupt :
    run32 (usr []) 0xA1000020 (fun t => (t.cur, t.reg .user .r1)) = some (.user, 2) := by decide

/-- R31: inside a long instruction. -/
theorem test_inside_long :
    whyRefused (step { sup [(.pc, 0x00010002)] with mem := Memory.write [] 0x10000 0x80000000 4 }) =
      some .pcInsideLongInstruction := by decide

/-- V12 (b), step 3: a first-slot `NOP` takes an entry of the queue. -/
theorem test_nop_takes_an_entry :
    run32 { sup [] with cndq := [⟨false, .ifNZ⟩, ⟨false, .always⟩] } 0x02F00000 (fun t => (t.cndq, t.pc)) =
      some ([⟨false, .always⟩], 0x00010002) := by decide

/-! ## Witnesses: for each obligation with hypotheses, states and operands that meet them, clause by clause -/

/-- Memory in which two words stand, `a` at `0x00010000` and `b` at `0x00010004`. -/
def words (a b : Word) : List Host.Cell := Memory.write (Memory.write [] 0x10000 a 4) 0x10004 b 4

/-- The pair `ADD R1, PC, R0 | ADD R2, PC, R0` (V5). -/
def pair : State := { sup [] with mem := words 0x02F001F0 0 }

/-- The same pair at its second slot. -/
def pairSecond : State := { sup [(.pc, 0x00010002)] with mem := words 0x02F001F0 0 }

/-- `ADD R1, PC, R0` and the skipped `NOP` (S4). -/
def pairNop : State := { sup [] with mem := words 0x000001F0 0 }

/-- `ADDI* PC, PC, -4` (V5): it jumps to itself. -/
def loop : State := { sup [] with mem := words 0x83FFFFC8 0 }

/-- `LDI?Z R1, 5` with `Z` clear and an entry in the queue. -/
def skipped (d : Option DivWindow) : State :=
  { sup [] with mem := words 0xA1000052 0, cndq := [⟨false, .ifNZ⟩], div := d }

/-- The specifier of an instruction that always runs and freezes the flags. -/
def frozen : Specifier := ⟨true, .always⟩

theorem inv_of_fields (s : State) (hm : Memory.wf s.mem = true) (hq : s.cndq = []) (hd : s.div = none)
    (hf : ∀ m, s.flagsOf m = StatusFlags.clear) (hh : s.halted = false) : s.Inv :=
  ⟨hm, by rw [hq]; decide, fun w h => by rw [hd] at h; exact absurd h (by simp), fun m => by rw [hf m]; rfl,
    fun m => by rw [hf m]; rfl, fun h => by rw [hh] at h; exact absurd h (by decide)⟩

theorem witness_StepKeepsTheInvariant : ∃ s t, s.Inv ∧ step s = .next t ∧ stepUnder none s = .next t :=
  ⟨pair, _, inv_of_fields pair (by decide) rfl rfl (by intro m; cases m <;> rfl) rfl, rfl, rfl⟩

theorem witness_StepRunsTheDecodedInstruction :
    (pair.fetches none ∧ decodeSlot (slotOf pair.pc) pair.fetchWord.1 = .ok (.add .r1 .pc .r0) ∧
      (Instr.add .r1 .pc .r0).wellFormed = true) ∧
    (pairSecond.fetches none ∧ decodeSlot (slotOf pairSecond.pc) pairSecond.fetchWord.1 = .ok (.add .r2 .pc .r0) ∧
      (Instr.add .r2 .pc .r0).wellFormed = true) ∧
    (loop.fetches none ∧ decodeSlot (slotOf loop.pc) loop.fetchWord.1 = .ok (.addi .pc .pc (-4) frozen) ∧
      (Instr.addi .pc .pc (-4) frozen).wellFormed = true) :=
  ⟨⟨⟨rfl, rfl, rfl, by decide⟩, by decide, by decide⟩, ⟨⟨rfl, rfl, rfl, by decide⟩, by decide, by decide⟩,
    ⟨⟨rfl, rfl, rfl, by decide⟩, by decide, by decide⟩⟩

/-- The first and the last word of ROM and RAM. -/
theorem witness_FetchReadsTheWordAtPc :
    (0 < (wordAddress (sup [(.pc, 6)]).pc).toNat ∧ (wordAddress (sup [(.pc, 6)]).pc).toNat < 0xF0000000) ∧
    (0 < (wordAddress (sup [(.pc, 0xEFFFFFFC)]).pc).toNat ∧
      (wordAddress (sup [(.pc, 0xEFFFFFFC)]).pc).toNat < 0xF0000000) := by decide

/-- A long instruction; a second slot; a first slot before the skipped `NOP`; a first slot before another. -/
theorem witness_NextInstructionAddress :
    (loop.fetches none ∧ ∃ i, decodeSlot (slotOf loop.pc) loop.fetchWord.1 = .ok i ∧
      loop.fetchWord.1.getLsbD 31 = true) ∧
    (pairSecond.fetches none ∧ ∃ i, decodeSlot (slotOf pairSecond.pc) pairSecond.fetchWord.1 = .ok i ∧
      pairSecond.fetchWord.1.getLsbD 31 = false ∧ pairSecond.pc.getLsbD 1 = true) ∧
    (pairNop.fetches none ∧ ∃ i, decodeSlot (slotOf pairNop.pc) pairNop.fetchWord.1 = .ok i ∧
      pairNop.pc.getLsbD 1 = false ∧ pairNop.fetchWord.1.extractLsb' 16 16 = 0) ∧
    (pair.fetches none ∧ ∃ i, decodeSlot (slotOf pair.pc) pair.fetchWord.1 = .ok i ∧
      pair.pc.getLsbD 1 = false ∧ pair.fetchWord.1.extractLsb' 16 16 ≠ 0) :=
  ⟨⟨⟨rfl, rfl, rfl, by decide⟩, _, rfl, by decide⟩, ⟨⟨rfl, rfl, rfl, by decide⟩, _, rfl, by decide, by decide⟩,
    ⟨⟨rfl, rfl, rfl, by decide⟩, _, rfl, by decide, by decide⟩,
    ⟨⟨rfl, rfl, rfl, by decide⟩, _, rfl, by decide, by decide⟩⟩

/-- Word 0 as it is fetched: bit 31 lies in the byte at address 3, which is ROM. -/
theorem word_zero_bit_31 (v : Word) :
    (State.fetchWord { sup [(.pc, 2)] with mem := Memory.write [] 0 v 4 }).1.getLsbD 31 = v.getLsbD 31 := by
  have e : State.pc { sup [(.pc, 2)] with mem := Memory.write [] 0 v 4 } = 2 := rfl
  unfold State.fetchWord
  rw [e, show wordAddress 2 = 0 by decide]
  unfold State.readBytes
  rw [show allBacked 0 4 = false by decide]
  simp only [Bool.false_eq_true, if_false, State.memRead, show backed 0 = false by decide,
    show backed (0 + 1) = true by decide, show backed (0 + 1 + 1) = true by decide,
    show backed (0 + 1 + 1 + 1) = true by decide, if_true, State.byteAt, Memory.write, Memory.insert,
    show (0 : Word).toNat = 0 from rfl, show (0 + 1 : Word).toNat = 1 from rfl,
    show (0 + 1 + 1 : Word).toNat = 2 from rfl, show (0 + 1 + 1 + 1 : Word).toNat = 3 from rfl]
  simp [Memory.insert, Memory.lookup]

/-- R288 (D40): inside a long instruction at word 0 the refusal comes before the fault. -/
theorem test_inside_long_at_word_zero :
    step { sup [(.pc, 2)] with mem := Memory.write [] 0 0x80000000 4 } = .refused .pcInsideLongInstruction := by
  have h : State.insideLong (State.countStep { sup [(.pc, 2)] with mem := Memory.write [] 0 0x80000000 4 }) = true := by
    exact (congrArg (true && ·) (word_zero_bit_31 0x80000000)).trans (by decide)
  show (match State.fetchAtPc (State.countStep { sup [(.pc, 2)] with mem := Memory.write [] 0 0x80000000 4 }) with
    | .over o => o
    | .run i t => Result.finish (exec i t)) = _
  unfold State.fetchAtPc
  rw [if_neg (by decide), if_pos h]

/-- An odd `pc`; inside a long instruction, and inside one at word 0; a second slot. -/
theorem witness_PcAlignment :
    (let s := sup [(.pc, 0x00010001)]; s.halted = false ∧ s.interruptTaken none = false ∧ s.pc.getLsbD 0 = true) ∧
    (let s := { loop with sup := { loop.sup with pc := 0x00010002 } };
      s.halted = false ∧ s.interruptTaken none = false ∧ s.pc.getLsbD 0 = false ∧ s.pc.getLsbD 1 = true ∧
      s.fetchWord.1.getLsbD 31 = true) ∧
    (let s := { sup [(.pc, 2)] with mem := Memory.write [] 0 0x80000000 4 };
      s.halted = false ∧ s.interruptTaken none = false ∧ s.pc.getLsbD 0 = false ∧ s.pc.getLsbD 1 = true ∧
      s.fetchWord.1.getLsbD 31 = true) ∧
    (pairSecond.fetches none ∧ pairSecond.pc.getLsbD 1 = true ∧ pairSecond.fetchWord.1.getLsbD 31 = false) :=
  ⟨⟨rfl, rfl, rfl⟩, ⟨rfl, rfl, by decide, by decide, by decide⟩,
    ⟨rfl, rfl, by decide, by decide, by rw [word_zero_bit_31]; decide⟩,
    ⟨⟨rfl, rfl, rfl, by decide⟩, by decide, by decide⟩⟩

theorem witness_DecodeInvertsEncode :
    (Instr.add .r0 .r0 .r1).wellFormed = true ∧ (Instr.lbs .pc .sp (-1) ⟨true, .ifNC⟩).wellFormed = true := by
  decide

theorem witness_EncodedInstructionsDecodeInTheirSlots :
    ((Instr.mvlo .pc frozen).wellFormed = true ∧ encode (.mvlo .pc frozen) = .long 0xBFE00008) ∧
    ((Instr.add .r1 .r2 .r3).wellFormed = true ∧ encode (.add .r1 .r2 .r3) = .short 0x0123 ∧
      (0x7FFF : Half).getLsbD 15 = false) := by decide

theorem witness_EveryHalfwordIsAnInstructionOrIllegal :
    (0x8000 : Half).getLsbD 15 = true ∧ (0x7FFF : Half).getLsbD 15 = false := by decide

theorem witness_EveryLongWordIsAnInstruction :
    (0x80000000 : Word).getLsbD 31 = true ∧
    ((0xBDFFFFFF : Word).getLsbD 31 = true ∧ (0xBDFFFFFF : Word).extractLsb' 26 6 = 0b101111#6) ∧
    ((0xBBFFFFFF : Word).getLsbD 31 = true ∧ (0xBBFFFFFF : Word).extractLsb' 26 6 ≠ 0b101111#6 ∧
      (0xBBFFFFFF : Word).extractLsb' 28 4 = 0b1011#4) ∧
    ((0xB0000000 : Word).extractLsb' 25 7 = 0b1011000#7 ∧ (0xBFFFFFFF : Word).extractLsb' 25 7 = 0b1011111#7) := by
  decide

theorem witness_RowsSelectTheirInstruction :
    ((0xFFFFFFFF : Word).getLsbD 31 = true ∧ ("LBS", 0xF8000000, 0xF8000000) ∈ longRows) ∧
    ((0x0001 : Half) &&& 0xFFFF ≠ 0x0000 ∧ ("ADD", 0x0000, 0xF000) ∈ shortRows) ∧
    ((0x7FFF : Half).getLsbD 15 = false ∧ ("CND", 0x7000, 0xF000) ∈ shortRows) := by decide

theorem witness_ShortFormatsPlaceTheirFields :
    ((0x7000 : Half) ≠ 0 ∧ (0x7000 : Half).extractLsb' 12 4 = 0b0111#4) ∧
    ((0x0001 : Half) ≠ 0 ∧ (0x0001 : Half).extractLsb' 12 4 = 0b0000#4) ∧
    ((0x6FFF : Half) ≠ 0 ∧ (0x6FFF : Half).extractLsb' 12 4 = 0b0110#4) := by decide

theorem witness_LongFormatsPlaceTheirFields :
    (0x80000000 : Word).extractLsb' 26 6 = 0b100000#6 ∧ (0x9FFFFFFF : Word).extractLsb' 26 6 = 0b100111#6 ∧
    (0xC0000000 : Word).extractLsb' 27 5 = 0b11000#5 ∧ (0xFFFFFFFF : Word).extractLsb' 27 5 = 0b11111#5 ∧
    (0xA0000000 : Word).extractLsb' 28 4 = 0b1010#4 := by decide

/-- No division; a window of 2, the last that goes on; a window of 1, which lands. -/
theorem witness_FailedConditionDoesNothing :
    (∃ i u, (skipped none).fetch none = .run i u ∧ ¬ u.passes i) ∧
    (∃ i u, (skipped (some ⟨14, 2, 2⟩)).fetch none = .run i u ∧ ¬ u.passes i) ∧
    (∃ i u, (skipped (some ⟨14, 2, 1⟩)).fetch none = .run i u ∧ ¬ u.passes i) :=
  ⟨⟨_, _, rfl, Bool.false_ne_true⟩, ⟨_, _, rfl, Bool.false_ne_true⟩, ⟨_, _, rfl, Bool.false_ne_true⟩⟩

/-- An executed `CND`; a change of mode; a predicated `CND`; any other instruction. -/
theorem witness_QueueLosesOneEntryPerInstruction :
    (∃ t, exec (.cnd frozen frozen frozen) (sup []) = .next t ∧ (sup []).passes (.cnd frozen frozen frozen)) ∧
    (∃ t, exec (.ori .sr .sr 0x10 frozen) (sup []) = .next t ∧ t.cur ≠ (sup []).cur) ∧
    (∃ t, exec (.cnd frozen frozen frozen) (skipped none) = .next t ∧ t.cur = (skipped none).cur) ∧
    (∃ t, exec (.cnd frozen frozen frozen) { sup [] with cndq := [⟨false, .ifZ⟩] } = .next t ∧
      ¬ State.passes { sup [] with cndq := [⟨false, .ifZ⟩] } (.cnd frozen frozen frozen)) ∧
    (∃ t, exec (.ldi .r1 5 frozen) (skipped none) = .next t ∧ t.cur = (skipped none).cur) :=
  ⟨⟨_, rfl, rfl⟩, ⟨_, rfl, by decide⟩, ⟨_, rfl, rfl⟩, ⟨_, rfl, Bool.false_ne_true⟩, ⟨_, rfl, rfl⟩⟩

theorem witness_CndFillsTheQueue : (skipped none).passes (.cnd frozen frozen frozen) := rfl

/-- A `NOP` in a window of 2; a first slot before the skipped `NOP`. -/
theorem witness_NopDoesNothing :
    (∃ u, State.fetch { sup [] with mem := words 0 0, div := some ⟨14, 2, 2⟩ } none = .run .nop u) ∧
    (pairNop.fetches none ∧ pairNop.pc.getLsbD 1 = false ∧ pairNop.fetchWord.1.getLsbD 31 = false ∧
      pairNop.fetchWord.1.extractLsb' 16 16 = 0x0000 ∧
      decodeSlot .first pairNop.fetchWord.1 = .ok (.add .r1 .pc .r0)) :=
  ⟨⟨_, rfl⟩, ⟨rfl, rfl, rfl, by decide⟩, by decide, by decide, by decide, by decide⟩

theorem witness_LeadingBitsTellTheFormat :
    (Instr.add .r1 .r2 .r3).isShort = true ∧
    ((Instr.addi .r1 .r2 0 frozen).isShort = false ∧ mnemonicOf (.addi .r1 .r2 0 frozen) = "ADDI") ∧
    ((Instr.ldi .r1 0 frozen).isShort = false ∧ mnemonicOf (.ldi .r1 0 frozen) = "LDI") ∧
    ((Instr.mvlo .r1 frozen).isShort = false ∧ mnemonicOf (.mvlo .r1 frozen) = "MVLO") ∧
    ((Instr.lbs .r1 .r2 0 frozen).isShort = false ∧ mnemonicOf (.lbs .r1 .r2 0 frozen) = "LBS") := by decide

theorem witness_AddAndSubtract :
    Reg.r0 ≠ .sr ∧ Reg.pc ≠ .sr ∧ (sup []).passes (.add .r0 .r1 .r2) ∧ (sup []).passes (.sub .pc .r1 .r2) ∧
    (sup []).passes (.addi .r0 .r1 8191 frozen) ∧ (sup []).passes (.subi .pc .r1 (-8192) ⟨false, .ifNZ⟩) :=
  ⟨by decide, by decide, rfl, rfl, rfl, rfl⟩

/-- Counts 0 and `2^31 - 1` to the left, -1 and `-2^31` to the right. -/
theorem witness_Shifts :
    Reg.r1 ≠ .sr ∧
    (let s := sup [(.r3, 0)]; s.passes (.lsh .r1 .r2 .r3) ∧ s.passes (.ash .r1 .r2 .r3) ∧ 0 ≤ (s.read .r3).toInt) ∧
    (let s := sup [(.r3, 0x7FFFFFFF)]; s.passes (.lsh .r1 .r2 .r3) ∧ 0 ≤ (s.read .r3).toInt) ∧
    (let s := sup [(.r3, 0xFFFFFFFF)];
      s.passes (.lsh .r1 .r2 .r3) ∧ s.passes (.ash .r1 .r2 .r3) ∧ (s.read .r3).toInt < 0) ∧
    (let s := sup [(.r3, 0x80000000)]; s.passes (.ash .r1 .r2 .r3) ∧ (s.read .r3).toInt < 0) ∧
    ((sup []).passes (.lshi .r1 .r2 0 frozen) ∧ (sup []).passes (.ashi .r1 .r2 0 frozen) ∧
      0 ≤ (0 : BitVec 14).toInt) ∧
    ((sup []).passes (.lshi .r1 .r2 (-1) frozen) ∧ (sup []).passes (.ashi .r1 .r2 (-1) frozen) ∧
      (-1 : BitVec 14).toInt < 0) :=
  ⟨by decide, ⟨rfl, rfl, by decide⟩, ⟨rfl, by decide⟩, ⟨rfl, rfl, by decide⟩, ⟨rfl, by decide⟩,
    ⟨rfl, rfl, by decide⟩, ⟨rfl, rfl, by decide⟩⟩

theorem witness_BitwiseLogic :
    Reg.r1 ≠ .sr ∧ (sup []).passes (.and .r1 .r2 .r3) ∧ (sup []).passes (.or .r1 .r2 .r3) ∧
    (sup []).passes (.xor .r1 .r2 .r3) ∧ (sup []).passes (.andi .r1 .r2 (-8192) frozen) ∧
    (sup []).passes (.ori .r1 .r2 0 frozen) ∧ (sup []).passes (.xori .r1 .r2 0 frozen) :=
  ⟨by decide, rfl, rfl, rfl, rfl, rfl, rfl⟩

/-- Frozen, a switch to user mode; not frozen, `ADD SR, R1, R0` of `0x66F`. -/
theorem witness_AluWriteOfSr :
    (let s := sup []; ∃ out, s.aluResult (.ori .sr .sr 0x10 frozen) = some (.sr, out) ∧
      s.passes (.ori .sr .sr 0x10 frozen) ∧ out.r.getLsbD 7 = false ∧ out.r.getLsbD 8 = false ∧
      s.freezes (.ori .sr .sr 0x10 frozen) = true) ∧
    (let s := sup [(.r1, 0x66F)]; ∃ out, s.aluResult (.add .sr .r1 .r0) = some (.sr, out) ∧
      s.passes (.add .sr .r1 .r0) ∧ out.r.getLsbD 7 = false ∧ out.r.getLsbD 8 = false ∧
      s.freezes (.add .sr .r1 .r0) = false) :=
  ⟨⟨_, rfl, rfl, by decide, by decide, rfl⟩, ⟨_, rfl, rfl, by decide, by decide, rfl⟩⟩

theorem witness_MovesIntoRegisters :
    (let s := sup []; s.moveResult (.ldh .r1 .r2 1 frozen) = some (.r1, 0x00040000) ∧ s.passes (.ldh .r1 .r2 1 frozen)) ∧
    (let s := sup []; s.moveResult (.ldi .pc (-1) frozen) = some (.pc, 0xFFFFFFFF) ∧ s.passes (.ldi .pc (-1) frozen)) ∧
    (let s := sup []; s.moveResult (.mvhi .r1 frozen) = some (.r1, 0) ∧ s.passes (.mvhi .r1 frozen)) ∧
    (let s := sup []; s.moveResult (.mvlo .r0 frozen) = some (.r0, 0) ∧ s.passes (.mvlo .r0 frozen)) ∧
    (let s := sup []; s.moveResult (.mvsu .r1 .sr frozen) = some (.r1, 0x10) ∧ s.passes (.mvsu .r1 .sr frozen)) ∧
    Reg.r1 ≠ .sr ∧ Reg.r0 ≠ .sr ∧ Reg.pc ≠ .sr :=
  ⟨⟨by decide, rfl⟩, ⟨by decide, rfl⟩, ⟨by decide, rfl⟩, ⟨by decide, rfl⟩, ⟨by decide, rfl⟩, by decide, by decide,
    by decide⟩

theorem witness_MovesIntoSr :
    (sup []).moveResult (.ldi .sr 0x67F frozen) = some (.sr, 0x67F) ∧ (sup []).passes (.ldi .sr 0x67F frozen) ∧
      (0x67F : Word).getLsbD 7 = false ∧ (0x67F : Word).getLsbD 8 = false :=
  ⟨by decide, rfl, by decide, by decide⟩

theorem witness_SettingWfiOrStepIsRefused :
    ((sup []).passes (.ori .sr .r0 0x80 frozen) ∧
      ∃ out, (sup []).aluResult (.ori .sr .r0 0x80 frozen) = some (.sr, out) ∧ out.r.getLsbD 7 = true) ∧
    ((sup []).passes (.ldi .sr 0x100 frozen) ∧ (sup []).moveResult (.ldi .sr 0x100 frozen) = some (.sr, 0x100) ∧
      (0x100 : Word).getLsbD 8 = true) ∧
    (let s := sup [(.r5, 0x80)];
      s.passes (.mvus .sr .r5 frozen) ∧ s.cur = .supervisor ∧ (s.read .r5).getLsbD 7 = true) ∧
    (let s := { sup [(.r2, 0x20000)] with mem := Memory.write [] 0x20000 0x80 4 };
      s.passes (.lbu .sr .r2 0 frozen) ∧ accessOf (.lbu .sr .r2 0 frozen) = some (.r2, 0, 1) ∧
      (∃ f, loadOf (.lbu .sr .r2 0 frozen) = some (.sr, f) ∧
        (f (s.bytesFrom (s.effectiveAddress .r2 0))).getLsbD 7 = true) ∧
      (s.effectiveAddress .r2 0).toNat = 0x20000) :=
  ⟨⟨rfl, _, rfl, by decide⟩, ⟨rfl, by decide, by decide⟩, ⟨rfl, rfl, by decide⟩,
    ⟨rfl, rfl, ⟨_, rfl, by decide⟩, by decide⟩⟩

theorem witness_UnspecifiedHiLoCanBeRead :
    (sup []).openHiLo.hiLoOpen = true ∧ Reg.r1 ≠ .sr ∧ (sup []).openHiLo.passes (.mvhi .r1 frozen) ∧
      (sup []).openHiLo.passes (.mvlo .r1 frozen) ∧ (sup []).openHiLo.passes (.mvhi .sr frozen) ∧
      (sup []).openHiLo.passes (.mvlo .sr frozen) := ⟨rfl, by decide, rfl, rfl, rfl, rfl⟩

theorem witness_MoveToUserRegister :
    (let s := sup [(.r1, 7)]; s.cur = .supervisor ∧ s.passes (.mvus .pc .r1 frozen) ∧ Reg.pc ≠ .sr ∧
      s.passes (.mvus .r0 .r1 frozen) ∧ Reg.r0 ≠ .sr) ∧
    (let s := sup [(.r5, 0x60F)]; s.cur = .supervisor ∧ s.passes (.mvus .sr .r5 frozen) ∧
      (s.read .r5).getLsbD 7 = false ∧ (s.read .r5).getLsbD 8 = false) :=
  ⟨⟨rfl, rfl, by decide, rfl, by decide⟩, ⟨rfl, rfl, by decide, by decide⟩⟩

theorem witness_CrossMovesAreIllegalInUserMode :
    (usr []).cur = .user ∧ (usr []).passes (.mvsu .r1 .r2 frozen) ∧ (usr []).passes (.mvus .r1 .r2 frozen) :=
  ⟨rfl, rfl, rfl⟩

theorem witness_SrReadsItsFlags : 0 < 32 ∧ 31 < 32 := by decide

/-- The lowest and the highest aligned addresses of ROM and RAM for each width. -/
theorem witness_LoadsFromMemory :
    (accessOf (.lw .r1 .r0 4 frozen) = some (.r0, 4, 4) ∧ (sup []).passes (.lw .r1 .r0 4 frozen) ∧
      ((sup []).effectiveAddress .r0 4).toNat = 4) ∧
    (∃ f, loadOf (.lw .r1 .r0 4 frozen) = some (.r1, f)) ∧
    (let s := sup [(.r2, 0xEFFFFFFF)];
      accessOf (.lhs .r1 .r2 (-1) frozen) = some (.r2, -1, 2) ∧ s.passes (.lhs .r1 .r2 (-1) frozen) ∧
      (s.effectiveAddress .r2 (-1)).toNat % 2 = 0 ∧ (s.effectiveAddress .r2 (-1)).toNat = 0xEFFFFFFE) ∧
    (let s := sup [(.r2, 0xEFFFFFFF)];
      accessOf (.lbs .pc .r2 0 frozen) = some (.r2, 0, 1) ∧ s.passes (.lbs .pc .r2 0 frozen) ∧
      (s.effectiveAddress .r2 0).toNat = 0xEFFFFFFF) ∧
    ((sup []).passes (.lhu .r1 .r0 2 frozen) ∧ (sup []).passes (.lbu .r1 .r0 1 frozen)) :=
  ⟨⟨rfl, rfl, by decide⟩, ⟨_, rfl⟩, ⟨rfl, rfl, by decide, by decide⟩, ⟨rfl, rfl, by decide⟩, ⟨rfl, rfl⟩⟩

theorem witness_LoadsIntoSr :
    let s := { sup [(.r2, 0x20000)] with mem := Memory.write [] 0x20000 0x67F 4 };
    accessOf (.lw .sr .r2 0 frozen) = some (.r2, 0, 4) ∧ loadOf (.lw .sr .r2 0 frozen) = some (.sr, fun v => v) ∧
    s.passes (.lw .sr .r2 0 frozen) ∧ (s.effectiveAddress .r2 0).toNat % 4 = 0 ∧
    0 < (s.effectiveAddress .r2 0).toNat ∧ (s.effectiveAddress .r2 0).toNat < 0xF0000000 ∧
    (s.bytesFrom (s.effectiveAddress .r2 0)).getLsbD 7 = false ∧
    (s.bytesFrom (s.effectiveAddress .r2 0)).getLsbD 8 = false :=
  ⟨rfl, rfl, rfl, by decide, by decide, by decide, by decide, by decide⟩

/-- The first address beyond RAM and the last port. -/
theorem witness_LoadsFromPortsAndUnmapped :
    (let s := sup [(.r2, 0xF0000000)];
      accessOf (.lw .r1 .r2 0 frozen) = some (.r2, 0, 4) ∧ s.passes (.lw .r1 .r2 0 frozen) ∧
      (s.effectiveAddress .r2 0).toNat % 4 = 0 ∧ 0xF0000000 ≤ (s.effectiveAddress .r2 0).toNat) ∧
    (accessOf (.lbu .r1 .r0 (-1) frozen) = some (.r0, -1, 1) ∧ (sup []).passes (.lbu .r1 .r0 (-1) frozen) ∧
      ((sup []).effectiveAddress .r0 (-1)).toNat = 0xFFFFFFFF) ∧
    (∃ f, loadOf (.lw .r1 .r2 0 frozen) = some (.r1, f)) ∧ Reg.r1 ≠ .sr ∧
    ((∃ f, loadOf (.lbu .sr .r0 (-1) frozen) = some (.sr, f)) ∧ (sup []).passes (.lbu .sr .r0 (-1) frozen)) :=
  ⟨⟨rfl, rfl, by decide, by decide⟩, ⟨rfl, rfl, by decide⟩, ⟨_, rfl⟩, by decide, ⟨_, rfl⟩, rfl⟩

/-- The lowest and the highest word, the highest halfword and byte of RAM. -/
theorem witness_StoresToRam :
    (let s := sup [(.r2, 0x10000)]; s.passes (.sw .r1 .r2 0 frozen) ∧ storeOf (.sw .r1 .r2 0 frozen) = some .r1 ∧
      accessOf (.sw .r1 .r2 0 frozen) = some (.r2, 0, 4) ∧ (s.effectiveAddress .r2 0).toNat = 0x10000) ∧
    (let s := sup [(.r2, 0xEFFFFFFC)];
      s.passes (.sw .pc .r2 0 frozen) ∧ (s.effectiveAddress .r2 0).toNat = 0xEFFFFFFC) ∧
    (let s := sup [(.r2, 0xEFFFFFFE)];
      s.passes (.sh .r1 .r2 0 frozen) ∧ (s.effectiveAddress .r2 0).toNat = 0xEFFFFFFE) ∧
    (let s := sup [(.r2, 0xEFFFFFFF)];
      s.passes (.sb .r1 .r2 0 frozen) ∧ (s.effectiveAddress .r2 0).toNat = 0xEFFFFFFF) :=
  ⟨⟨rfl, rfl, rfl, by decide⟩, ⟨rfl, by decide⟩, ⟨rfl, by decide⟩, ⟨rfl, by decide⟩⟩

theorem witness_ByteStoreToPort :
    ((sup []).passes (.sb .r1 .r0 (-1) frozen) ∧ (sup []).effectiveAddress .r0 (-1) = 0xFFFFFFFF) ∧
    ((sup []).passes (.sb .r1 .r0 (-2) frozen) ∧ (sup []).effectiveAddress .r0 (-2) = 0xFFFFFFFE) ∧
    ((sup []).passes (.sb .r1 .r0 (-3) frozen) ∧ (sup []).effectiveAddress .r0 (-3) = 0xFFFFFFFD) :=
  ⟨⟨rfl, by decide⟩, ⟨rfl, by decide⟩, ⟨rfl, by decide⟩⟩

/-- The first and the last byte of ROM; the two lowest wide stores over a port; the first and the last address
beyond RAM that is no port. -/
theorem witness_StoresThatStop :
    ((sup []).passes (.sb .r1 .r0 1 frozen) ∧ ((sup []).effectiveAddress .r0 1).toNat = 1) ∧
    (let s := sup [(.r2, 0xFFFC)]; s.passes (.sw .r1 .r2 0 frozen) ∧ (s.effectiveAddress .r2 0).toNat = 0xFFFC) ∧
    ((sup []).passes (.sh .r1 .r0 (-4) frozen) ∧ 0xFFFFFFFD < ((sup []).effectiveAddress .r0 (-4)).toNat + 2) ∧
    ((sup []).passes (.sw .r1 .r0 (-4) frozen) ∧ 0xFFFFFFFD < ((sup []).effectiveAddress .r0 (-4)).toNat + 4) ∧
    (let s := sup [(.r2, 0xF0000000)];
      s.passes (.sw .r1 .r2 0 frozen) ∧ (s.effectiveAddress .r2 0).toNat = 0xF0000000) ∧
    ((sup []).passes (.sb .r1 .r0 (-4) frozen) ∧ ((sup []).effectiveAddress .r0 (-4)).toNat + 1 = 0xFFFFFFFD) :=
  ⟨⟨rfl, by decide⟩, ⟨rfl, by decide⟩, ⟨rfl, by decide⟩, ⟨rfl, by decide⟩, ⟨rfl, by decide⟩, ⟨rfl, by decide⟩⟩

/-- In either mode, and by an address that wraps to 0 (V8b). -/
theorem witness_NullReferenceFaults :
    (accessOf (.lw .r2 .r0 0 frozen) = some (.r0, 0, 4) ∧ (usr []).passes (.lw .r2 .r0 0 frozen) ∧
      (usr []).effectiveAddress .r0 0 = 0) ∧
    (let s := sup [(.r2, 0xFFFFFFFF)];
      accessOf (.lbu .r1 .r2 1 frozen) = some (.r2, 1, 1) ∧ s.passes (.lbu .r1 .r2 1 frozen) ∧
      s.effectiveAddress .r2 1 = 0) ∧
    (accessOf (.sw .r1 .r0 0 frozen) = some (.r0, 0, 4) ∧ (sup []).passes (.sw .r1 .r0 0 frozen) ∧
      (sup []).effectiveAddress .r0 0 = 0) :=
  ⟨⟨rfl, rfl, by decide⟩, ⟨rfl, rfl, by decide⟩, ⟨rfl, rfl, by decide⟩⟩

theorem witness_MisalignedAccessIsRefused :
    accessOf (.lw .r1 .r2 2 frozen) = some (.r2, 2, 4) ∧
    ((sup [(.r2, 0x20000)]).passes (.lw .r1 .r2 2 frozen) ∧
      ((sup [(.r2, 0x20000)]).effectiveAddress .r2 2).toNat % 4 ≠ 0) := ⟨rfl, rfl, by decide⟩

/-- The lowest and the highest word of RAM. -/
theorem witness_NarrowReadsSeeTheWordWritten :
    (0x10000 ≤ (0x10000 : Word).toNat ∧ (0x10000 : Word).toNat + 4 ≤ 0xF0000000) ∧
    (0x10000 ≤ (0xEFFFFFFC : Word).toNat ∧ (0xEFFFFFFC : Word).toNat + 4 ≤ 0xF0000000) := by decide

/-- With no division pending, and as the 10th instruction after one. -/
theorem witness_Multiplication :
    ((sup []).landingNow = false ∧ (sup []).passes (.mltu .r1 .r2 frozen) ∧ (sup []).passes (.mlts .r1 .r2 frozen)) ∧
    ({ sup [] with div := some ⟨14, 2, 1⟩ }.landingNow = false) := ⟨⟨rfl, rfl, rfl⟩, rfl⟩

theorem witness_MultiplyAtTheEleventhIsRefused :
    (let s := { sup [] with mem := words 0xB0240000 0, div := some ⟨14, 2, 1⟩ };
      ∃ u, s.fetch none = .run (.mltu .r1 .r2 Specifier.none) u ∧ u.passes (.mltu .r1 .r2 Specifier.none)) ∧
    (let s := { sup [] with mem := words 0xB2240002 0, div := some ⟨14, 2, 1⟩ };
      ∃ u, s.fetch none = .run (.mlts .r1 .r2 ⟨false, .ifZ⟩) u ∧ ¬ u.passes (.mlts .r1 .r2 ⟨false, .ifZ⟩)) :=
  ⟨⟨_, rfl, rfl⟩, ⟨_, rfl, Bool.false_ne_true⟩⟩

theorem witness_DivisionStartsTheWindow :
    (let s := sup [(.r1, 7), (.r2, 2)]; s.div = none ∧ s.read .r2 ≠ 0 ∧ s.passes (.divu .r1 .r2 frozen) ∧
      s.passes (.divs .r1 .r2 frozen) ∧ ¬((s.read .r1).toInt = -2 ^ 31 ∧ (s.read .r2).toInt = -1)) ∧
    (let s := sup [(.r1, 0x80000000), (.r2, 1)]; s.div = none ∧ s.read .r2 ≠ 0 ∧ s.passes (.divs .r1 .r2 frozen) ∧
      ¬((s.read .r1).toInt = -2 ^ 31 ∧ (s.read .r2).toInt = -1)) ∧
    (let s := sup [(.r1, 0x80000000), (.r2, 0xFFFFFFFF)]; s.div = none ∧ s.read .r2 ≠ 0 ∧
      s.passes (.divs .r1 .r2 frozen) ∧ (s.read .r1).toInt = -2 ^ 31 ∧ (s.read .r2).toInt = -1) :=
  ⟨⟨rfl, by decide, rfl, rfl, by decide⟩, ⟨rfl, by decide, rfl, by decide⟩, ⟨rfl, by decide, rfl, by decide, by decide⟩⟩

theorem witness_DivisionByZeroFaults :
    ((sup []).div = none ∧ (sup []).read .r0 = 0 ∧ (sup []).passes (.divu .r5 .r0 frozen)) ∧
    ((usr []).div = none ∧ (usr []).read .r0 = 0 ∧ (usr []).passes (.divs .r5 .r0 frozen)) :=
  ⟨⟨rfl, rfl, rfl⟩, ⟨rfl, rfl, rfl⟩⟩

theorem witness_DivideWhilePendingIsRefused :
    let s := { sup [] with div := some ⟨14, 2, 11⟩ };
    s.div ≠ none ∧ s.passes (.divu .r1 .r0 frozen) ∧ s.passes (.divs .r1 .r2 frozen) := ⟨by decide, rfl, rfl⟩

/-- Windows of 2 and of 1. -/
theorem witness_WindowCountsInstructions :
    (∃ i u t, (skipped (some ⟨14, 2, 2⟩)).fetch none = .run i u ∧ stepUnder none (skipped (some ⟨14, 2, 2⟩)) = .next t) ∧
    (∃ i u t, (skipped (some ⟨14, 2, 1⟩)).fetch none = .run i u ∧ stepUnder none (skipped (some ⟨14, 2, 1⟩)) = .next t) :=
  ⟨⟨_, _, _, rfl, rfl⟩, ⟨_, _, _, rfl, rfl⟩⟩

/-- Eleven steps of the loop after `DIVU` of 100 by 7 (V11). -/
def elevenSteps (k : Nat) : State :=
  if k < 11 then { loop with div := some ⟨14, 2, 11 - k⟩, hiLoOpen := true, steps := k }
  else { loop with lo := 14, hi := 2, steps := 11 }

theorem witness_DivisionLandsAfterElevenInstructions :
    (elevenSteps 0).div = some ⟨14, 2, 11⟩ ∧
      ∀ k, k < 11 → (∃ i u, (elevenSteps k).fetch none = .run i u) ∧ stepUnder none (elevenSteps k) = .next (elevenSteps (k + 1)) := by
  refine ⟨rfl, ?_⟩
  intro k hk
  match k, hk with
  | 0, _ | 1, _ | 2, _ | 3, _ | 4, _ | 5, _ | 6, _ | 7, _ | 8, _ | 9, _ | 10, _ => exact ⟨⟨_, _, rfl⟩, rfl⟩

theorem witness_SystemCallAndReturn :
    (((usr []).flagsOf (usr []).cur).wfi = false ∧ ((usr []).flagsOf (usr []).cur).step = false ∧
      (usr []).cur = .user) ∧
    (((sup []).flagsOf (sup []).cur).wfi = false ∧ ((sup []).flagsOf (sup []).cur).step = false ∧
      (sup []).cur = .supervisor) := ⟨⟨rfl, rfl, rfl⟩, ⟨rfl, rfl, rfl⟩⟩

/-- `0x8000` before a `NOP` and before another instruction, in user and in supervisor mode. -/
theorem witness_IllegalHalfwordFaults :
    (let s := { usr [] with mem := words 0x00008000 0 };
      s.fetches none ∧ s.pc.getLsbD 1 = false ∧ s.fetchWord.1.getLsbD 31 = false ∧ s.fetchWord.1.getLsbD 15 = true ∧
      s.fetchWord.1.extractLsb' 16 16 = 0) ∧
    (let s := { sup [] with mem := words 0x01F08000 0 };
      s.fetches none ∧ s.pc.getLsbD 1 = false ∧ s.fetchWord.1.getLsbD 31 = false ∧ s.fetchWord.1.getLsbD 15 = true ∧
      s.fetchWord.1.extractLsb' 16 16 ≠ 0) :=
  ⟨⟨⟨rfl, rfl, rfl, by decide⟩, by decide, by decide, by decide, by decide⟩,
    ⟨⟨rfl, rfl, rfl, by decide⟩, by decide, by decide, by decide, by decide⟩⟩

/-- Both slots of word 0. -/
theorem witness_FetchFromWordZeroFaults :
    (let s := sup [(.pc, 0)]; s.halted = false ∧ s.interruptTaken none = false ∧ s.pc.getLsbD 0 = false ∧
      wordAddress s.pc = 0 ∧ s.pc.getLsbD 1 = false) ∧
    (let s := { sup [(.pc, 2)] with mem := Memory.write [] 0 0x7FFFFFFF 4 };
      s.halted = false ∧ s.interruptTaken none = false ∧ s.pc.getLsbD 0 = false ∧ wordAddress s.pc = 0 ∧
      s.fetchWord.1.getLsbD 31 = false) :=
  ⟨by decide, rfl, rfl, by decide, by decide, by rw [word_zero_bit_31]; decide⟩

/-- A platform whose interrupt request is asserted at every even step. -/
def evenSteps (k : Nat) : Bool := k % 2 == 0

theorem witness_InterruptIsTakenAtTheBoundary :
    (let s := usr []; s.halted = false ∧ s.cur = .user ∧ s.cndq = [] ∧ evenSteps s.steps = true) ∧
    (let s := { usr [] with cndq := [frozen] }; s.halted = false ∧ s.cndq ≠ []) ∧
    (let s := sup []; s.halted = false ∧ s.cur = .supervisor) ∧
    (let s := { usr [] with steps := 1 }; s.halted = false ∧ evenSteps s.steps = false) ∧
    (∃ t, stepUnder none pair = .next t ∧ pair.halted = false) :=
  ⟨by decide, by decide, by decide, by decide, _, rfl, rfl⟩

theorem witness_HaltIsAbsorbing : { sup [] with halted := true }.halted = true := rfl

/-- `LW R2, R0, 0` (V8b). -/
theorem witness_OnlySupervisorFaultsHalt :
    ∃ t, stepUnder none { sup [] with mem := words 0xC1000000 0 } = .next t ∧
      State.halted { sup [] with mem := words 0xC1000000 0 } = false ∧ t.halted = true := ⟨_, rfl, rfl, rfl⟩

/-- By a system call and by an interrupt. -/
theorem witness_EntryToSupervisorWritesHwi :
    (∃ t, stepUnder none { usr [] with mem := words 0x9AEC0108 0 } = .next t ∧ (usr []).cur = .user ∧ t.cur = .supervisor) ∧
    (∃ t, stepUnder (some evenSteps) (usr []) = .next t ∧ (usr []).cur = .user ∧ t.cur = .supervisor) :=
  ⟨⟨_, rfl, rfl, rfl⟩, ⟨_, rfl, rfl, rfl⟩⟩

theorem witness_EntryToUserRestoresNothing :
    ∃ t, stepUnder none { sup [] with mem := words 0x96EC0108 0 } = .next t ∧ (sup []).cur = .supervisor ∧ t.cur = .user :=
  ⟨_, rfl, rfl, rfl⟩

theorem witness_UserModeCannotWriteTheSupervisorSet :
    ∃ t, stepUnder none { usr [] with mem := words 0xA1000050 0 } = .next t ∧ (usr []).cur = .user := ⟨_, rfl, rfl⟩

theorem witness_UserModeCannotReadTheSupervisorSet :
    { usr [] with mem := words 0xA1000050 0 }.cur = .user := rfl

/-- `SB` to the lowest byte of RAM; the bytes at the two edges outside it. -/
theorem witness_OnlyRamChanges :
    (∃ t, stepUnder none { sup [(.r2, 0x10000)] with mem := words 0xD8900000 0 } = .next t) ∧
      (0xFFFF : Word).toNat < 0x10000 ∧ 0xF0000000 ≤ (0xF0000000 : Word).toNat := ⟨⟨_, rfl⟩, by decide, by decide⟩

theorem witness_OutputsOnlyGrow : ∃ t, stepUnder none { sup [] with mem := words 0xD887FFF0 0 } = .next t := ⟨_, rfl⟩

end Sys2Proof.Tests
end

/-! Encoding (30_encoding.md R91, R95 to R99): a field inside an opcode tells the format and the row, so each format's
decoder is reached from its opcode alone; and the leading bits that each format's encoder writes. -/

namespace Sys2Proof.Proofs.Encoding
open Sys2Proof Sys2Proof.Machine

/-! ## The opcode of a word tells its format and its row -/

/-- Part of a field, as the same bits of the field's value. -/
theorem extractLsb'_of_field {n k len : Nat} {w : BitVec n} {field : BitVec len} (h : w.extractLsb' k len = field)
    (i l : Nat) (hi : i + l ≤ len) : w.extractLsb' (k + i) l = field.extractLsb' i l := by
  subst h
  ext j hj
  have hj' : i + j < len := by omega
  simp [hj', Nat.add_assoc]

/-- The opcode of the Short and the CND format: bit 15, and the three bits that select the row (R95, R96). -/
theorem short_opcode {h : Half} {op : BitVec 4} (hop : h.extractLsb' 12 4 = op) :
    h.getLsbD 15 = op.getLsbD 3 ∧ h.extractLsb' 12 3 = op.extractLsb' 0 3 :=
  ⟨by rw [getLsbD_of_extract h 12 4 15 (by decide) (by decide), hop],
    extractLsb'_of_field hop 0 3 (by decide)⟩

/-- An opcode that begins `100` is that of an immediate instruction, its other three bits select the row (R91, R97). -/
theorem decodeLong_of_immediate_opcode {w : Word} {op : BitVec 6} (hop : w.extractLsb' 26 6 = op)
    (lead : op.extractLsb' 3 3 = 0b100#3) :
    decodeLong w = .ok (decodeImmediate w) ∧ w.extractLsb' 26 3 = op.extractLsb' 0 3 :=
  ⟨decodeLong_of_100 w ((extractLsb'_of_field hop 3 3 (by decide)).trans lead),
    extractLsb'_of_field hop 0 3 (by decide)⟩

/-- An opcode that begins `11` is that of a load or store, its other three bits select the row (R91, R98). -/
theorem decodeLong_of_loadStore_opcode {w : Word} {op : BitVec 5} (hop : w.extractLsb' 27 5 = op)
    (lead : op.extractLsb' 3 2 = 0b11#2) :
    decodeLong w = .ok (decodeLoadStore w) ∧ w.extractLsb' 27 3 = op.extractLsb' 0 3 :=
  ⟨decodeLong_of_11 w ((extractLsb'_of_field hop 3 2 (by decide)).trans lead),
    extractLsb'_of_field hop 0 3 (by decide)⟩

/-- Settles O59: the opcode fixes bit 15 and the row, and the row's arm of `decodeShort` reads the fields. -/
theorem shortFormatsPlaceTheirFields : Obligations.ShortFormatsPlaceTheirFields := by
  intro h h0
  simp only [List.forall_mem_cons, List.not_mem_nil, false_implies, implies_true, and_true]
  refine ⟨?cnd, ?add, ?sub, ?lsh, ?ash, ?and, ?or, ?xor⟩
  all_goals
    intro hop
    obtain ⟨h15, hrow⟩ := short_opcode hop
    rw [decodeShort, if_neg h0, h15, hrow]
    rfl

/-- Settles O60: the leading bits of the opcode choose the format's decoder, its other bits the arm that reads the
fields. -/
theorem longFormatsPlaceTheirFields : Obligations.LongFormatsPlaceTheirFields := by
  intro w
  simp only [List.forall_mem_cons, List.not_mem_nil, false_implies, implies_true, and_true]
  refine ⟨⟨?addi, ?subi, ?lshi, ?ashi, ?andi, ?ori, ?xori, ?ldh⟩, ⟨?lw, ?sw, ?sh, ?sb, ?lhu, ?lhs, ?lbu, ?lbs⟩,
    decodeLong_of_1010 w⟩
  case addi | subi | lshi | ashi | andi | ori | xori | ldh =>
    intro hop
    obtain ⟨hformat, hrow⟩ := decodeLong_of_immediate_opcode hop (by decide)
    rw [hformat, decodeImmediate, hrow]
    rfl
  case lw | sw | sh | sb | lhu | lhs | lbu | lbs =>
    intro hop
    obtain ⟨hformat, hrow⟩ := decodeLong_of_loadStore_opcode hop (by decide)
    rw [hformat, decodeLoadStore, hrow]
    rfl

/-! ## The leading bits that the encoder writes -/

/-- The instructions of the Immediate format (R97). -/
def immediateNames : List String := ["ADDI", "SUBI", "LSHI", "ASHI", "ANDI", "ORI", "XORI", "LDH"]

/-- The instructions of the Misc formats under `1011` (R100, R101). -/
def miscNames : List String := ["MLTU", "MLTS", "DIVU", "DIVS", "MVSU", "MVUS", "MVHI", "MVLO"]

/-- The instructions of the Load/store format (R98). -/
def loadStoreNames : List String := ["LW", "SW", "SH", "SB", "LHU", "LHS", "LBU", "LBS"]

/-- What R91 says of the encoding `e` of a long instruction with the mnemonic `m`. -/
def LeadsAs (m : String) (e : Encoding) : Prop :=
  ∃ w, e = .long w ∧ w.getLsbD 31 = true ∧
    (m ∈ immediateNames → w.extractLsb' 29 3 = 0b100#3) ∧
    (m = "LDI" → w.extractLsb' 28 4 = 0b1010#4) ∧
    (m ∈ miscNames → w.extractLsb' 28 4 = 0b1011#4) ∧
    (m ∈ loadStoreNames → w.extractLsb' 30 2 = 0b11#2)

/-- No mnemonic has two formats. -/
theorem immediateNames_only : ∀ m ∈ immediateNames, m ≠ "LDI" ∧ m ∉ miscNames ∧ m ∉ loadStoreNames := by decide

theorem ldi_only : "LDI" ∉ immediateNames ∧ "LDI" ∉ miscNames ∧ "LDI" ∉ loadStoreNames := by decide

theorem miscNames_only : ∀ m ∈ miscNames, m ∉ immediateNames ∧ m ≠ "LDI" ∧ m ∉ loadStoreNames := by decide

theorem loadStoreNames_only : ∀ m ∈ loadStoreNames, m ∉ immediateNames ∧ m ≠ "LDI" ∧ m ∉ miscNames := by decide

/-- Bit 31 is the first of the leading bits. -/
theorem getLsbD_31_of_lead {w : Word} {k len : Nat} {lead : BitVec len} (h : w.extractLsb' k len = lead)
    (hk : k ≤ 31) (hlen : 31 < k + len) : w.getLsbD 31 = lead.getLsbD (31 - k) := by
  rw [getLsbD_of_extract w k len 31 hk hlen, h]

theorem encodeShort_leads (op : BitVec 3) (d s1 s2 : BitVec 4) :
    ∃ h, encodeShort op d s1 s2 = .short h ∧ h.getLsbD 15 = false := by
  obtain ⟨_, _, _, _, h15⟩ := short_fields op d s1 s2
  exact ⟨_, rfl, h15⟩

theorem encodeImmediate_leads {m : String} (hm : m ∈ immediateNames) (op : BitVec 3) (d s : Reg) (imm : BitVec 14)
    (c : Specifier) : LeadsAs m (encodeImmediate op d s imm c) := by
  obtain ⟨_, _, _, _, _, lead⟩ := immediate_fields op d.bits s.bits imm c.bits
  obtain ⟨hldi, hmisc, hls⟩ := immediateNames_only m hm
  exact ⟨_, rfl, getLsbD_31_of_lead lead (by decide) (by decide), fun _ => lead, (absurd · hldi), (absurd · hmisc),
    (absurd · hls)⟩

theorem encode_ldi_leads (d : Reg) (imm : BitVec 20) (c : Specifier) : LeadsAs "LDI" (encode (.ldi d imm c)) := by
  obtain ⟨_, _, _, lead⟩ := ldi_fields d.bits imm c.bits
  obtain ⟨himm, hmisc, hls⟩ := ldi_only
  exact ⟨_, rfl, getLsbD_31_of_lead lead (by decide) (by decide), (absurd · himm), fun _ => lead, (absurd · hmisc),
    (absurd · hls)⟩

theorem encodeMisc_leads {m : String} (hm : m ∈ miscNames) (op : BitVec 3) (f1 f2 : BitVec 4) (c : Specifier) :
    LeadsAs m (encodeMisc op f1 f2 c) := by
  obtain ⟨_, _, _, _, lead⟩ := misc_fields op f1 f2 0#13 c.bits
  obtain ⟨himm, hldi, hls⟩ := miscNames_only m hm
  exact ⟨_, rfl, getLsbD_31_of_lead lead (by decide) (by decide), (absurd · himm), (absurd · hldi), fun _ => lead,
    (absurd · hls)⟩

theorem encodeLoadStore_leads {m : String} (hm : m ∈ loadStoreNames) (op : BitVec 3) (sd a : Reg) (imm : BitVec 15)
    (c : Specifier) : LeadsAs m (encodeLoadStore op sd a imm c) := by
  obtain ⟨_, _, _, _, _, lead⟩ := loadStore_fields op sd.bits a.bits imm c.bits
  obtain ⟨himm, hldi, hmisc⟩ := loadStoreNames_only m hm
  exact ⟨_, rfl, getLsbD_31_of_lead lead (by decide) (by decide), (absurd · himm), (absurd · hldi), (absurd · hmisc),
    fun _ => lead⟩

theorem encode_short_leads {i : Instr} (hi : i.isShort = true) :
    ∃ h, encode i = .short h ∧ h.getLsbD 15 = false := by
  cases i
  case nop => exact ⟨0, rfl, rfl⟩
  case add | sub | lsh | ash | and | or | xor | cnd => exact encodeShort_leads ..
  all_goals cases hi

theorem encode_long_leads {i : Instr} (hi : i.isShort = false) : LeadsAs (mnemonicOf i) (encode i) := by
  cases i
  case addi | subi | lshi | ashi | andi | ori | xori | ldh =>
    exact encodeImmediate_leads (by simp [mnemonicOf, immediateNames]) ..
  case ldi => exact encode_ldi_leads ..
  case mltu | mlts | divu | divs | mvsu | mvus | mvhi | mvlo =>
    exact encodeMisc_leads (by simp [mnemonicOf, miscNames]) ..
  case lw | sw | sh | sb | lhu | lhs | lbu | lbs =>
    exact encodeLoadStore_leads (by simp [mnemonicOf, loadStoreNames]) ..
  all_goals cases hi

/-- Settles O13, format by format: every constructor is encoded by one format's encoder. -/
theorem leadingBitsTellTheFormat : Obligations.LeadingBitsTellTheFormat :=
  fun _ => ⟨encode_short_leads, encode_long_leads⟩

end Sys2Proof.Proofs.Encoding

/-! Conditions (40_conditions_and_cnd.md R131): each code of the table is the bits of one condition, so its row is what
`condHolds` says of that condition. -/

namespace Sys2Proof.Proofs.Conditions
open Sys2Proof Sys2Proof.Machine

theorem condHolds_ofBits_bits (c : Cond) (f : StatusFlags) : condHolds (Cond.ofBits c.bits) f = condHolds c f := by
  rw [Cond.ofBits_bits]

/-- Settles O15, row by row: the code of the row is `Cond.bits` of the condition named. -/
theorem conditionTable : Obligations.ConditionTable := fun f =>
  ⟨condHolds_ofBits_bits .always f, condHolds_ofBits_bits .ifV f, condHolds_ofBits_bits .ifZ f,
    condHolds_ofBits_bits .ifNZ f, condHolds_ofBits_bits .ifLT f, condHolds_ofBits_bits .ifGE f,
    condHolds_ofBits_bits .ifC f, condHolds_ofBits_bits .ifNC f⟩

end Sys2Proof.Proofs.Conditions

/-! Decoding (30_encoding.md R90 to R106): decoding inverts the encoder, in a word and in either slot of a pair; every
halfword with bit 15 clear and every word with bit 31 set is one instruction, whose encoding it is but for the unused
bits; and the rows of the opcode map select that instruction. -/

namespace Sys2Proof.Proofs.Decoding
open Sys2Proof Sys2Proof.Machine Sys2Proof.Proofs.Encoding

/-! ## Decoding inverts the encoder -/

/-- Settles O8, constructor by constructor: the law of each instruction. -/
theorem decodeInvertsEncode : Obligations.DecodeInvertsEncode := by
  intro i
  cases i with
  | nop => exact Laws.DecodeEncode.nop
  | add => exact Laws.DecodeEncode.add _ _ _
  | sub => exact Laws.DecodeEncode.sub _ _ _
  | lsh => exact Laws.DecodeEncode.lsh _ _ _
  | ash => exact Laws.DecodeEncode.ash _ _ _
  | and => exact Laws.DecodeEncode.and _ _ _
  | or => exact Laws.DecodeEncode.or _ _ _
  | xor => exact Laws.DecodeEncode.xor _ _ _
  | cnd => exact Laws.DecodeEncode.cnd _ _ _
  | addi => exact Laws.DecodeEncode.addi _ _ _ _
  | subi => exact Laws.DecodeEncode.subi _ _ _ _
  | lshi => exact Laws.DecodeEncode.lshi _ _ _ _
  | ashi => exact Laws.DecodeEncode.ashi _ _ _ _
  | andi => exact Laws.DecodeEncode.andi _ _ _ _
  | ori => exact Laws.DecodeEncode.ori _ _ _ _
  | xori => exact Laws.DecodeEncode.xori _ _ _ _
  | ldh => exact Laws.DecodeEncode.ldh _ _ _ _
  | ldi => exact Laws.DecodeEncode.ldi _ _ _
  | mltu => exact Laws.DecodeEncode.mltu _ _ _
  | mlts => exact Laws.DecodeEncode.mlts _ _ _
  | divu => exact Laws.DecodeEncode.divu _ _ _
  | divs => exact Laws.DecodeEncode.divs _ _ _
  | mvsu => exact Laws.DecodeEncode.mvsu _ _ _
  | mvus => exact Laws.DecodeEncode.mvus _ _ _
  | mvhi => exact Laws.DecodeEncode.mvhi _ _
  | mvlo => exact Laws.DecodeEncode.mvlo _ _
  | lw => exact Laws.DecodeEncode.lw _ _ _ _
  | sw => exact Laws.DecodeEncode.sw _ _ _ _
  | sh => exact Laws.DecodeEncode.sh _ _ _ _
  | sb => exact Laws.DecodeEncode.sb _ _ _ _
  | lhu => exact Laws.DecodeEncode.lhu _ _ _ _
  | lhs => exact Laws.DecodeEncode.lhs _ _ _ _
  | lbu => exact Laws.DecodeEncode.lbu _ _ _ _
  | lbs => exact Laws.DecodeEncode.lbs _ _ _ _

/-- The word of a long instruction has bit 31 set (R92). -/
theorem getLsbD_31_of_encode {i : Instr} {w : Word} (hi : encode i = .long w) : w.getLsbD 31 = true := by
  cases hs : i.isShort
  · obtain ⟨w', hw', h31, _⟩ := encode_long_leads hs
    cases hi.symm.trans hw'
    exact h31
  · obtain ⟨h, hh, _⟩ := encode_short_leads hs
    cases hi.symm.trans hh

/-- The halfword of a short instruction has bit 15 clear (R92). -/
theorem getLsbD_15_of_encode {i : Instr} {h : Half} (hi : encode i = .short h) : h.getLsbD 15 = false := by
  cases hs : i.isShort
  · obtain ⟨w, hw, _⟩ := encode_long_leads hs
    cases hi.symm.trans hw
  · obtain ⟨h', hh', h15⟩ := encode_short_leads hs
    cases hi.symm.trans hh'
    exact h15

/-- The pair of `first` and `second` under `PAIR_ORDER` = low_first (R93). -/
theorem pairWord_eq (first second : Half) : pairWord Params.pairOrder first second = second ++ first := rfl

/-- Bit 31 of a pair is bit 15 of its second halfword. -/
theorem getLsbD_31_of_pair (first second : Half) : (second ++ first : Word).getLsbD 31 = second.getLsbD 15 := by
  rw [BitVec.getLsbD_append, if_neg (by decide)]

/-- Settles O9: which decoder a slot uses is told by bit 31, which the encoder sets for long instructions alone. -/
theorem encodedInstructionsDecodeInTheirSlots : Obligations.EncodedInstructionsDecodeInTheirSlots := by
  intro i hi
  have hdecode := decodeInvertsEncode i hi
  refine ⟨fun w hw => ?long, fun h hh other hother => ?short⟩
  case long =>
    rw [hw] at hdecode
    have h31 := getLsbD_31_of_encode hw
    exact ⟨(decodeSlot_first_long h31).trans hdecode, decodeSlot_second_long h31⟩
  case short =>
    rw [hh] at hdecode
    have h15 := getLsbD_15_of_encode hh
    rw [pairWord_eq, pairWord_eq, decodeSlot_first_short ((getLsbD_31_of_pair h other).trans hother),
      decodeSlot_second_short ((getLsbD_31_of_pair other h).trans h15), BitVec.extractLsb'_append_eq_right,
      BitVec.extractLsb'_append_eq_left]
    exact ⟨hdecode, hdecode⟩

/-- Settles O14, word by word. -/
theorem writtenWordsDecode : Obligations.WrittenWordsDecode :=
  ⟨by decide, by decide, by decide, by decide, by decide, by decide, by decide, by decide, by decide⟩

/-! ## Every halfword -/

theorem bitVec3_cases (op : BitVec 3) :
    op = 0 ∨ op = 1 ∨ op = 2 ∨ op = 3 ∨ op = 4 ∨ op = 5 ∨ op = 6 ∨ op = 7 := by
  revert op; decide

/-- Bit 15 as a field of its own. -/
theorem topBit_eq_zero {h : Half} (h15 : h.getLsbD 15 = false) : h.extractLsb' 15 1 = 0#1 := by
  ext k hk
  obtain rfl : k = 0 := by omega
  simpa using h15

/-- A halfword with bit 15 clear is the Short format of its own fields. -/
theorem half_eq_fields {h : Half} (h15 : h.getLsbD 15 = false) :
    h = 0#1 ++ h.extractLsb' 12 3 ++ h.extractLsb' 8 4 ++ h.extractLsb' 4 4 ++ h.extractLsb' 0 4 := by
  rw [← topBit_eq_zero h15, BitVec.extractLsb'_append_extractLsb'_eq_extractLsb' (by decide),
    BitVec.extractLsb'_append_extractLsb'_eq_extractLsb' (by decide),
    BitVec.extractLsb'_append_extractLsb'_eq_extractLsb' (by decide),
    BitVec.extractLsb'_append_extractLsb'_eq_extractLsb' (by decide)]
  exact BitVec.extractLsb'_eq_self.symm

theorem wellFormed_iff (i : Instr) : i.wellFormed = true ↔ i ≠ .add .r0 .r0 .r0 := by simp [Instr.wellFormed]

/-- A halfword of the Short format that is not `0x0000` is the encoding of what it decodes to. -/
theorem decodeShort_fields_encode (op : BitVec 3) (d s1 s2 : BitVec 4) (h0 : (0#1 ++ op ++ d ++ s1 ++ s2 : Half) ≠ 0) :
    ∃ i, decodeShort (0#1 ++ op ++ d ++ s1 ++ s2) = .ok i ∧ i.isShort = true ∧ i.wellFormed = true ∧
      encode i = .short (0#1 ++ op ++ d ++ s1 ++ s2) := by
  rw [decodeShort_fields op d s1 s2 h0]
  rcases bitVec3_cases op with rfl | rfl | rfl | rfl | rfl | rfl | rfl | rfl
  case inl =>
    refine ⟨_, rfl, rfl, (wellFormed_iff _).2 fun hadd => h0 ?_, by simp [encode, encodeShort, Reg.bits_ofBits]⟩
    injection hadd with hd h1 h2
    rw [← Reg.bits_ofBits d, ← Reg.bits_ofBits s1, ← Reg.bits_ofBits s2, hd, h1, h2]
    decide
  all_goals
    exact ⟨_, rfl, rfl, (wellFormed_iff _).2 nofun,
      by simp [encode, encodeShort, Reg.bits_ofBits, Specifier.bits_ofBits]⟩

/-- Settles O10: `NOP`, an illegal halfword, or a halfword of the Short format. -/
theorem everyHalfwordIsAnInstructionOrIllegal : Obligations.EveryHalfwordIsAnInstructionOrIllegal := by
  intro h
  by_cases h0 : h = 0
  · subst h0
    exact ⟨fun h15 => absurd h15 (by decide), fun _ => ⟨.nop, rfl, rfl, rfl, rfl⟩⟩
  · refine ⟨fun h15 => ?illegal, fun h15 => ?legal⟩
    case illegal => rw [decodeShort, if_neg h0, if_pos h15]
    case legal =>
      rw [half_eq_fields h15] at h0 ⊢
      exact decodeShort_fields_encode _ _ _ _ h0

end Sys2Proof.Proofs.Decoding

/-! Long words and the rows of the opcode map (30_encoding.md R97 to R106): the format that the leading bits choose, the
encoding of what a word decodes to, and the one row of the map that the opcode selects. -/

namespace Sys2Proof.Proofs.OpcodeMap
open Sys2Proof Sys2Proof.Machine Sys2Proof.Proofs.Encoding Sys2Proof.Proofs.Decoding

/-! ## The leading bits of a long word -/

/-- A word with bit 31 set begins as one of the four long formats does (R91). -/
theorem long_lead_cases {w : Word} (h31 : w.getLsbD 31 = true) :
    w.extractLsb' 29 3 = 0b100#3 ∨ w.extractLsb' 28 4 = 0b1010#4 ∨ w.extractLsb' 28 4 = 0b1011#4 ∨
      w.extractLsb' 30 2 = 0b11#2 := by
  have h3 : (w.extractLsb' 28 4).getLsbD 3 = true := by
    rw [← getLsbD_of_extract w 28 4 31 (by decide) (by decide), h31]
  have key : ∀ b : BitVec 4, b.getLsbD 3 = true →
      b.extractLsb' 1 3 = 0b100#3 ∨ b = 0b1010#4 ∨ b = 0b1011#4 ∨ b.extractLsb' 2 2 = 0b11#2 := by decide
  rw [show w.extractLsb' 29 3 = (w.extractLsb' 28 4).extractLsb' 1 3 from extractLsb'_of_field rfl 1 3 (by decide),
    show w.extractLsb' 30 2 = (w.extractLsb' 28 4).extractLsb' 2 2 from extractLsb'_of_field rfl 2 2 (by decide)]
  exact key _ h3

/-- Adjacent fields of a word as one. -/
theorem append_fields {N : Nat} (w : BitVec N) (k l m n : Nat) (h : m = k + l) :
    w.extractLsb' m n ++ w.extractLsb' k l = w.extractLsb' k (n + l) :=
  BitVec.extractLsb'_append_extractLsb'_eq_extractLsb' h

theorem wellFormed_of_long {i : Instr} (h : i.isShort = false) : i.wellFormed = true :=
  (wellFormed_iff i).2 fun hi => by rw [hi] at h; cases h

/-! ## What a long word decodes to is encoded as the word, its unused bits cleared -/

/-- The Immediate format (R97). -/
theorem decodeImmediate_encode {w : Word} (lead : w.extractLsb' 29 3 = 0b100#3) :
    (decodeImmediate w).isShort = false ∧ encode (decodeImmediate w) = .long w := by
  have hw : w = 0b100#3 ++ w.extractLsb' 26 3 ++ w.extractLsb' 22 4 ++ w.extractLsb' 18 4 ++ w.extractLsb' 4 14 ++
      w.extractLsb' 0 4 := by
    rw [← lead, append_fields _ 26 3 29 3 rfl, append_fields _ 22 4 26 _ rfl, append_fields _ 18 4 22 _ rfl,
      append_fields _ 4 14 18 _ rfl, append_fields _ 0 4 4 _ rfl]
    exact BitVec.extractLsb'_eq_self.symm
  have henc : (decodeImmediate w).isShort = false ∧ encode (decodeImmediate w) = .long (0b100#3 ++ w.extractLsb' 26 3 ++
      w.extractLsb' 22 4 ++ w.extractLsb' 18 4 ++ w.extractLsb' 4 14 ++ w.extractLsb' 0 4) := by
    unfold decodeImmediate
    generalize w.extractLsb' 26 3 = op
    rcases bitVec3_cases op with rfl | rfl | rfl | rfl | rfl | rfl | rfl | rfl <;>
      exact ⟨rfl, by simp [encode, encodeImmediate, Reg.bits_ofBits, Specifier.bits_ofBits]⟩
  rwa [← hw] at henc

/-- The Load/store format (R98). -/
theorem decodeLoadStore_encode {w : Word} (lead : w.extractLsb' 30 2 = 0b11#2) :
    (decodeLoadStore w).isShort = false ∧ encode (decodeLoadStore w) = .long w := by
  have hw : w = 0b11#2 ++ w.extractLsb' 27 3 ++ w.extractLsb' 23 4 ++ w.extractLsb' 19 4 ++ w.extractLsb' 4 15 ++
      w.extractLsb' 0 4 := by
    rw [← lead, append_fields _ 27 3 30 2 rfl, append_fields _ 23 4 27 _ rfl, append_fields _ 19 4 23 _ rfl,
      append_fields _ 4 15 19 _ rfl, append_fields _ 0 4 4 _ rfl]
    exact BitVec.extractLsb'_eq_self.symm
  have henc : (decodeLoadStore w).isShort = false ∧ encode (decodeLoadStore w) = .long (0b11#2 ++ w.extractLsb' 27 3 ++
      w.extractLsb' 23 4 ++ w.extractLsb' 19 4 ++ w.extractLsb' 4 15 ++ w.extractLsb' 0 4) := by
    unfold decodeLoadStore
    generalize w.extractLsb' 27 3 = op
    rcases bitVec3_cases op with rfl | rfl | rfl | rfl | rfl | rfl | rfl | rfl <;>
      exact ⟨rfl, by simp [encode, encodeLoadStore, Reg.bits_ofBits, Specifier.bits_ofBits]⟩
  rwa [← hw] at henc

/-- The `LDI` format (R99). -/
theorem decodeLdi_encode {w : Word} (lead : w.extractLsb' 28 4 = 0b1010#4) :
    (decodeLdi w).isShort = false ∧ encode (decodeLdi w) = .long w := by
  have hw : w = 0b1010#4 ++ w.extractLsb' 24 4 ++ w.extractLsb' 4 20 ++ w.extractLsb' 0 4 := by
    rw [← lead, append_fields _ 24 4 28 4 rfl, append_fields _ 4 20 24 _ rfl, append_fields _ 0 4 4 _ rfl]
    exact BitVec.extractLsb'_eq_self.symm
  have henc : encode (decodeLdi w) = .long (0b1010#4 ++ w.extractLsb' 24 4 ++ w.extractLsb' 4 20 ++ w.extractLsb' 0 4) := by
    simp [decodeLdi, encode, Reg.bits_ofBits, Specifier.bits_ofBits]
  exact ⟨rfl, henc.trans (congrArg _ hw.symm)⟩

/-- The Misc formats (R100, R101): the bits of the fields, those of `f2` in the rows that have it. -/
theorem decodeMisc_encode (w : Word) :
    (decodeMisc w).isShort = false ∧
      encode (decodeMisc w) = .long (0b1011#4 ++ w.extractLsb' 25 3 ++ w.extractLsb' 21 4 ++
        (if (w.extractLsb' 25 3).extractLsb' 1 2 = 0b11#2 then 0 else w.extractLsb' 17 4) ++ 0#13 ++ w.extractLsb' 0 4) := by
  unfold decodeMisc
  generalize w.extractLsb' 25 3 = op
  rcases bitVec3_cases op with rfl | rfl | rfl | rfl | rfl | rfl | rfl | rfl
  case inr.inr.inr.inr.inr.inr.inl | inr.inr.inr.inr.inr.inr.inr =>
    rw [if_pos (by decide)]
    exact ⟨rfl, by simp [encode, encodeMisc, Reg.bits_ofBits, Specifier.bits_ofBits]⟩
  all_goals
    rw [if_neg (by decide)]
    exact ⟨rfl, by simp [encode, encodeMisc, Reg.bits_ofBits, Specifier.bits_ofBits]⟩

/-- A Misc word as its fields, unused bits included (R100, R101, R105). -/
theorem misc_eq_fields {w : Word} (lead : w.extractLsb' 28 4 = 0b1011#4) :
    w = 0b1011#4 ++ w.extractLsb' 25 3 ++ w.extractLsb' 21 4 ++ w.extractLsb' 17 4 ++ w.extractLsb' 4 13 ++
      w.extractLsb' 0 4 := by
  rw [← lead, append_fields _ 25 3 28 4 rfl, append_fields _ 21 4 25 _ rfl, append_fields _ 17 4 21 _ rfl,
    append_fields _ 4 13 17 _ rfl, append_fields _ 0 4 4 _ rfl]
  exact BitVec.extractLsb'_eq_self.symm

/-- A mask over the fields of a Misc word that clears the unused bits, and `f2` too where `keep` is zero. -/
theorem misc_fields_and_mask (op : BitVec 3) (f1 f2 keep : BitVec 4) (u : BitVec 13) (c : BitVec 4) :
    (0b1011#4 ++ op ++ f1 ++ f2 ++ u ++ c) &&& (0xF#4 ++ 0x7#3 ++ 0xF#4 ++ keep ++ 0#13 ++ 0xF#4) =
      0b1011#4 ++ op ++ f1 ++ (f2 &&& keep) ++ 0#13 ++ c := by
  have all4 (b : BitVec 4) : b &&& 0xF#4 = b := BitVec.and_allOnes
  have all3 (b : BitVec 3) : b &&& 0x7#3 = b := BitVec.and_allOnes
  simp only [BitVec.and_append, all4, all3, BitVec.and_zero]

theorem misc_and_mask {w : Word} (lead : w.extractLsb' 28 4 = 0b1011#4) (keep : BitVec 4) :
    w &&& (0xF#4 ++ 0x7#3 ++ 0xF#4 ++ keep ++ 0#13 ++ 0xF#4) =
      0b1011#4 ++ w.extractLsb' 25 3 ++ w.extractLsb' 21 4 ++ (w.extractLsb' 17 4 &&& keep) ++ 0#13 ++
        w.extractLsb' 0 4 := by
  conv_lhs => rw [misc_eq_fields lead]
  exact misc_fields_and_mask ..

/-- The Misc formats encode to the word, its unused bits cleared (R105). -/
theorem decodeMisc_encode_masked {w : Word} (lead : w.extractLsb' 28 4 = 0b1011#4) :
    encode (decodeMisc w) =
      .long (if w.extractLsb' 26 6 = 0b101111#6 then w &&& 0xFFE0000F else w &&& 0xFFFE000F) := by
  have all4 (b : BitVec 4) : b &&& 0xF#4 = b := BitVec.and_allOnes
  have hrow : (w.extractLsb' 25 3).extractLsb' 1 2 = 0b11#2 ↔ w.extractLsb' 26 6 = 0b101111#6 := by
    rw [show w.extractLsb' 26 6 = 0b1011#4 ++ w.extractLsb' 26 2 by rw [← lead, append_fields _ 26 2 28 4 rfl],
      ← show w.extractLsb' 26 2 = (w.extractLsb' 25 3).extractLsb' 1 2 from extractLsb'_of_field rfl 1 2 (by decide)]
    generalize w.extractLsb' 26 2 = b
    revert b; decide
  rw [(decodeMisc_encode w).2]
  by_cases h : w.extractLsb' 26 6 = 0b101111#6
  · rw [if_pos (hrow.2 h), if_pos h,
      show (0xFFE0000F : Word) = 0xF#4 ++ 0x7#3 ++ 0xF#4 ++ 0#4 ++ 0#13 ++ 0xF#4 by decide, misc_and_mask lead,
      BitVec.and_zero]
    rfl
  · rw [if_neg fun hr => h (hrow.1 hr), if_neg h,
      show (0xFFFE000F : Word) = 0xF#4 ++ 0x7#3 ++ 0xF#4 ++ 0xF#4 ++ 0#13 ++ 0xF#4 by decide, misc_and_mask lead, all4]

/-- The opcode of a Misc word chooses its decoder and its row (R100, R101). -/
theorem decodeLong_of_misc_opcode {w : Word} {op : BitVec 7} (hop : w.extractLsb' 25 7 = op)
    (lead : op.extractLsb' 3 4 = 0b1011#4) :
    decodeLong w = .ok (decodeMisc w) ∧ w.extractLsb' 25 3 = op.extractLsb' 0 3 :=
  ⟨decodeLong_of_1011 w ((extractLsb'_of_field hop 3 4 (by decide)).trans lead),
    extractLsb'_of_field hop 0 3 (by decide)⟩

/-- A word that begins neither `1011` nor `101111` has no unused bits. -/
theorem not_misc_of_lead {w : Word} (h : w.extractLsb' 28 4 ≠ 0b1011#4) :
    (if w.extractLsb' 26 6 = 0b101111#6 then w &&& 0xFFE0000F
      else if w.extractLsb' 28 4 = 0b1011#4 then w &&& 0xFFFE000F else w) = w := by
  rw [if_neg fun h6 => h (extractLsb'_of_field h6 2 4 (by decide)), if_neg h]

/-- Settles O11: the format that the leading bits choose, then that format's encoding. -/
theorem everyLongWordIsAnInstruction : Obligations.EveryLongWordIsAnInstruction := by
  intro w
  refine ⟨fun h31 => ?word, ?misc⟩
  case word =>
    rcases long_lead_cases h31 with lead | lead | lead | lead
    · obtain ⟨hs, he⟩ := decodeImmediate_encode lead
      refine ⟨_, decodeLong_of_100 w lead, hs, wellFormed_of_long hs, he.trans (congrArg _ (not_misc_of_lead ?_).symm)⟩
      intro h
      rw [show w.extractLsb' 29 3 = BitVec.extractLsb' 1 3 (0b1011#4) from extractLsb'_of_field h 1 3 (by decide)] at lead
      exact absurd lead (by decide)
    · obtain ⟨hs, he⟩ := decodeLdi_encode lead
      refine ⟨_, decodeLong_of_1010 w lead, hs, wellFormed_of_long hs, he.trans (congrArg _ (not_misc_of_lead ?_).symm)⟩
      rw [lead]; decide
    · obtain ⟨hs, _⟩ := decodeMisc_encode w
      refine ⟨_, decodeLong_of_1011 w lead, hs, wellFormed_of_long hs, ?_⟩
      rw [decodeMisc_encode_masked lead, if_pos lead]
    · obtain ⟨hs, he⟩ := decodeLoadStore_encode lead
      refine ⟨_, decodeLong_of_11 w lead, hs, wellFormed_of_long hs, he.trans (congrArg _ (not_misc_of_lead ?_).symm)⟩
      intro h
      rw [show w.extractLsb' 30 2 = BitVec.extractLsb' 2 2 (0b1011#4) from extractLsb'_of_field h 2 2 (by decide)] at lead
      exact absurd lead (by decide)
  case misc =>
    simp only [List.forall_mem_cons, List.not_mem_nil, false_implies, implies_true, and_true]
    refine ⟨⟨?mltu, ?mlts, ?divu, ?divs, ?mvsu, ?mvus⟩, ?mvhi, ?mvlo⟩
    all_goals
      intro hop
      obtain ⟨hformat, hrow⟩ := decodeLong_of_misc_opcode hop (by decide)
      rw [hformat, decodeMisc, hrow]
      rfl

/-! ## The rows of the opcode map -/

/-- The high `l` bits of a word are told by masking the others off. -/
theorem and_highMask {l k : Nat} (w : BitVec (l + k)) :
    w &&& (BitVec.allOnes l ++ 0#k) = w.extractLsb' k l ++ 0#k := by
  conv_lhs => rw [← BitVec.extractLsb'_append_extractLsb' (x := w)]
  rw [BitVec.and_append, BitVec.and_allOnes, BitVec.and_zero]

/-- What a row of the map says of a word: its masked bits are the row's match. -/
def Matches {n : Nat} (w : BitVec n) (row : String × BitVec n × BitVec n) : Prop := w &&& row.2.2 = row.2.1

/-- Two rows that a word matches agree on the bits that both fix. -/
theorem matches_agree {n : Nat} {w : BitVec n} {row other : String × BitVec n × BitVec n} (h : Matches w row)
    (ho : Matches w other) : row.2.1 &&& other.2.2 = other.2.1 &&& row.2.2 := by
  rw [← h, ← ho, BitVec.and_assoc, BitVec.and_assoc, BitVec.and_comm row.2.2]

theorem longRows_disjoint : ∀ row ∈ longRows, ∀ other ∈ longRows,
    row.2.1 &&& other.2.2 = other.2.1 &&& row.2.2 → row = other := by decide

theorem shortRows_disjoint : ∀ row ∈ shortRows, ∀ other ∈ shortRows,
    row.2.1 &&& other.2.2 = other.2.1 &&& row.2.2 → row = other := by decide

theorem longRows_names : ∀ row ∈ longRows, ∀ other ∈ longRows, row.1 = other.1 → row = other := by decide

theorem shortRows_names : ∀ row ∈ shortRows, ∀ other ∈ shortRows, row.1 = other.1 → row = other := by decide

/-- The row of the map at place `k`: the Immediate rows begin at 0, `LDI` is 8, the Misc rows begin at 9 and the
Load/store rows at 17. -/
def longRow (k : Nat) : String × Word × Word := longRows.getD k ("", 0, 0)

theorem longRow_mem {k : Nat} (h : k < 25) : longRow k ∈ longRows := by
  rw [longRow, List.getD_eq_getElem _ _ h]
  exact List.getElem_mem h

theorem longRow_immediate : ∀ op : BitVec 3,
    (longRow op.toNat).2 = (0b100#3 ++ op ++ 0#26, BitVec.allOnes 6 ++ 0#26) := by decide

theorem longRow_ldi : (longRow 8).2 = (0b1010#4 ++ 0#28, BitVec.allOnes 4 ++ 0#28) := by decide

theorem longRow_misc : ∀ op : BitVec 3,
    (longRow (9 + op.toNat)).2 = (0b1011#4 ++ op ++ 0#25, BitVec.allOnes 7 ++ 0#25) := by decide

theorem longRow_loadStore : ∀ op : BitVec 3,
    (longRow (17 + op.toNat)).2 = (0b11#2 ++ op ++ 0#27, BitVec.allOnes 5 ++ 0#27) := by decide

theorem mnemonicOf_decodeImmediate (w : Word) :
    mnemonicOf (decodeImmediate w) = (longRow (w.extractLsb' 26 3).toNat).1 := by
  unfold decodeImmediate
  generalize w.extractLsb' 26 3 = op
  rcases bitVec3_cases op with rfl | rfl | rfl | rfl | rfl | rfl | rfl | rfl <;> rfl

theorem mnemonicOf_decodeMisc (w : Word) :
    mnemonicOf (decodeMisc w) = (longRow (9 + (w.extractLsb' 25 3).toNat)).1 := by
  unfold decodeMisc
  generalize w.extractLsb' 25 3 = op
  rcases bitVec3_cases op with rfl | rfl | rfl | rfl | rfl | rfl | rfl | rfl <;> rfl

theorem mnemonicOf_decodeLoadStore (w : Word) :
    mnemonicOf (decodeLoadStore w) = (longRow (17 + (w.extractLsb' 27 3).toNat)).1 := by
  unfold decodeLoadStore
  generalize w.extractLsb' 27 3 = op
  rcases bitVec3_cases op with rfl | rfl | rfl | rfl | rfl | rfl | rfl | rfl <;> rfl

/-- A row whose mask covers the high `l` bits matches a word with those bits. -/
theorem matches_of_highBits {l k : Nat} {w : BitVec (l + k)} {row : String × BitVec (l + k) × BitVec (l + k)}
    {op : BitVec l} (hrow : row.2 = (op ++ 0#k, BitVec.allOnes l ++ 0#k)) (hw : w.extractLsb' k l = op) :
    Matches w row := by
  rw [Matches, hrow, and_highMask, hw]

/-- Every word with bit 31 set matches the row of the instruction it decodes to. -/
theorem longRow_of_word {w : Word} (h31 : w.getLsbD 31 = true) :
    ∃ row ∈ longRows, Matches w row ∧ ∃ i, decodeLong w = .ok i ∧ mnemonicOf i = row.1 := by
  have hlt (op : BitVec 3) : op.toNat < 8 := op.isLt
  rcases long_lead_cases h31 with lead | lead | lead | lead
  · have := hlt (w.extractLsb' 26 3)
    have hop : w.extractLsb' 26 6 = 0b100#3 ++ w.extractLsb' 26 3 := by rw [← lead, append_fields w 26 3 29 3 rfl]
    exact ⟨_, longRow_mem (by omega), matches_of_highBits (k := 26) (longRow_immediate _) hop,
      _, decodeLong_of_100 w lead, mnemonicOf_decodeImmediate w⟩
  · exact ⟨_, longRow_mem (by decide), matches_of_highBits (k := 28) longRow_ldi lead, _, decodeLong_of_1010 w lead, rfl⟩
  · have := hlt (w.extractLsb' 25 3)
    have hop : w.extractLsb' 25 7 = 0b1011#4 ++ w.extractLsb' 25 3 := by rw [← lead, append_fields w 25 3 28 4 rfl]
    exact ⟨_, longRow_mem (by omega), matches_of_highBits (k := 25) (longRow_misc _) hop,
      _, decodeLong_of_1011 w lead, mnemonicOf_decodeMisc w⟩
  · have := hlt (w.extractLsb' 27 3)
    have hop : w.extractLsb' 27 5 = 0b11#2 ++ w.extractLsb' 27 3 := by rw [← lead, append_fields w 27 3 30 2 rfl]
    exact ⟨_, longRow_mem (by omega), matches_of_highBits (k := 27) (longRow_loadStore _) hop,
      _, decodeLong_of_11 w lead, mnemonicOf_decodeLoadStore w⟩

/-- The row of the Short format with opcode `op` (R95, R96). -/
def shortRow (op : BitVec 3) : String × Half × Half := shortRows.getD op.toNat ("", 0, 0)

theorem shortRow_mem : ∀ op : BitVec 3, shortRow op ∈ shortRows := by decide

theorem shortRow_spec : ∀ op : BitVec 3, (shortRow op).2 = (0#1 ++ op ++ 0#12, BitVec.allOnes 4 ++ 0#12) := by decide

/-- Every halfword with bit 15 clear matches the row of its opcode. -/
theorem matches_shortRow {h : Half} (h15 : h.getLsbD 15 = false) : Matches h (shortRow (h.extractLsb' 12 3)) := by
  have hop : h.extractLsb' 12 4 = 0#1 ++ h.extractLsb' 12 3 := by
    rw [← topBit_eq_zero h15, append_fields h 12 3 15 1 rfl]
  exact matches_of_highBits (k := 12) (shortRow_spec _) hop

/-- A halfword that is neither `0x0000` nor illegal decodes to the instruction of its row. -/
theorem mnemonicOf_decodeShort {h : Half} (h0 : h ≠ 0) (h15 : h.getLsbD 15 = false) :
    ∃ i, decodeShort h = .ok i ∧ mnemonicOf i = (shortRow (h.extractLsb' 12 3)).1 := by
  unfold decodeShort
  rw [if_neg h0, h15]
  generalize h.extractLsb' 12 3 = op
  rcases bitVec3_cases op with rfl | rfl | rfl | rfl | rfl | rfl | rfl | rfl <;> exact ⟨_, rfl, rfl⟩

/-- A halfword with bit 15 set decodes to no instruction (R106). -/
theorem decodeShort_ne_ok {h : Half} (h0 : h ≠ 0) (h15 : h.getLsbD 15 = true) (i : Instr) : decodeShort h ≠ .ok i := by
  rw [decodeShort, if_neg h0, if_pos h15]
  nofun

/-- No opcode of the Short format is `NOP`: only `0x0000` decodes to it (R158). -/
theorem decodeShort_eq_nop_iff (h : Half) : decodeShort h = .ok .nop ↔ h = 0 := by
  refine ⟨fun hdec => by_contra fun h0 => ?_, fun h0 => by rw [h0]; rfl⟩
  cases h15 : h.getLsbD 15
  · obtain ⟨i, hi, hname⟩ := mnemonicOf_decodeShort h0 h15
    cases hdec.symm.trans hi
    have hnop : ∀ op : BitVec 3, mnemonicOf .nop ≠ (shortRow op).1 := by decide
    exact hnop _ hname
  · exact decodeShort_ne_ok h0 h15 _ hdec

/-- If a word matches the row that names what it decodes to, and rows are told apart by their bits and by their names,
then a row matches exactly if it is that row. -/
theorem matches_iff_names {n : Nat} {rows : List (String × BitVec n × BitVec n)} {w : BitVec n}
    {dec : Except DecodeError Instr} (hbits : ∀ row ∈ rows, ∀ other ∈ rows,
      row.2.1 &&& other.2.2 = other.2.1 &&& row.2.2 → row = other)
    (hnames : ∀ row ∈ rows, ∀ other ∈ rows, row.1 = other.1 → row = other)
    (hw : ∃ row ∈ rows, Matches w row ∧ ∃ i, dec = .ok i ∧ mnemonicOf i = row.1) {row : String × BitVec n × BitVec n}
    (hrow : row ∈ rows) : w &&& row.2.2 = row.2.1 ↔ ∃ i, dec = .ok i ∧ mnemonicOf i = row.1 := by
  obtain ⟨own, hown, hmatch, i, hi, hname⟩ := hw
  constructor
  · intro h
    obtain rfl := hbits own hown row hrow (matches_agree hmatch h)
    exact ⟨i, hi, hname⟩
  · rintro ⟨j, hj, hname'⟩
    cases hi.symm.trans hj
    obtain rfl := hnames own hown row hrow (hname.symm.trans hname')
    exact hmatch

/-- An illegal halfword matches no row and decodes to nothing. -/
theorem illegal_matches_no_row {h : Half} (h15 : h.getLsbD 15 = true) : ∀ row ∈ shortRows, ¬ Matches h row := by
  intro row hrow hmatch
  have hbit : ∀ row ∈ shortRows, row.2.2.getLsbD 15 = true ∧ row.2.1.getLsbD 15 = false := by decide
  obtain ⟨hmask, hval⟩ := hbit row hrow
  have := congrArg (BitVec.getLsbD · 15) hmatch
  simp only [BitVec.getLsbD_and, h15, hmask, hval] at this
  exact absurd this (by decide)

/-- Settles O12: each word matches the row of what it decodes to, and rows exclude each other. -/
theorem rowsSelectTheirInstruction : Obligations.RowsSelectTheirInstruction := by
  refine ⟨fun w h31 row hrow => ?long, fun w h31 => ?longTile, fun h => ?nop, fun h h0 row hrow => ?short,
    fun h h15 => ?shortTile⟩
  case long => exact matches_iff_names longRows_disjoint longRows_names (longRow_of_word h31) hrow
  case longTile =>
    obtain ⟨row, hrow, hmatch, _⟩ := longRow_of_word h31
    exact ⟨row, hrow, hmatch, fun other ho hm => longRows_disjoint other ho row hrow (matches_agree hm hmatch)⟩
  case nop =>
    rw [show h &&& 0xFFFF = h from BitVec.and_allOnes]
    exact (decodeShort_eq_nop_iff h).symm
  case short =>
    rw [show h &&& 0xFFFF = h from BitVec.and_allOnes] at h0
    cases h15 : h.getLsbD 15
    · exact matches_iff_names shortRows_disjoint shortRows_names
        ⟨_, shortRow_mem _, matches_shortRow h15, mnemonicOf_decodeShort h0 h15⟩ hrow
    · refine iff_of_false (illegal_matches_no_row h15 row hrow) ?_
      rintro ⟨i, hi, _⟩
      exact decodeShort_ne_ok h0 h15 i hi
  case shortTile =>
    have hmatch := matches_shortRow h15
    exact ⟨_, shortRow_mem _, hmatch,
      fun other ho hm => shortRows_disjoint other ho _ (shortRow_mem _) (matches_agree hm hmatch)⟩

end Sys2Proof.Proofs.OpcodeMap

/-! What `exec` is of an instruction whose condition holds, said once per family of instructions: its queue entry goes
and the family's shared operation runs (40_conditions_and_cnd.md R133, R137, R139). -/

namespace Sys2Proof.Proofs.Exec
open Sys2Proof Sys2Proof.Machine

/-- A long instruction obeys its own field (R130, R139). -/
theorem runLong_of_passes {s : State} {i : Instr} {c : Specifier} {f : Bool → State → Result} (hp : s.passes i)
    (hc : s.specifierOf i = c) : s.runLong c f = f c.freeze s.popCondition := by
  subst hc
  exact State.runLong_of_holds hp

/-- `NOP` takes its queue entry, whatever its specifier (R158). -/
theorem exec_nop (s : State) : exec .nop s = .next s.popCondition := by
  rw [exec, execNop, State.runShort_eq]
  exact ite_self _

/-- `CND` (R136). -/
theorem exec_cnd {s : State} {c1 c2 c3 : Specifier} (hp : s.passes (.cnd c1 c2 c3)) :
    exec (.cnd c1 c2 c3) s = .next { s with cndq := [c1, c2, c3] } := by
  rw [exec, execCnd, State.runShort_of_holds hp]
  rfl

/-- The fourteen ALU instructions (R150, R180). -/
theorem exec_alu {s : State} {i : Instr} {d : Reg} {out : AluOut} (h : s.aluResult i = some (d, out))
    (hp : s.passes i) : exec i s = s.popCondition.writeAlu d out (s.freezes i) := by
  cases i <;> cases h <;>
    simp only [exec, execAdd, execSub, execLsh, execAsh, execAnd, execOr, execXor, execAddi, execSubi, execLshi,
      execAshi, execAndi, execOri, execXori, State.runShortAlu, State.runImmediateAlu]
  case add | sub | lsh | ash | and | or | xor =>
    rw [State.runShort_of_holds hp, State.popCondition_read, State.popCondition_read]
    rfl
  case addi | subi | lshi | ashi | andi | ori | xori =>
    rw [runLong_of_passes hp (by rfl), State.popCondition_read]
    rfl

/-- `LDH`'s value as R188 writes it: bits 31..18 from the immediate, bits 17..0 from the source. -/
theorem highImmediate_eq (imm : BitVec 14) (v : Word) :
    highImmediate imm v = (imm.setWidth 32 <<< 18) ||| (v &&& 0x3FFFF) := by
  have hmask : ∀ k < 32, (0x3FFFF : Word).getLsbD k = decide (k < 18) := by decide
  refine BitVec.eq_of_getLsbD_eq fun k hk => ?_
  rw [highImmediate, BitVec.getLsbD_append, BitVec.getLsbD_or, BitVec.getLsbD_and, hmask k hk]
  by_cases h : k < 18
  · simp [h]
  · simp [h, hk]

/-- The five moves, where the spec gives the value (R188, R231, R238, R240, R241). -/
theorem exec_move {s : State} {i : Instr} {d : Reg} {v : Word} (h : s.moveResult i = some (d, v)) (hp : s.passes i) :
    exec i s = s.popCondition.write d v := by
  cases i <;> simp only [State.moveResult, reduceCtorEq] at h
  case ldh =>
    cases h
    rw [exec, execLdh, runLong_of_passes hp (by rfl), State.popCondition_read, highImmediate_eq]
  case ldi =>
    cases h
    rw [exec, execLdi, runLong_of_passes hp (by rfl)]
    rfl
  case mvhi =>
    split at h
    · cases h
    · next ho =>
      cases h
      rw [exec, execMvhi, runLong_of_passes hp (by rfl), State.readHiLo, State.popCondition_hiLoOpen, if_neg ho]
      rfl
  case mvlo =>
    split at h
    · cases h
    · next ho =>
      cases h
      rw [exec, execMvlo, runLong_of_passes hp (by rfl), State.readHiLo, State.popCondition_hiLoOpen, if_neg ho]
      rfl
  case mvsu =>
    split at h
    · next hc =>
      cases h
      rw [exec, execMvsu, runLong_of_passes hp (by rfl)]
      simp only [State.popCondition_cur, hc, State.popCondition_reg]
    · cases h

theorem zext16_eq : zext16 = fun v => (v.setWidth 16).setWidth 32 :=
  funext fun _ => congrArg (BitVec.setWidth 32) (BitVec.setWidth_eq_extractLsb' (by decide)).symm

theorem sext16_eq : sext16 = fun v => (v.setWidth 16).signExtend 32 :=
  funext fun _ => congrArg (BitVec.signExtend 32) (BitVec.setWidth_eq_extractLsb' (by decide)).symm

theorem zext8_eq : zext8 = fun v => (v.setWidth 8).setWidth 32 :=
  funext fun _ => congrArg (BitVec.setWidth 32) (BitVec.setWidth_eq_extractLsb' (by decide)).symm

theorem sext8_eq : sext8 = fun v => (v.setWidth 8).signExtend 32 :=
  funext fun _ => congrArg (BitVec.signExtend 32) (BitVec.setWidth_eq_extractLsb' (by decide)).symm

/-- The five loads (R201, R205 to R208). -/
theorem exec_load {s : State} {i : Instr} {a d : Reg} {imm : BitVec 15} {n : Nat} {f : Word → Word}
    (ha : accessOf i = some (a, imm, n)) (hl : loadOf i = some (d, f)) (hp : s.passes i) :
    exec i s = s.popCondition.loadInto d a imm n f := by
  cases i <;> cases hl <;> cases ha
  case lw => rw [exec, execLw, runLong_of_passes hp (by rfl)]; rfl
  case lhu => rw [exec, execLhu, runLong_of_passes hp (by rfl), zext16_eq]
  case lhs => rw [exec, execLhs, runLong_of_passes hp (by rfl), sext16_eq]
  case lbu => rw [exec, execLbu, runLong_of_passes hp (by rfl), zext8_eq]
  case lbs => rw [exec, execLbs, runLong_of_passes hp (by rfl), sext8_eq]

/-- The three stores (R202 to R204). -/
theorem exec_store {s : State} {i : Instr} {a d : Reg} {imm : BitVec 15} {n : Nat}
    (ha : accessOf i = some (a, imm, n)) (hs : storeOf i = some d) (hp : s.passes i) :
    exec i s = s.popCondition.storeFrom d a imm n := by
  cases i <;> cases hs <;> cases ha
  case sw => rw [exec, execSw, runLong_of_passes hp (by rfl)]
  case sh => rw [exec, execSh, runLong_of_passes hp (by rfl)]
  case sb => rw [exec, execSb, runLong_of_passes hp (by rfl)]

/-- The multiplications (R233, R234). -/
theorem exec_mltu {s : State} {s1 s2 : Reg} {c : Specifier} (hp : s.passes (.mltu s1 s2 c)) :
    exec (.mltu s1 s2 c) s = s.popCondition.multiply (productU (s.read s1) (s.read s2)) := by
  rw [exec, execMltu, runLong_of_passes hp (by rfl), State.popCondition_read, State.popCondition_read]

theorem exec_mlts {s : State} {s1 s2 : Reg} {c : Specifier} (hp : s.passes (.mlts s1 s2 c)) :
    exec (.mlts s1 s2 c) s = s.popCondition.multiply (productS (s.read s1) (s.read s2)) := by
  rw [exec, execMlts, runLong_of_passes hp (by rfl), State.popCondition_read, State.popCondition_read]

/-- The divisions (R235, R236). -/
theorem exec_divu {s : State} {s1 s2 : Reg} {c : Specifier} (hp : s.passes (.divu s1 s2 c)) :
    exec (.divu s1 s2 c) s = s.popCondition.divide (s.read s2) (quotientU (s.read s1) (s.read s2)) := by
  rw [exec, execDivu, runLong_of_passes hp (by rfl), State.popCondition_read, State.popCondition_read]

theorem exec_divs {s : State} {s1 s2 : Reg} {c : Specifier} (hp : s.passes (.divs s1 s2 c)) :
    exec (.divs s1 s2 c) s = s.popCondition.divide (s.read s2) (quotientS (s.read s1) (s.read s2)) := by
  rw [exec, execDivs, runLong_of_passes hp (by rfl), State.popCondition_read, State.popCondition_read]

/-- A read of `HI` or `LO`, free while they are unspecified (R240, R241, R242). -/
theorem exec_mvhi {s : State} {d : Reg} {c : Specifier} (hp : s.passes (.mvhi d c)) :
    exec (.mvhi d c) s = (s.popCondition.readHiLo s.hi).2.write d (s.popCondition.readHiLo s.hi).1 := by
  rw [exec, execMvhi, runLong_of_passes hp (by rfl), State.popCondition_hi]

theorem exec_mvlo {s : State} {d : Reg} {c : Specifier} (hp : s.passes (.mvlo d c)) :
    exec (.mvlo d c) s = (s.popCondition.readHiLo s.lo).2.write d (s.popCondition.readHiLo s.lo).1 := by
  rw [exec, execMvlo, runLong_of_passes hp (by rfl), State.popCondition_lo]

/-- The cross moves in user mode (R238, R239). -/
theorem exec_mvsu_user {s : State} {d r : Reg} {c : Specifier} (hu : s.cur = .user) (hp : s.passes (.mvsu d r c)) :
    exec (.mvsu d r c) s = .next (s.popCondition.raise .illegalOpcode) := by
  rw [exec, execMvsu, runLong_of_passes hp (by rfl)]
  simp only [State.popCondition_cur, hu]

theorem exec_mvus_user {s : State} {d r : Reg} {c : Specifier} (hu : s.cur = .user) (hp : s.passes (.mvus d r c)) :
    exec (.mvus d r c) s = .next (s.popCondition.raise .illegalOpcode) := by
  rw [exec, execMvus, runLong_of_passes hp (by rfl)]
  simp only [State.popCondition_cur, hu]

/-- `MVUS` in supervisor mode to `uSR` (R239). -/
theorem exec_mvus_sr {s : State} {r : Reg} {c : Specifier} (hs : s.cur = .supervisor) (hp : s.passes (.mvus .sr r c)) :
    exec (.mvus .sr r c) s = s.popCondition.srWrite .user (s.read r) := by
  rw [exec, execMvus, runLong_of_passes hp (by rfl)]
  simp only [State.popCondition_cur, hs, State.popCondition_read]

/-- `MVUS` in supervisor mode to another user register (R239). -/
theorem exec_mvus_reg {s : State} {d r : Reg} {c : Specifier} (hs : s.cur = .supervisor) (hd : d ≠ .sr)
    (hp : s.passes (.mvus d r c)) :
    exec (.mvus d r c) s =
      .next (s.popCondition.withRegs .user ((s.popCondition.regs .user).store d (s.read r))) := by
  rw [exec, execMvus, runLong_of_passes hp (by rfl)]
  simp only [State.popCondition_cur, hs, State.popCondition_read]

end Sys2Proof.Proofs.Exec

/-! What the actions of instructions do to the parts of the state that the invariants are about, said once for all of
them: memory, the outputs and the division window; the modes, the queue and the halt state; the refused flags. -/

namespace Sys2Proof.Proofs.Actions
open Sys2Proof Sys2Proof.Machine Sys2Proof.Config

/-! ## Memory, outputs and the division window -/

/-- Memory, the outputs and the division in flight are as before. -/
structure SameOutside (s t : State) : Prop where
  mem : t.mem = s.mem
  outputs : t.outputs = s.outputs
  div : t.div = s.div

theorem SameOutside.refl (s : State) : SameOutside s s := ⟨rfl, rfl, rfl⟩

theorem SameOutside.of_srWrite {s t : State} {m : Mode} {v : Word} (h : s.srWrite m v = .next t) : SameOutside s t := by
  obtain ⟨_, _, ⟨_, rfl⟩ | ⟨_, _, rfl⟩⟩ := State.srWrite_eq_next h <;> constructor <;> simp

theorem SameOutside.of_write {s t : State} {d : Reg} {v : Word} (h : s.write d v = .next t) : SameOutside s t := by
  obtain ⟨_, rfl⟩ | ⟨_, h⟩ := State.write_eq_next h
  · constructor <;> simp
  · exact of_srWrite h

theorem SameOutside.of_writeAlu {s t : State} {d : Reg} {out : AluOut} {fr : Bool}
    (h : s.writeAlu d out fr = .next t) : SameOutside s t := by
  obtain ⟨u, hu, hflags⟩ := State.writeAlu_eq_next h
  obtain ⟨hm, ho, hd⟩ := of_write hu
  obtain ⟨_, rfl⟩ | ⟨_, _, rfl⟩ | ⟨_, _, rfl⟩ := hflags <;> constructor <;> simp [hm, ho, hd]

theorem SameOutside.of_raiseAt (s : State) (e : Event) (p : Word) : SameOutside s (s.raiseAt e p) := by
  constructor <;> simp

/-- Only a store changes memory or the outputs, only a division opens a window. -/
theorem outside_of_action {u t : State} (h : ActionTo u t) :
    SameOutside u t ∨ (∃ ea n v, u.store ea n v = .next t) ∨ ∃ b qr, u.divide b qr = .next t := by
  cases h with
  | skip => exact .inl (.refl u)
  | queue => exact .inl ⟨rfl, rfl, rfl⟩
  | alu _ _ _ _ h => exact .inl (.of_writeAlu h)
  | write k _ _ _ h =>
    obtain ⟨hm, ho, hd⟩ := SameOutside.of_write h
    exact .inl ⟨hm, ho, hd⟩
  | raise => exact .inl (.of_raiseAt ..)
  | store ea n v _ h => exact .inr (.inl ⟨ea, n, v, h⟩)
  | multiply _ _ h =>
    obtain ⟨_, rfl⟩ := State.multiply_eq_next h
    exact .inl ⟨rfl, rfl, rfl⟩
  | divide b qr _ h => exact .inr (.inr ⟨b, qr, h⟩)
  | userSr _ _ _ h => exact .inl (.of_srWrite h)
  | userReg => exact .inl (by constructor <;> simp)

/-- A division leaves memory and the outputs alone, and a window it opens has 11 instructions to pass (R235, R236). -/
theorem divide_outside {s t : State} {b : Word} {qr : Option (Word × Word)} (h : s.divide b qr = .next t) :
    t.mem = s.mem ∧ t.outputs = s.outputs ∧ s.div = none ∧ ∀ w, t.div = some w → w.n = 11 := by
  obtain ⟨hd, ⟨_, rfl⟩ | ⟨_, rfl⟩⟩ := State.divide_eq_next h
  · refine ⟨by simp [State.raise], by simp [State.raise], hd, fun w hw => ?_⟩
    simp [State.raise, hd] at hw
  · refine ⟨rfl, rfl, hd, fun w hw => ?_⟩
    obtain ⟨x, _, rfl⟩ := Option.map_eq_some_iff.1 hw
    rfl

/-- Memory changes by a write of bytes none of which lies over a port, in ROM or in nothing (R62, R72, R75). -/
theorem mem_of_action {u t : State} (h : ActionTo u t) :
    t.mem = u.mem ∨ ∃ ea n v, someAddress isPort ea n = false ∧ someAddress isRom ea n = false ∧
      someAddress isNothing ea n = false ∧ t.mem = Memory.write u.mem ea v n := by
  obtain hs | ⟨ea, n, v, h⟩ | ⟨_, _, h⟩ := outside_of_action h
  · exact .inl hs.mem
  · obtain ⟨_, _, _, rfl⟩ | ⟨hp, hr, hn, rfl⟩ := State.store_eq_next h
    · exact .inl rfl
    · exact .inr ⟨ea, n, v, hp, hr, hn, rfl⟩
  · exact .inl (divide_outside h).1

/-- The outputs grow by at most one event (R75). -/
theorem outputs_of_action {u t : State} (h : ActionTo u t) : t.outputs = u.outputs ∨ ∃ e, t.outputs = u.outputs ++ [e] := by
  obtain hs | ⟨ea, n, v, h⟩ | ⟨_, _, h⟩ := outside_of_action h
  · exact .inl hs.outputs
  · obtain ⟨p, _, _, rfl⟩ | ⟨_, _, _, rfl⟩ := State.store_eq_next h
    · exact .inr ⟨_, rfl⟩
    · exact .inl rfl
  · obtain ⟨_, ho, _⟩ := divide_outside h
    exact .inl ho

/-- The division in flight stays as it is, or there was none and one of 11 instructions starts (R237). -/
theorem div_of_action {u t : State} (h : ActionTo u t) :
    t.div = u.div ∨ u.div = none ∧ ∀ w, t.div = some w → w.n = 11 := by
  obtain hs | ⟨ea, n, v, h⟩ | ⟨_, _, h⟩ := outside_of_action h
  · exact .inl hs.div
  · obtain ⟨_, _, _, rfl⟩ | ⟨_, _, _, rfl⟩ := State.store_eq_next h <;> exact .inl rfl
  · obtain ⟨_, _, hd, hn⟩ := divide_outside h
    exact .inr ⟨hd, hn⟩

/-! ## The modes, the queue and the halt state -/

/-- How an action of an instruction other than `CND` takes a state `u`, whose queue entry is gone, to `t`, as far as
the modes, the queue and the halt state go. -/
inductive ModeTo (u t : State) : Prop where
  /-- The mode stays, and user code does not touch the supervisor set (R25). -/
  | stays (cur : t.cur = u.cur) (queue : t.cndq = u.cndq) (halted : t.halted = u.halted)
      (sup : u.cur = .user → t.sup = u.sup)
  /-- The supervisor writes its `M` bit (R35, R281). -/
  | toUser (was : u.cur = .supervisor) (cur : t.cur = .user) (queue : t.cndq = []) (halted : t.halted = u.halted)
      (usr : t.usr = u.usr)
  /-- User code writes its `M` bit or faults (R281, R283, R284). -/
  | toSupervisor (was : u.cur = .user) (cur : t.cur = .supervisor) (queue : t.cndq = []) (halted : t.halted = u.halted)
      (sup : t.sup = u.sup) (hwi : t.usr.flags.hwi = false)
  /-- The supervisor faults (R283, R286). -/
  | halts (was : u.cur = .supervisor) (cur : t.cur = .supervisor) (queue : t.cndq = u.cndq) (halted : t.halted = true)
      (usr : t.usr = u.usr) (cause : t.sup.flags.nul = true ∨ t.sup.flags.zd = true ∨ t.sup.flags.il = true)

theorem withFlags_user_sup (s : State) (f : StatusFlags) : (s.withFlags .user f).sup = s.sup := rfl

/-- A fault, by the mode it is taken in (R283, R286). -/
theorem ModeTo.of_raiseAt (u : State) (e : Event) (p : Word) : ModeTo u (u.raiseAt e p) := by
  cases hc : u.cur with
  | user =>
    rw [State.raiseAt_user e p hc]
    exact .toSupervisor hc rfl rfl rfl rfl rfl
  | supervisor =>
    rw [State.raiseAt_supervisor e p hc]
    refine .halts hc hc rfl rfl rfl ?_
    cases e
    · exact .inl rfl
    · exact .inr (.inl rfl)
    · exact .inr (.inr rfl)

/-- A write of the `SR` of the current mode (R35). -/
theorem ModeTo.of_srWrite {u t : State} {v : Word} (h : u.srWrite u.cur v = .next t) : ModeTo u t := by
  obtain ⟨_, _, ⟨_, rfl⟩ | ⟨_, hm, rfl⟩⟩ := State.srWrite_eq_next h
  · refine .stays (by simp) (by simp) (by simp) fun hc => ?_
    rw [hc]
    rfl
  · cases hc : u.cur with
    | user =>
      have hbit : v.getLsbD 4 = false := by simpa [hc] using hm
      rw [hbit]
      exact .toSupervisor hc (by simp [modeOfBit]) (by simp) (by simp) (by simp [withFlags_user_sup]) rfl
    | supervisor =>
      have hbit : v.getLsbD 4 = true := by simpa [hc] using hm
      rw [hbit]
      exact .toUser hc (by simp [modeOfBit]) (by simp) (by simp) rfl

theorem ModeTo.of_write {u t : State} {d : Reg} {v : Word} (h : u.write d v = .next t) : ModeTo u t := by
  obtain ⟨_, rfl⟩ | ⟨_, h⟩ := State.write_eq_next h
  · refine .stays (by simp) (by simp) (by simp) fun hc => ?_
    rw [hc]
    rfl
  · exact of_srWrite h

/-- The condition flags are written in the mode that ran (R36), after the result: no other flag with them. -/
theorem ModeTo.withFlags {u t : State} (h : ModeTo u t) (f : StatusFlags) (k : Nat)
    (hhwi : f.hwi = (t.flagsOf u.cur).hwi)
    (hcause : f.nul = (t.flagsOf u.cur).nul ∧ f.zd = (t.flagsOf u.cur).zd ∧ f.il = (t.flagsOf u.cur).il) :
    ModeTo u ((t.withFlags u.cur f).draw k) := by
  cases h with
  | stays cur queue halted sup =>
    refine .stays (by simpa) (by simpa) (by simpa) fun hc => ?_
    rw [hc]
    exact sup hc
  | toUser was cur queue halted usr =>
    rw [was]
    exact .toUser was cur queue halted usr
  | toSupervisor was cur queue halted sup hwi =>
    rw [was] at hhwi ⊢
    exact .toSupervisor was cur queue halted sup (hhwi.trans hwi)
  | halts was cur queue halted usr cause =>
    obtain ⟨hnul, hzd, hil⟩ := hcause
    rw [was] at hnul hzd hil ⊢
    refine .halts was cur queue halted usr ?_
    rcases cause with h | h | h
    · exact .inl (hnul.trans h)
    · exact .inr (.inl (hzd.trans h))
    · exact .inr (.inr (hil.trans h))

theorem ModeTo.of_writeAlu {u t : State} {d : Reg} {out : AluOut} {fr : Bool} (h : u.writeAlu d out fr = .next t) :
    ModeTo u t := by
  obtain ⟨w, hw, ⟨_, rfl⟩ | ⟨_, _, rfl⟩ | ⟨_, _, rfl⟩⟩ := State.writeAlu_eq_next h
  · exact of_write hw
  · exact (of_write hw).withFlags _ 4 rfl ⟨rfl, rfl, rfl⟩
  · unfold State.setAluFlags
    split
    · exact (of_write hw).withFlags _ 0 rfl ⟨rfl, rfl, rfl⟩
    · exact (of_write hw).withFlags _ 2 rfl ⟨rfl, rfl, rfl⟩

/-- The memory, the counts, `HI` and `LO` of the state that an action starts in are nothing to the modes. -/
theorem ModeTo.of_same {u u' t : State} (h : ModeTo u' t) (hcur : u'.cur = u.cur) (hqueue : u'.cndq = u.cndq)
    (hhalted : u'.halted = u.halted) (hsup : u'.sup = u.sup) (husr : u'.usr = u.usr) : ModeTo u t := by
  cases h with
  | stays cur queue halted sup =>
    exact .stays (cur.trans hcur) (queue.trans hqueue) (halted.trans hhalted)
      fun hu => (sup (hcur.trans hu)).trans hsup
  | toUser was cur queue halted usr =>
    exact .toUser (hcur.symm.trans was) cur queue (halted.trans hhalted) (usr.trans husr)
  | toSupervisor was cur queue halted sup hwi =>
    exact .toSupervisor (hcur.symm.trans was) cur queue (halted.trans hhalted) (sup.trans hsup) hwi
  | halts was cur queue halted usr cause =>
    exact .halts (hcur.symm.trans was) cur (queue.trans hqueue) halted (usr.trans husr) cause

theorem ModeTo.of_draw {u t : State} {k : Nat} (h : ModeTo (u.draw k) t) : ModeTo u t :=
  h.of_same rfl rfl rfl rfl rfl

theorem ModeTo.of_store {u t : State} {ea : Word} {n : Nat} {v : Word} (h : u.store ea n v = .next t) : ModeTo u t := by
  obtain ⟨_, _, _, rfl⟩ | ⟨_, _, _, rfl⟩ := State.store_eq_next h <;> exact .stays rfl rfl rfl fun _ => rfl

theorem ModeTo.of_multiply {u t : State} {p : BitVec 64} (h : u.multiply p = .next t) : ModeTo u t := by
  obtain ⟨_, rfl⟩ := State.multiply_eq_next h
  exact .stays rfl rfl rfl fun _ => rfl

/-- A division, by zero too, where `HI` and `LO` are opened before the fault. -/
theorem ModeTo.of_divide {u t : State} {b : Word} {qr : Option (Word × Word)} (h : u.divide b qr = .next t) :
    ModeTo u t := by
  obtain ⟨_, ⟨_, rfl⟩ | ⟨_, rfl⟩⟩ := State.divide_eq_next h
  · exact (of_raiseAt u.openHiLo .zeroDivision _).of_same rfl rfl rfl rfl rfl
  · exact .stays rfl rfl rfl fun _ => rfl

/-- A load: a fault, or a write of a register (R200, R209). -/
theorem ModeTo.of_loadInto {u t : State} {sd a : Reg} {imm : BitVec 15} {n : Nat} {f : Word → Word}
    (h : u.loadInto sd a imm n f = .next t) : ModeTo u t := by
  obtain ⟨ea, _, ⟨_, rfl⟩ | ⟨_, hw⟩⟩ := State.loadInto_eq_next h
  · exact of_raiseAt ..
  · obtain ⟨_, hr⟩ | ⟨_, hr⟩ := State.readBytes_cases u ea n <;> rw [hr] at hw
    · exact of_write hw
    · exact of_draw (of_write hw)

theorem ModeTo.of_storeFrom {u t : State} {sd a : Reg} {imm : BitVec 15} {n : Nat}
    (h : u.storeFrom sd a imm n = .next t) : ModeTo u t := by
  obtain ⟨ea, _, ⟨_, rfl⟩ | ⟨_, hs⟩⟩ := State.storeFrom_eq_next h
  · exact of_raiseAt ..
  · exact of_store hs

theorem ModeTo.of_readHiLo {u t : State} {d : Reg} {v : Word}
    (h : (u.readHiLo v).2.write d (u.readHiLo v).1 = .next t) : ModeTo u t := by
  obtain ⟨_, hr⟩ | ⟨_, hr⟩ := State.readHiLo_cases u v <;> rw [hr] at h
  · exact of_write h
  · exact of_draw (of_write h)

/-- The supervisor writes a user register (R239). -/
theorem ModeTo.of_userSr {u t : State} {v : Word} (hc : u.cur = .supervisor) (h : u.srWrite .user v = .next t) :
    ModeTo u t := by
  obtain ⟨_, _, ⟨_, rfl⟩ | ⟨hm, _, rfl⟩⟩ := State.srWrite_eq_next h
  · exact .stays rfl rfl rfl fun hu => by rw [hc] at hu; cases hu
  · rw [hc] at hm; cases hm

theorem ModeTo.of_userReg {u : State} (x : RegSet) (hc : u.cur = .supervisor) : ModeTo u (u.withRegs .user x) :=
  .stays rfl rfl rfl fun hu => by rw [hc] at hu; cases hu

/-- Every action but that of `CND`. -/
theorem modeTo_of_action {u t : State} (h : ActionTo u t) :
    ModeTo u t ∨ ∃ c1 c2 c3, t = { u with cndq := [c1, c2, c3] } := by
  cases h with
  | skip => exact .inl (.stays rfl rfl rfl fun _ => rfl)
  | queue c1 c2 c3 => exact .inr ⟨c1, c2, c3, rfl⟩
  | alu _ _ _ _ h => exact .inl (.of_writeAlu h)
  | write _ _ _ _ h => exact .inl (.of_draw (.of_write h))
  | raise => exact .inl (.of_raiseAt ..)
  | store _ _ _ _ h => exact .inl (.of_store h)
  | multiply _ _ h => exact .inl (.of_multiply h)
  | divide _ _ _ h => exact .inl (.of_divide h)
  | userSr hc _ _ h => exact .inl (.of_userSr hc h)
  | userReg hc => exact .inl (.of_userReg _ hc)

/-! ## The refused flags -/

/-- No stored `WFI` or `STEP` (R295). -/
def FlagsClear (s : State) : Prop := ∀ m, (s.flagsOf m).wfi = false ∧ (s.flagsOf m).step = false

/-- Writing the flags of one mode. -/
theorem FlagsClear.withFlags {s : State} (h : FlagsClear s) (m : Mode) {f : StatusFlags} (hw : f.wfi = false)
    (hs : f.step = false) : FlagsClear (s.withFlags m f) := by
  intro m'
  by_cases hm : m' = m
  · subst hm
    rw [State.withFlags_flagsOf]
    exact ⟨hw, hs⟩
  · rw [State.withFlags_flagsOf_ne s f hm]
    exact h m'

theorem FlagsClear.of_flagsOf {s t : State} (h : FlagsClear s) (hf : ∀ m, t.flagsOf m = s.flagsOf m) : FlagsClear t :=
  fun m => by rw [hf m]; exact h m

theorem FlagsClear.switchMode {s : State} (h : FlagsClear s) (new : Mode) : FlagsClear (s.switchMode new) := by
  intro m
  rw [State.switchMode_flagsOf]
  split
  · exact h m
  · exact h m

theorem FlagsClear.raiseAt {s : State} (h : FlagsClear s) (e : Event) (p : Word) : FlagsClear (s.raiseAt e p) := by
  have hrec (f : StatusFlags) : (f.record e).wfi = f.wfi ∧ (f.record e).step = f.step := by cases e <;> exact ⟨rfl, rfl⟩
  intro m
  cases hc : s.cur with
  | user =>
    rw [State.raiseAt_user e p hc]
    cases m with
    | user => exact ⟨(hrec _).1.trans (h .user).1, (hrec _).2.trans (h .user).2⟩
    | supervisor => exact h .supervisor
  | supervisor =>
    rw [State.raiseAt_supervisor e p hc]
    cases m with
    | user => exact h .user
    | supervisor => exact ⟨(hrec _).1.trans (h .supervisor).1, (hrec _).2.trans (h .supervisor).2⟩

/-- A write of `SR` that would set either is refused (R35). -/
theorem FlagsClear.srWrite {s t : State} (h : FlagsClear s) {m : Mode} {v : Word} (hw : s.srWrite m v = .next t) :
    FlagsClear t := by
  obtain ⟨h7, h8, ⟨_, rfl⟩ | ⟨_, _, rfl⟩⟩ := State.srWrite_eq_next hw
  · exact h.withFlags m h7 h8
  · exact (h.withFlags m h7 h8).switchMode _

theorem FlagsClear.write {s t : State} (h : FlagsClear s) {d : Reg} {v : Word} (hw : s.write d v = .next t) :
    FlagsClear t := by
  obtain ⟨_, rfl⟩ | ⟨_, hw⟩ := State.write_eq_next hw
  · exact h.of_flagsOf fun m => State.flagsOf_withRegs_store ..
  · exact h.srWrite hw

theorem FlagsClear.withFlags_draw {s : State} (h : FlagsClear s) (m : Mode) {f : StatusFlags} (hw : f.wfi = false)
    (hs : f.step = false) (k : Nat) : FlagsClear ((s.withFlags m f).draw k) :=
  (h.withFlags m hw hs).of_flagsOf fun _ => State.draw_flagsOf ..

theorem FlagsClear.writeAlu {s t : State} (h : FlagsClear s) {d : Reg} {out : AluOut} {fr : Bool}
    (hw : s.writeAlu d out fr = .next t) : FlagsClear t := by
  obtain ⟨u, hu, hflags⟩ := State.writeAlu_eq_next hw
  have hclear := h.write hu
  obtain ⟨hwfi, hstep⟩ := hclear s.cur
  obtain ⟨_, rfl⟩ | ⟨_, _, rfl⟩ | ⟨_, _, rfl⟩ := hflags
  · exact hclear
  · refine hclear.withFlags_draw s.cur ?_ ?_ 4
    exacts [hwfi, hstep]
  · unfold State.setAluFlags
    split
    · refine hclear.withFlags s.cur ?_ ?_
      exacts [hwfi, hstep]
    · refine hclear.withFlags_draw s.cur ?_ ?_ 2
      exacts [hwfi, hstep]

/-- No action sets either flag (R295). -/
theorem FlagsClear.of_action {u t : State} (hu : FlagsClear u) (h : ActionTo u t) : FlagsClear t := by
  cases h with
  | skip => exact hu
  | queue => exact hu.of_flagsOf fun m => by cases m <;> rfl
  | alu _ _ _ _ h => exact hu.writeAlu h
  | write k _ _ _ h => exact (hu.of_flagsOf fun _ => State.draw_flagsOf ..).write h
  | raise e => exact hu.raiseAt e _
  | store _ _ _ _ h =>
    obtain ⟨_, _, _, rfl⟩ | ⟨_, _, _, rfl⟩ := State.store_eq_next h <;> exact hu.of_flagsOf fun m => by cases m <;> rfl
  | multiply _ _ h =>
    obtain ⟨_, rfl⟩ := State.multiply_eq_next h
    exact hu.of_flagsOf fun m => by cases m <;> rfl
  | divide _ _ _ h =>
    have hopen : FlagsClear u.openHiLo := hu.of_flagsOf fun m => by cases m <;> rfl
    obtain ⟨_, ⟨_, rfl⟩ | ⟨_, rfl⟩⟩ := State.divide_eq_next h
    · exact hopen.raiseAt .zeroDivision _
    · exact hopen.of_flagsOf fun m => by cases m <;> rfl
  | userSr _ _ _ h => exact hu.srWrite h
  | userReg => exact hu.of_flagsOf fun m => State.flagsOf_withRegs_store ..

end Sys2Proof.Proofs.Actions

/-! The invariant of every run (10_state.md R40 to R42, 60_exceptions.md R295): it holds at reset and every step keeps it;
and what a step can do to the modes, to memory and to the outputs, which the other safety statements are read from. -/

namespace Sys2Proof.Proofs.Steps
open Sys2Proof Sys2Proof.Machine Sys2Proof.Config Sys2Proof.Proofs.Actions

/-! ## Reset -/

/-- Settles O1: each field is the one that `State.resetAt` writes. -/
theorem resetStartsTheSupervisor : Obligations.ResetStartsTheSupervisor :=
  ⟨rfl, fun _ => ⟨rfl, rfl, rfl, rfl, rfl, rfl, fun m => by cases m <;> exact ⟨rfl, rfl⟩, fun m => by cases m <;> rfl⟩⟩

theorem resetAt_inv (p : Word) : (State.resetAt p).Inv where
  mem := rfl
  queue := Nat.zero_le 3
  window := nofun
  wfi m := by cases m <;> rfl
  step m := by cases m <;> rfl
  halt := nofun

/-- Settles O2, for `RESET_PC` as for any address. -/
theorem resetSatisfiesTheInvariant : Obligations.ResetSatisfiesTheInvariant :=
  ⟨resetAt_inv _, resetAt_inv⟩

/-! ## Every step keeps the invariant -/

theorem flagsClear_of_inv {s : State} (h : s.Inv) : FlagsClear s := fun m => ⟨h.wfi m, h.step m⟩

/-- The invariant while an instruction runs that is not halted: its window may have 0 instructions to pass (R237). -/
structure RunningInv (s : State) : Prop where
  mem : Memory.wf s.mem = true
  queue : s.cndq.length ≤ 3
  window : ∀ w, s.div = some w → w.n ≤ 11
  flags : FlagsClear s
  halt : s.halted = true → s.cur = .supervisor

/-- The state in which an instruction runs (R30). -/
theorem runningInv_of_begin {s : State} (h : s.Inv) (k : Nat) (npc : Word) :
    RunningInv ((s.countStep.draw k).withPc npc).tickBefore where
  mem := by simpa using h.mem
  queue := by simpa using h.queue
  window w hw := by
    simp only [State.tickBefore, State.withPc_div, State.draw_div, State.countStep_div] at hw
    obtain ⟨w', hw', rfl⟩ := Option.map_eq_some_iff.1 hw
    have := (h.window w' hw').2
    simp only
    omega
  flags := (flagsClear_of_inv h).of_flagsOf fun m => by
    rw [State.flagsOf, State.tickBefore_regs]
    exact (State.withPc_flagsOf ..).trans (by simp)
  halt := by simpa using h.halt

/-- An instruction keeps it, in a state that is not halted. -/
theorem RunningInv.exec {i : Instr} {s t : State} (h : RunningInv s) (hh : s.halted = false) (he : exec i s = .next t) :
    RunningInv t := by
  have ha := exec_eq_next he
  have hlen : s.popCondition.cndq.length ≤ 3 := by
    have := h.queue
    simp only [State.popCondition_cndq, List.length_tail]
    omega
  have hrest : t.cndq.length ≤ 3 ∧ (t.halted = true → t.cur = .supervisor) := by
    obtain hm | ⟨_, _, _, rfl⟩ := modeTo_of_action ha
    · have hrun (ht : t.halted = s.popCondition.halted) : t.halted = true → t.cur = .supervisor := by
        intro h'
        rw [ht, State.popCondition_halted, hh] at h'
        cases h'
      cases hm with
      | stays cur queue halted sup => exact ⟨queue ▸ hlen, hrun halted⟩
      | toUser was cur queue halted usr => exact ⟨by simp [queue], hrun halted⟩
      | toSupervisor was cur queue halted sup hwi => exact ⟨by simp [queue], fun _ => cur⟩
      | halts was cur queue halted usr cause => exact ⟨queue ▸ hlen, fun _ => cur⟩
    · exact ⟨by simp, h.halt⟩
  refine ⟨?mem, hrest.1, ?window, ?flags, hrest.2⟩
  case mem =>
    obtain hm | ⟨ea, n, v, _, _, _, hm⟩ := mem_of_action ha
    · rw [hm]; exact h.mem
    · rw [hm]; exact Memory.wf_write _ _ _ h.mem
  case window =>
    intro w hw
    obtain hd | ⟨_, hd⟩ := div_of_action ha
    · exact h.window w (hd ▸ hw)
    · exact (hd w hw).le
  case flags =>
    have hpop : FlagsClear s.popCondition := h.flags.of_flagsOf fun m => State.popCondition_flagsOf ..
    exact hpop.of_action ha

/-- The end of the window leaves no window with 0 instructions to pass (R237). -/
theorem tickAfter_div_eq_some {s : State} {w : DivWindow} (h : s.tickAfter.div = some w) : s.div = some w ∧ w.n ≠ 0 := by
  unfold State.tickAfter at h
  split at h
  · next hd =>
    split at h
    · cases h
    · next hn => cases hd.symm.trans h; exact ⟨h, hn⟩
  · next hd => rw [hd] at h; cases h

theorem RunningInv.tickAfter {s : State} (h : RunningInv s) : s.tickAfter.Inv := by
  have hf (m : Mode) : s.tickAfter.flagsOf m = s.flagsOf m := by rw [State.flagsOf, State.tickAfter_regs]; rfl
  refine ⟨by simpa using h.mem, by simpa using h.queue, fun w hw => ?_, fun m => ?_, fun m => ?_, by simpa using h.halt⟩
  · obtain ⟨hd, hn⟩ := tickAfter_div_eq_some hw
    exact ⟨Nat.one_le_iff_ne_zero.2 hn, h.window w hd⟩
  · rw [hf]; exact (h.flags m).1
  · rw [hf]; exact (h.flags m).2

/-- A fault of the fetch keeps the invariant. -/
theorem inv_raiseAt {s : State} (h : s.Inv) (e : Event) (p : Word) : (s.raiseAt e p).Inv := by
  have hf := (flagsClear_of_inv h).raiseAt e p
  refine ⟨by simpa using h.mem, ?_, by simpa using h.window, fun m => (hf m).1, fun m => (hf m).2, fun _ => by simp⟩
  cases ModeTo.of_raiseAt s e p with
  | stays cur queue halted sup => exact queue ▸ h.queue
  | toUser was cur queue halted usr => simp [queue]
  | toSupervisor was cur queue halted sup hwi => simp [queue]
  | halts was cur queue halted usr cause => exact queue ▸ h.queue

/-- What has been drawn and how many steps have begun are no part of the invariant. -/
theorem inv_begin {s : State} (h : s.Inv) (k : Nat) : (s.countStep.draw k).Inv :=
  ⟨h.mem, h.queue, h.window, h.wfi, h.step, h.halt⟩

/-- An interrupt keeps the invariant (R290). -/
theorem inv_takeInterrupt {s : State} (h : s.Inv) : s.takeInterrupt.Inv := by
  refine ⟨h.mem, h.queue, h.window, fun m => ?_, fun m => ?_, fun _ => rfl⟩
  · cases m
    · exact h.wfi .supervisor
    · exact h.wfi .user
  · cases m
    · exact h.step .supervisor
    · exact h.step .user

theorem inv_of_stepTo {irq : Irq} {s t : State} (hs : s.Inv) (h : StepTo irq s t) : t.Inv := by
  cases h with
  | halted => exact hs
  | interrupt => exact inv_takeInterrupt (inv_begin hs 0)
  | nullFetch => exact inv_raiseAt (inv_begin hs 0) ..
  | illegal _ _ k => exact inv_raiseAt (inv_begin hs k) ..
  | ran hh _ k npc i u h =>
    exact ((runningInv_of_begin hs k npc).exec (by simpa using hh) h).tickAfter

/-- Settles O3: an instruction keeps the invariant but for the window's lower bound, which the end of the window
restores; the rest of a step is a fault, an interrupt or nothing. -/
theorem stepKeepsTheInvariant : Obligations.StepKeepsTheInvariant :=
  fun _ _ hs => ⟨fun h => inv_of_stepTo hs (step_eq_next h), fun _ h => inv_of_stepTo hs (stepUnder_eq_next h)⟩

end Sys2Proof.Proofs.Steps

/-! Modes, halt, memory and outputs over one step (10_state.md R25, R42, 20_memory.md R62, R75, 60_exceptions.md R280 to
R296): each statement is read from the one inversion of the step. -/

namespace Sys2Proof.Proofs.Modes
open Sys2Proof Sys2Proof.Machine Sys2Proof.Config Sys2Proof.Proofs.Actions Sys2Proof.Proofs.Exec

/-! ## What a step does to the modes -/

/-- `u` is `s` but for what the fetch has done: the mode and the halt state are those of `s`, and so is the register
set of the mode that does not run. -/
structure StartsAs (s u : State) : Prop where
  cur : u.cur = s.cur
  halted : u.halted = s.halted
  sup : s.cur = .user → u.sup = s.sup
  usr : s.cur = .supervisor → u.usr = s.usr

theorem StartsAs.begin (s : State) (k : Nat) (npc : Word) :
    StartsAs s ((s.countStep.draw k).withPc npc).tickBefore.popCondition := by
  refine ⟨by simp, by simp, fun hc => ?_, fun hc => ?_⟩ <;> simp [State.withPc, State.withRegs, hc]

/-- The end of the window is nothing to the modes. -/
theorem modeTo_tickAfter {u t : State} (h : ModeTo u t) : ModeTo u t.tickAfter := by
  cases h with
  | stays cur queue halted sup => exact .stays (by simpa) (by simpa) (by simpa) (by simpa)
  | toUser was cur queue halted usr => exact .toUser was (by simpa) (by simpa) (by simpa) (by simpa)
  | toSupervisor was cur queue halted sup hwi => exact .toSupervisor was (by simpa) (by simpa) (by simpa) (by simpa) (by simpa)
  | halts was cur queue halted usr cause => exact .halts was (by simpa) (by simpa) (by simpa) (by simpa) (by simpa)

/-- A step: a halted CPU stays, an interrupt is taken, or a fault of the fetch or an instruction changes the modes as an
action can. -/
theorem modes_of_step {irq : Irq} {s t : State} (h : stepUnder irq s = .next t) :
    (s.halted = true ∧ t = s) ∨ (s.interruptTaken irq = true ∧ s.halted = false ∧ t = s.countStep.takeInterrupt) ∨
      (s.interruptTaken irq = false ∧ s.halted = false ∧ ∃ u, StartsAs s u ∧ ModeTo u t) := by
  cases stepUnder_eq_next h with
  | halted hh => exact .inl ⟨hh, rfl⟩
  | interrupt hh hi => exact .inr (.inl ⟨hi, hh, rfl⟩)
  | nullFetch hh hi => exact .inr (.inr ⟨hi, hh, s.countStep, ⟨rfl, rfl, fun _ => rfl, fun _ => rfl⟩, .of_raiseAt ..⟩)
  | illegal hh hi k => exact .inr (.inr ⟨hi, hh, s.countStep.draw k, ⟨rfl, rfl, fun _ => rfl, fun _ => rfl⟩, .of_raiseAt ..⟩)
  | ran hh hi k npc i u he =>
    have hbegin := StartsAs.begin s k npc
    refine .inr (.inr ⟨hi, hh, ?_⟩)
    obtain hm | ⟨c1, c2, c3, rfl⟩ := modeTo_of_action (exec_eq_next he)
    · exact ⟨_, hbegin, modeTo_tickAfter hm⟩
    · exact ⟨{ ((s.countStep.draw k).withPc npc).tickBefore.popCondition with cndq := [c1, c2, c3] },
        ⟨hbegin.cur, hbegin.halted, hbegin.sup, hbegin.usr⟩, modeTo_tickAfter (.stays rfl rfl rfl fun _ => rfl)⟩

/-- An interrupt is taken in user mode with an empty queue alone (R290). -/
theorem interruptTaken_eq_true {s : State} {irq : Irq} (h : s.interruptTaken irq = true) : s.cur = .user ∧ s.cndq = [] := by
  simp only [State.interruptTaken, Bool.and_eq_true, decide_eq_true_eq, List.isEmpty_iff] at h
  obtain ⟨⟨hcur, hqueue⟩, _⟩ := h
  exact ⟨hcur, hqueue⟩

/-- Settles O52: of the ways in which a step changes the modes only a fault in supervisor mode halts. -/
theorem onlySupervisorFaultsHalt : Obligations.OnlySupervisorFaultsHalt := by
  intro irq s t h hs ht
  obtain ⟨hh, _⟩ | ⟨_, _, rfl⟩ | ⟨_, _, u, hu, hm⟩ := modes_of_step h
  · exact absurd (hs.symm.trans hh) (by decide)
  · exact absurd (hs.symm.trans ht) (by decide)
  · have hrun (he : t.halted = u.halted) : False :=
      absurd (hs.symm.trans (hu.halted.symm.trans (he.symm.trans ht))) (by decide)
    cases hm with
    | stays cur queue halted sup => exact (hrun halted).elim
    | toUser was cur queue halted usr => exact (hrun halted).elim
    | toSupervisor was cur queue halted sup hwi => exact (hrun halted).elim
    | halts was cur queue halted usr cause => exact ⟨hu.cur.symm.trans was, cur, cause⟩

/-- Settles O53: an interrupt sets the user `HWI`, every other entry clears it. -/
theorem entryToSupervisorWritesHwi : Obligations.EntryToSupervisorWritesHwi := by
  intro irq s t h hs ht
  obtain ⟨_, rfl⟩ | ⟨hi, _, rfl⟩ | ⟨hi, _, u, hu, hm⟩ := modes_of_step h
  · rw [hs] at ht; cases ht
  · exact ⟨(interruptTaken_eq_true hi).2, hi.symm⟩
  · have huser : u.cur = .user := hu.cur.trans hs
    rw [hi]
    cases hm with
    | stays cur => rw [cur, huser] at ht; cases ht
    | toUser was => rw [was] at huser; cases huser
    | toSupervisor was cur queue halted sup hwi => exact ⟨queue, hwi⟩
    | halts was => rw [was] at huser; cases huser

/-- A step that ends in the fetch leaves the supervisor to run, or is that of a halted CPU. -/
theorem cur_of_fetch_over {irq : Irq} {s t : State} (h : s.fetch irq = .over (.next t)) : t = s ∨ t.cur = .supervisor := by
  obtain ⟨_, hf⟩ | ⟨_, _, hf⟩ | ⟨_, _, hf⟩ := State.fetch_cases s irq
  · rw [hf] at h; cases h; exact .inl rfl
  · rw [hf] at h; cases h; exact .inr rfl
  · rw [hf] at h
    obtain ⟨r, hr⟩ | ⟨_, hr⟩ | ⟨k, p, hr⟩ := State.fetchAtPc_eq_over h
    · cases hr
    · cases hr; exact .inr (by simp)
    · cases hr; exact .inr (by simp)

/-- Settles O54: what the fetch alone does never enters user mode, and of an instruction's ways only the supervisor's
write of its `M` bit does. -/
theorem entryToUserRestoresNothing : Obligations.EntryToUserRestoresNothing := by
  intro irq s t h hs ht
  have hrun : ∃ i u, s.fetch irq = .run i u := by
    rcases hf : s.fetch irq with o | ⟨i, u⟩
    · unfold stepUnder at h
      rw [hf] at h
      cases h
      obtain rfl | hc := cur_of_fetch_over hf
      · rw [hs] at ht; cases ht
      · rw [hc] at ht; cases ht
    · exact ⟨i, u, rfl⟩
  refine ⟨hrun, ?_⟩
  obtain ⟨_, rfl⟩ | ⟨_, _, rfl⟩ | ⟨_, hh, u, hu, hm⟩ := modes_of_step h
  · rw [hs] at ht; cases ht
  · cases ht
  · have hsup : u.cur = .supervisor := hu.cur.trans hs
    cases hm with
    | stays cur => rw [cur, hsup] at ht; cases ht
    | toUser was cur queue halted usr => exact ⟨queue, usr.trans (hu.usr hs), halted.trans (hu.halted.trans hh)⟩
    | toSupervisor was => rw [was] at hsup; cases hsup
    | halts was cur => rw [cur] at ht; cases ht

/-- Settles O55, for each way in which a step changes the modes. -/
theorem userModeCannotWriteTheSupervisorSet : Obligations.UserModeCannotWriteTheSupervisorSet := by
  intro irq s t h hs
  obtain ⟨_, rfl⟩ | ⟨_, _, rfl⟩ | ⟨_, _, u, hu, hm⟩ := modes_of_step h
  · rfl
  · rfl
  · have huser : u.cur = .user := hu.cur.trans hs
    cases hm with
    | stays cur queue halted sup => exact (sup huser).trans (hu.sup hs)
    | toUser was => rw [was] at huser; cases huser
    | toSupervisor was cur queue halted sup hwi => exact sup.trans (hu.sup hs)
    | halts was => rw [was] at huser; cases huser

/-! ## Memory and outputs -/

/-- What a step does to memory and the outputs is what the action of its instruction does, if one ran. -/
theorem outside_of_step {irq : Irq} {s t : State} (h : stepUnder irq s = .next t) :
    (t.mem = s.mem ∧ t.outputs = s.outputs) ∨
      ∃ u v, ActionTo u v ∧ u.mem = s.mem ∧ u.outputs = s.outputs ∧ t.mem = v.mem ∧ t.outputs = v.outputs := by
  cases stepUnder_eq_next h with
  | halted => exact .inl ⟨rfl, rfl⟩
  | interrupt => exact .inl ⟨rfl, rfl⟩
  | nullFetch => exact .inl (by simp)
  | illegal => exact .inl (by simp)
  | ran _ _ k npc i u he => exact .inr ⟨_, _, exec_eq_next he, by simp, by simp, by simp, by simp⟩

/-- A region none of the addresses has. -/
theorem region_of_someAddress {p : Region → Bool} {ea : Word} {n : Nat} (h : someAddress p ea n = false) {k : Nat}
    (hk : k < n) : p (Params.memmap (ea + BitVec.ofNat 32 k)) = false := by
  induction n generalizing ea k with
  | zero => omega
  | succ n ih =>
    rw [someAddress, Bool.or_eq_false_iff] at h
    cases k with
    | zero => simpa using h.1
    | succ k =>
      have hadd : ea + BitVec.ofNat 32 (k + 1) = ea + 1 + BitVec.ofNat 32 k := by
        rw [Nat.add_comm, BitVec.ofNat_add, BitVec.add_assoc]
        rfl
      rw [hadd]
      exact ih h.2 (by omega)

/-- Outside RAM an address is a port, ROM or nothing (R72). -/
theorem region_outside_ram {a : Word} (h : a.toNat < 0x10000 ∨ 0xF0000000 ≤ a.toNat) :
    isPort (Params.memmap a) = true ∨ isRom (Params.memmap a) = true ∨ isNothing (Params.memmap a) = true := by
  unfold Params.memmap
  dsimp only
  split_ifs
  · exact .inr (.inr rfl)
  · exact .inr (.inl rfl)
  · omega
  · exact .inl rfl
  · exact .inl rfl
  · exact .inl rfl
  · exact .inr (.inr rfl)

/-- Settles O57: a write that is carried out covers RAM alone. -/
theorem onlyRamChanges : Obligations.OnlyRamChanges := by
  intro irq s t h a ha
  obtain ⟨hm, _⟩ | ⟨u, v, hact, hu, _, hv, _⟩ := outside_of_step h
  · rw [hm]
  · rw [hv, ← hu]
    obtain hm | ⟨ea, n, w, hport, hrom, hnothing, hm⟩ := mem_of_action hact
    · rw [hm]
    · rw [hm]
      refine Memory.lookup_write_of_ne _ _ _ _ _ fun k hk => ?_
      rintro rfl
      obtain hp | hr | hn := region_outside_ram ha
      · rw [region_of_someAddress hport hk] at hp; cases hp
      · rw [region_of_someAddress hrom hk] at hr; cases hr
      · rw [region_of_someAddress hnothing hk] at hn; cases hn

/-- Settles O58: only a store of one byte to a port adds an event. -/
theorem outputsOnlyGrow : Obligations.OutputsOnlyGrow := by
  intro irq s t h
  obtain ⟨_, ho⟩ | ⟨u, v, hact, _, hu, _, hv⟩ := outside_of_step h
  · exact .inl ho
  · rw [hv, ← hu]
    exact outputs_of_action hact

/-! ## The condition queue -/

/-- An instruction other than `CND` fills no queue: its action is one of the shared operations. -/
theorem modeTo_of_exec {i : Instr} {s t : State} (hi : ∀ c1 c2 c3, i ≠ .cnd c1 c2 c3) (h : exec i s = .next t) :
    ModeTo s.popCondition t := by
  by_cases hp : s.passes i
  case neg =>
    rw [exec_of_not_passes hp] at h
    cases h
    exact .stays rfl rfl rfl fun _ => rfl
  case pos =>
    cases i with
    | nop => rw [exec_nop] at h; cases h; exact .stays rfl rfl rfl fun _ => rfl
    | cnd c1 c2 c3 => exact absurd rfl (hi c1 c2 c3)
    | add | sub | lsh | ash | and | or | xor | addi | subi | lshi | ashi | andi | ori | xori =>
      rw [exec_alu rfl hp] at h
      exact .of_writeAlu h
    | ldh | ldi =>
      rw [exec_move rfl hp] at h
      exact .of_write h
    | lw | lhu | lhs | lbu | lbs =>
      rw [exec_load rfl rfl hp] at h
      exact .of_loadInto h
    | sw | sh | sb =>
      rw [exec_store rfl rfl hp] at h
      exact .of_storeFrom h
    | mltu => rw [exec_mltu hp] at h; exact .of_multiply h
    | mlts => rw [exec_mlts hp] at h; exact .of_multiply h
    | divu => rw [exec_divu hp] at h; exact .of_divide h
    | divs => rw [exec_divs hp] at h; exact .of_divide h
    | mvhi => rw [exec_mvhi hp] at h; exact .of_readHiLo h
    | mvlo => rw [exec_mvlo hp] at h; exact .of_readHiLo h
    | mvsu d r c =>
      cases hc : s.cur with
      | user => rw [exec_mvsu_user hc hp] at h; cases h; exact .of_raiseAt ..
      | supervisor =>
        rw [exec_move (i := .mvsu d r c) (d := d) (v := s.reg .user r) (if_pos hc) hp] at h
        exact .of_write h
    | mvus d r c =>
      cases hc : s.cur with
      | user => rw [exec_mvus_user hc hp] at h; cases h; exact .of_raiseAt ..
      | supervisor =>
        by_cases hd : d = .sr
        · subst hd
          rw [exec_mvus_sr hc hp] at h
          exact .of_userSr hc h
        · rw [exec_mvus_reg hc hd hp] at h
          cases h
          exact .of_userReg _ hc

/-- Settles O17: `ModeTo` for every instruction but `CND`, whose one effect is the queue. -/
theorem queueLosesOneEntryPerInstruction : Obligations.QueueLosesOneEntryPerInstruction := by
  intro i s t h
  refine ⟨fun c1 c2 c3 hi hp => ?fills, fun hc => ?switch, fun hi hc => ?loses⟩
  case fills =>
    subst hi
    rw [exec_cnd hp] at h
    cases h
    rfl
  case switch =>
    obtain hm | ⟨_, _, _, rfl⟩ := modeTo_of_action (exec_eq_next h)
    · cases hm with
      | stays cur => exact absurd cur hc
      | toUser was cur queue => exact queue
      | toSupervisor was cur queue => exact queue
      | halts was cur => exact absurd (cur.trans was.symm) hc
    · exact absurd rfl hc
  case loses =>
    obtain hi | hp := hi
    · cases modeTo_of_exec hi h with
      | stays cur queue => exact queue
      | toUser was cur => exact absurd (was.symm.trans (hc.symm.trans cur)) (by decide)
      | toSupervisor was cur => exact absurd (was.symm.trans (hc.symm.trans cur)) (by decide)
      | halts was cur queue => exact queue
    · rw [exec_of_not_passes hp] at h
      cases h
      rfl

/-- Settles O18: the Short format's fields, and the one effect of an executed `CND`. -/
theorem cndFillsTheQueue : Obligations.CndFillsTheQueue :=
  ⟨rfl, fun _ _ _ _ => ⟨rfl, exec_cnd⟩⟩

end Sys2Proof.Proofs.Modes

/-! The instruction step (10_state.md R28 to R31, R237): the fetch, what its refusals and faults come to, the state in
which an instruction runs, and what counts in the division window. -/

namespace Sys2Proof.Proofs.Fetching
open Sys2Proof Sys2Proof.Machine Sys2Proof.Config Sys2Proof.Proofs.Actions Sys2Proof.Proofs.Exec

/-! ## The fetch -/

/-- Where the word decodes, the instruction runs with `pc` advanced and the window told (R30). -/
theorem fetch_of_decode {irq : Irq} {s : State} {i : Instr} (h : s.fetches irq)
    (hd : decodeSlot (slotOf s.pc) s.fetchWord.1 = .ok i) :
    s.fetch irq =
      .run i (s.fetchWord.2.countStep.withPc (s.pc + advance (slotOf s.pc) s.fetchWord.1)).tickBefore := by
  rw [State.fetch_of_fetches h, State.decodeFetched, hd]

/-- Settles O4: the fetch of a word that decodes, then the instruction and the end of the window. -/
theorem stepRunsTheDecodedInstruction : Obligations.StepRunsTheDecodedInstruction := by
  refine ⟨fun _ => rfl, fun irq s i h hd _ => ?_⟩
  rw [stepUnder_of_run (fetch_of_decode h hd)]
  rfl

/-- Settles O5: the word's address is a multiple of 4, so none of its bytes lies beyond RAM. -/
theorem fetchReadsTheWordAtPc : Obligations.FetchReadsTheWordAtPc := by
  intro s h0 h1
  have hw := wordAddress_toNat s.pc
  rw [State.fetchWord, State.readBytes_four s _ h0 (by omega)]
  rfl

/-- What an instruction reads as `PC` is what the fetch has set (R28). -/
theorem read_pc_tickBefore_withPc (s : State) (v : Word) : (s.withPc v).tickBefore.read .pc = v := by
  rw [State.read, State.reg, State.tickBefore_regs, State.tickBefore_cur, State.withPc, State.withRegs_cur,
    State.withRegs_regs]
  rfl

/-- `npc` by the length of the instruction and the slot it stands in (R29). -/
theorem npc_eq (s : State) (h0 : s.pc.getLsbD 0 = false) :
    s.pc + advance (slotOf s.pc) s.fetchWord.1 =
      if s.fetchWord.1.getLsbD 31 then s.pc + 4
      else if s.pc.getLsbD 1 then wordAddress s.pc + 4
      else if s.fetchWord.1.extractLsb' 16 16 = 0 then s.pc + 4
      else s.pc + 2 := by
  rw [advance_eq, slotOf_eq]
  by_cases hlong : s.fetchWord.1.getLsbD 31 = true
  · rw [if_pos hlong, if_pos hlong]
  · rw [if_neg hlong, if_neg hlong]
    cases h1 : s.pc.getLsbD 1
    · simp only [Bool.false_eq_true, if_false, reduceCtorEq]
      split <;> rfl
    · simp only [if_true]
      exact (wordAddress_of_second h1 h0).symm

/-- Settles O6: npc by the slot and the length, as `pc` is set before the instruction runs. -/
theorem nextInstructionAddress : Obligations.NextInstructionAddress := by
  intro irq s i h hd
  have ⟨_, _, h0, _⟩ := h
  exact ⟨_, fetch_of_decode h hd, (read_pc_tickBefore_withPc ..).trans (npc_eq s h0),
    fun h1 => wordAddress_of_second h1 h0⟩

/-- Past the halt and the interrupt a step is the fetch at `pc` (R30). -/
theorem fetch_of_running {irq : Irq} {s : State} (hh : s.halted = false) (hi : s.interruptTaken irq = false) :
    s.fetch irq = s.countStep.fetchAtPc := by
  rw [State.fetch, if_neg (by rw [hh]; decide), if_neg (by rw [hi]; decide)]

theorem stepUnder_of_over {irq : Irq} {s : State} {o : Result} (h : s.fetch irq = .over o) : stepUnder irq s = o := by
  unfold stepUnder
  rw [h]

/-- Settles O7: the two refusals of the fetch in their order, and the second halfword of a pair, whose bit 15 is the
word's bit 31. -/
theorem pcAlignment : Obligations.PcAlignment := by
  intro irq s hh hi
  refine ⟨fun hodd => ?odd, fun heven h1 hlong => ?inside, fun hf h1 hpair => ?second⟩
  case odd =>
    refine stepUnder_of_over ?_
    rw [fetch_of_running hh hi, State.fetchAtPc, State.countStep_pc, if_pos hodd]
  case inside =>
    refine stepUnder_of_over ?_
    have hinside : s.insideLong = true := by rw [State.insideLong, h1, hlong]; rfl
    rw [fetch_of_running hh hi, State.fetchAtPc, State.countStep_pc, if_neg (by rw [heven]; decide),
      State.countStep_insideLong, if_pos hinside]
  case second =>
    have h15 : (s.fetchWord.1.extractLsb' 16 16).getLsbD 15 = false := by
      rw [← getLsbD_of_extract s.fetchWord.1 16 16 31 (by decide) (by decide), hpair]
    obtain ⟨i, hd, _⟩ := (Decoding.everyHalfwordIsAnInstructionOrIllegal _).2 h15
    refine ⟨i, _, fetch_of_decode hf ?_⟩
    rw [slotOf_eq, if_pos h1, decodeSlot_second_short hpair, hd]

/-- The state after the fetch is the state but for what has been drawn and the count of steps: a fault taken there. -/
theorem faultTaken_of_fetch (s : State) (k : Nat) (e : Event) (p : Word) :
    FaultTaken s ((s.draw k).countStep.raiseAt e p) e p s.cndq ∧ SameHiLo s ((s.draw k).countStep.raiseAt e p) :=
  ⟨FaultTaken.of_raiseAt e p rfl rfl rfl rfl rfl ⟨rfl, rfl, rfl⟩ rfl, by simp [SameHiLo]⟩

/-- Settles O48: the first halfword is decoded before any specifier is looked at and before the window is told. -/
theorem illegalHalfwordFaults : Obligations.IllegalHalfwordFaults := by
  intro irq s hf h1 hpair h15
  have h15' : (s.fetchWord.1.extractLsb' 0 16).getLsbD 15 = true := by
    rw [← getLsbD_of_extract s.fetchWord.1 0 16 15 (by decide) (by decide), h15]
  have hd : decodeSlot (slotOf s.pc) s.fetchWord.1 = .error .illegalHalfword := by
    rw [slotOf_eq, if_neg (by rw [h1]; decide), decodeSlot_first_short hpair]
    exact (Decoding.everyHalfwordIsAnInstructionOrIllegal _).1 h15'
  have ⟨_, _, h0, _⟩ := hf
  have hnpc := npc_eq s h0
  rw [if_neg (by rw [hpair]; decide), if_neg (by rw [h1]; decide)] at hnpc
  obtain ⟨k, hk⟩ := State.fetchWord_snd s
  refine ⟨_, stepUnder_of_over ?_, faultTaken_of_fetch s k _ _⟩
  rw [State.fetch_of_fetches hf, State.decodeFetched, hd, hnpc, faultPcValue_eq, hk]

/-- Settles O49: past the two refusals a fetch from word 0 faults with `PC` left at the address. -/
theorem fetchFromWordZeroFaults : Obligations.FetchFromWordZeroFaults := by
  intro irq s hh hi h0 hw hslot
  have hinside : s.insideLong = false := by
    rw [State.insideLong]
    obtain h | h := hslot
    · rw [h, Bool.false_and]
    · rw [h, Bool.and_false]
  refine ⟨_, stepUnder_of_over ?_, faultTaken_of_fetch s 0 .nullReference s.pc⟩
  rw [fetch_of_running hh hi, State.fetchAtPc, State.countStep_pc, if_neg (by rw [h0]; decide),
    State.countStep_insideLong, if_neg (by rw [hinside]; decide), if_pos ⟨hw, rfl⟩]
  rfl

/-- Settles O51: the halt is the first thing that the fetch tests. -/
theorem haltIsAbsorbing : Obligations.HaltIsAbsorbing := by
  intro irq s h
  refine stepUnder_of_over ?_
  rw [State.fetch, if_pos h]

/-- A step that is no halt counts as one. -/
theorem steps_of_step {irq : Irq} {s t : State} (h : stepUnder irq s = .next t) (hh : s.halted = false) :
    t.steps = s.steps + 1 := by
  cases stepUnder_eq_next h with
  | halted h' => rw [hh] at h'; cases h'
  | interrupt => rfl
  | nullFetch => simp
  | illegal => simp
  | ran _ _ k npc i u he => simpa using (exec_eq_next he).steps

/-- Settles O50: the conjuncts of `interruptTaken`, and the count over the ways a step can go. -/
theorem interruptIsTakenAtTheBoundary : Obligations.InterruptIsTakenAtTheBoundary := by
  refine ⟨fun asserted s hh => ⟨fun hu hq ha => ?taken, fun hnot => ?refrains⟩,
    fun s => ⟨State.interruptTaken_none s, rfl⟩, fun _ _ _ => steps_of_step⟩
  case taken =>
    have hi : s.interruptTaken (some asserted) = true := by
      simp [State.interruptTaken, State.irqAsserted, hu, hq, ha]
    refine stepUnder_of_over ?_
    rw [State.fetch, if_neg (by rw [hh]; decide), if_pos hi]
    rfl
  case refrains =>
    obtain h | h | h := hnot <;> simp [State.interruptTaken, State.irqAsserted, h]

/-! ## The state in which an instruction runs -/

/-- `u` is the state in which the instruction fetched in `s` runs: `pc` is `npc`, the window has been told (R28, R237). -/
structure Begins (s u : State) : Prop where
  registers : SameRegistersBut s.cur .pc s u
  flags : SameFlags s u
  queue : u.cndq = s.cndq
  hiLo : SameHiLo s u
  control : SameControl s u
  mem : u.mem = s.mem
  div : u.div = s.div.map fun w => { w with n := w.n - 1 }

theorem begins_of_fetch {irq : Irq} {s u : State} {i : Instr} (h : s.fetch irq = .run i u) : Begins s u := by
  obtain ⟨_, _, k, p, rfl⟩ := State.fetch_eq_run h
  refine ⟨fun m r _ hn => ?registers, fun m => ?flags, by simp, by simp [SameHiLo], by simp [SameControl], by simp,
    by simp [State.tickBefore]⟩
  case registers =>
    rw [State.reg, State.tickBefore_regs, State.withPc]
    by_cases hm : m = s.cur
    · subst hm
      simp [RegSet.value_withPc _ _ _ fun hr => hn ⟨rfl, hr⟩, State.reg]
    · rw [State.withRegs_regs_ne _ _ (by simpa using hm)]
      simp [State.reg]
  case flags =>
    rw [State.flagsOf, State.tickBefore_regs]
    exact (State.withPc_flagsOf ..).trans (by simp)

theorem Begins.div_of_some {s u : State} (h : Begins s u) {w : DivWindow} (hw : s.div = some w) :
    u.div = some { w with n := w.n - 1 } := by
  rw [h.div, hw]
  rfl

/-! ## The end of the window -/

theorem tickAfter_of_none {s : State} (h : s.div = none) : s.tickAfter = s := by
  rw [State.tickAfter, h]

theorem tickAfter_of_pending {s : State} {w : DivWindow} (h : s.div = some w) (hn : w.n ≠ 0) : s.tickAfter = s := by
  simp only [State.tickAfter, h, if_neg hn]

theorem tickAfter_of_landing {s : State} {w : DivWindow} (h : s.div = some w) (hn : w.n = 0) :
    s.tickAfter = { s with lo := w.q, hi := w.r, hiLoOpen := false, div := none } := by
  simp only [State.tickAfter, h, if_pos hn]

/-- Settles O45: an action leaves a division in flight alone, so the tick before it counts and the tick after it lands. -/
theorem windowCountsInstructions : Obligations.WindowCountsInstructions := by
  intro irq s i u t w hf h hw
  have hu := (begins_of_fetch hf).div_of_some hw
  rw [stepUnder_of_run hf] at h
  obtain ⟨v, hv, rfl⟩ := Result.finish_eq_next h
  have hdiv : v.div = some { w with n := w.n - 1 } := by
    obtain hd | ⟨hnone, _⟩ := div_of_action (exec_eq_next hv)
    · rw [hd, State.popCondition_div, hu]
    · rw [State.popCondition_div, hu] at hnone; cases hnone
  constructor
  · intro hn
    rw [tickAfter_of_pending hdiv (show w.n - 1 ≠ 0 by omega), hdiv]
  · intro hn
    rw [tickAfter_of_landing hdiv (show w.n - 1 = 0 by omega)]
    exact ⟨rfl, rfl, rfl, rfl⟩

/-- Settles O46, by induction on the instructions that have passed. -/
theorem divisionLandsAfterElevenInstructions : Obligations.DivisionLandsAfterElevenInstructions := by
  intro irq f q r h0 hstep
  have hpending : ∀ k, k ≤ 10 → (f k).div = some ⟨q, r, 11 - k⟩ := by
    intro k
    induction k with
    | zero => exact fun _ => h0
    | succ k ih =>
      intro hk
      obtain ⟨⟨i, u, hf⟩, hs⟩ := hstep k (by omega)
      exact (windowCountsInstructions irq _ i u _ _ hf hs (ih (by omega))).1 (show 2 ≤ 11 - k by omega)
  obtain ⟨⟨i, u, hf⟩, hs⟩ := hstep 10 (by omega)
  exact ⟨hpending, (windowCountsInstructions irq _ i u _ _ hf hs (hpending 10 (by omega))).2 rfl⟩

/-! ## A condition that fails -/

/-- A fetched instruction that only takes its queue entry, and the end of the window: what is left as it was. -/
theorem frame_of_skipped {s u : State} (h : Begins s u) :
    u.popCondition.tickAfter.reg s.cur .pc = u.read .pc ∧ SameRegistersBut s.cur .pc s u.popCondition.tickAfter ∧
      SameFlags s u.popCondition.tickAfter ∧ QueueConsumed s u.popCondition.tickAfter ∧
      SameControl s u.popCondition.tickAfter ∧ SameMemory s u.popCondition.tickAfter := by
  obtain ⟨hcur, hhalted, houtputs⟩ := h.control
  have hreg (m : Mode) (r : Reg) : u.popCondition.tickAfter.reg m r = u.reg m r := by simp [State.reg]
  refine ⟨?_, fun m r hr hn => (hreg m r).trans (h.registers m r hr hn), fun m => ?_, ?_, ?_, fun a => ?_⟩
  · rw [hreg, State.read, hcur]
  · simpa [State.flagsOf] using h.flags m
  · simp [QueueConsumed, h.queue]
  · simp [SameControl, hcur, hhalted, houtputs]
  · simp [h.mem]

/-- Settles O16: nothing runs but the ticks of the window and the removal of the queue entry. -/
theorem failedConditionDoesNothing : Obligations.FailedConditionDoesNothing := by
  intro irq s i u hf hp
  have hb := begins_of_fetch hf
  obtain ⟨hpc, hregs, hflags, hqueue, hcontrol, hmem⟩ := frame_of_skipped hb
  refine ⟨exec_of_not_passes hp, _, stepUnder_of_not_passes hf hp, hpc, hregs, hflags, hqueue, hcontrol, hmem, ?none,
    ?pending, ?lands⟩
  case none =>
    intro hnone
    have hu : u.popCondition.div = none := by rw [State.popCondition_div, hb.div, hnone]; rfl
    rw [tickAfter_of_none hu]
    exact ⟨hu, hb.hiLo⟩
  case pending =>
    intro w hw hn
    have hu : u.popCondition.div = _ := hb.div_of_some hw
    rw [tickAfter_of_pending hu (show w.n - 1 ≠ 0 by omega)]
    exact ⟨hu, hb.hiLo⟩
  case lands =>
    intro w hw hn
    have hu : u.popCondition.div = _ := hb.div_of_some hw
    rw [tickAfter_of_landing hu (show w.n - 1 = 0 by omega)]
    exact ⟨rfl, rfl, rfl⟩

/-- Settles O19: by the instructions that the decoder and `exec` give for `0x0000`, and by `npc` before a skipped `NOP`. -/
theorem nopDoesNothing : Obligations.NopDoesNothing := by
  refine ⟨rfl, OpcodeMap.decodeShort_eq_nop_iff, exec_nop, fun irq s u w hf hw hn => ?counts,
    fun irq s i hf h1 hpair hskip hd => ?skipped⟩
  case counts =>
    have hu : u.popCondition.div = _ := (begins_of_fetch hf).div_of_some hw
    refine ⟨u.popCondition.tickAfter, by rw [stepUnder_of_run hf, exec_nop]; rfl, ?_⟩
    rw [tickAfter_of_pending hu (show w.n - 1 ≠ 0 by omega), hu]
  case skipped =>
    have hslot : slotOf s.pc = .first := by rw [slotOf_eq, if_neg (by rw [h1]; decide)]
    refine ⟨_, fetch_of_decode hf (hslot ▸ hd), ?_⟩
    have ⟨_, _, h0, _⟩ := hf
    have hnpc := npc_eq s h0
    rw [if_neg (by rw [hpair]; decide), if_neg (by rw [h1]; decide), if_pos hskip] at hnpc
    exact (read_pc_tickBefore_withPc ..).trans hnpc

/-- Settles O41: while the 11th instruction runs the window has 0 instructions to pass. -/
theorem multiplyAtTheEleventhIsRefused : Obligations.MultiplyAtTheEleventhIsRefused := by
  intro irq s i u w s1 s2 c hf hw hn hi
  have hu : u.popCondition.div = _ := (begins_of_fetch hf).div_of_some hw
  refine ⟨fun hp => ?refused, fun hp => ?lands⟩
  case refused =>
    have hmul (p : BitVec 64) : u.popCondition.multiply p = .refused .multiplyAt11thAfterDivide := by
      rw [State.multiply, if_pos (by rw [State.landingNow, hu]; simp [hn])]
    rw [stepUnder_of_run hf]
    obtain rfl | rfl := hi
    · rw [exec_mltu hp, hmul]; rfl
    · rw [exec_mlts hp, hmul]; rfl
  case lands =>
    refine ⟨_, stepUnder_of_not_passes hf hp, ?_⟩
    rw [tickAfter_of_landing hu (show w.n - 1 = 0 by omega)]
    exact ⟨rfl, rfl, rfl⟩

end Sys2Proof.Proofs.Fetching

/-! The ALU instructions (41_short_alu.md R150 to R161, 42_immediate.md R180 to R187): the exact results and flags of the
ALU functions, and the two ends of an ALU instruction, in `SR` and in another register. -/

namespace Sys2Proof.Proofs.Alu
open Sys2Proof Sys2Proof.Machine Sys2Proof.Config Sys2Proof.Proofs.Exec

/-! ## Addition and subtraction -/

/-- The signed overflow of an addition: the exact sum does not fit (R159). -/
theorem add32_eq (a b : Word) :
    add32 a b = ⟨a + b, some (decide (2 ^ 32 ≤ a.toNat + b.toNat),
      decide (a.toInt + b.toInt < -2 ^ 31 ∨ 2 ^ 31 ≤ a.toInt + b.toInt))⟩ := by
  have hover : ((a.msb == b.msb) && ((a + b).msb != a.msb)) =
      decide (a.toInt + b.toInt < -2 ^ 31 ∨ 2 ^ 31 ≤ a.toInt + b.toInt) := by
    have h := BitVec.saddOverflow_eq a b
    rw [BitVec.saddOverflow] at h
    rw [bne, ← h, Bool.decide_or, Bool.or_comm]
  rw [add32, hover]

/-- The borrow and the signed overflow of a subtraction (R159, `SUB_CARRY` = borrow). -/
theorem sub32_eq (a b : Word) :
    sub32 a b = ⟨a - b, some (decide (a.toNat < b.toNat),
      decide (a.toInt - b.toInt < -2 ^ 31 ∨ 2 ^ 31 ≤ a.toInt - b.toInt))⟩ := by
  have hover : ((a.msb != b.msb) && ((a - b).msb != a.msb)) =
      decide (a.toInt - b.toInt < -2 ^ 31 ∨ 2 ^ 31 ≤ a.toInt - b.toInt) := by
    have h := BitVec.ssubOverflow_eq a b
    rw [BitVec.ssubOverflow] at h
    rw [Bool.decide_or, Bool.or_comm]
    refine Eq.trans ?_ h.symm
    cases a.msb <;> cases b.msb <;> cases (a - b).msb <;> rfl
  rw [sub32, hover]
  rfl

/-- An ALU instruction into a register other than `SR` (R150). -/
theorem alu_done {s : State} {i : Instr} {d : Reg} {out : AluOut} (h : s.aluResult i = some (d, out)) (hd : d ≠ .sr)
    (hp : s.passes i) : ∃ t, exec i s = .next t ∧ AluDone s t d (s.freezes i) out.r out.cv := by
  rw [exec_alu h hp]
  exact AluDone.of_writeAlu s hd out _

/-- An immediate of 14 bits keeps its signed value (R180). -/
theorem toInt_signExtend_imm (i : BitVec 14) : (i.signExtend 32 : Word).toInt = i.toInt :=
  BitVec.toInt_signExtend_of_le (by decide)

/-- Settles O20: the exact result and flags of the two functions, the immediate sign-extended without loss. -/
theorem addAndSubtract : Obligations.AddAndSubtract := by
  intro s d hd
  refine ⟨fun s1 s2 hp => ?add, fun s1 s2 hp => ?sub, fun r i c hp => ?addi, fun r i c hp => ?subi⟩
  case add =>
    obtain ⟨t, ht, hdone⟩ := alu_done (i := .add d s1 s2) rfl hd hp
    rw [add32_eq] at hdone
    exact ⟨t, ht, hdone⟩
  case sub =>
    obtain ⟨t, ht, hdone⟩ := alu_done (i := .sub d s1 s2) rfl hd hp
    rw [sub32_eq] at hdone
    exact ⟨t, ht, hdone⟩
  case addi =>
    obtain ⟨t, ht, hdone⟩ := alu_done (i := .addi d r i c) rfl hd hp
    rw [add32_eq, toInt_signExtend_imm] at hdone
    exact ⟨t, ht, hdone⟩
  case subi =>
    obtain ⟨t, ht, hdone⟩ := alu_done (i := .subi d r i c) rfl hd hp
    rw [sub32_eq, toInt_signExtend_imm] at hdone
    exact ⟨t, ht, hdone⟩

/-! ## Shifts -/

theorem two_pow_dvd {n : Nat} (h : 32 ≤ n) : 2 ^ 32 ∣ 2 ^ n := pow_dvd_pow 2 h

/-- To the left: multiply by `2^n` (R160). -/
theorem shiftResult_left (k : ShiftKind) (a : Word) {n : Int} (h : 0 ≤ n) :
    (shiftResult k a n).toNat = a.toNat * 2 ^ n.toNat % 2 ^ 32 := by
  unfold shiftResult
  by_cases hl : 32 ≤ n
  · have hzero : Params.shiftLarge k a n = 0 := by
      cases k
      · rfl
      · exact if_neg (by omega)
    rw [if_pos (.inl hl), hzero, Nat.mod_eq_zero_of_dvd (Dvd.dvd.mul_left (two_pow_dvd (by omega)) _)]
    rfl
  · rw [if_neg (by omega), if_pos h, BitVec.toNat_shiftLeft, Nat.shiftLeft_eq]

/-- A logical shift to the right: divide the unsigned value by `2^-n` (R160). -/
theorem shiftResult_logical_right (a : Word) {n : Int} (h : n < 0) :
    (shiftResult .logical a n).toNat = a.toNat / 2 ^ (-n).toNat := by
  unfold shiftResult
  by_cases hl : n ≤ -32
  · rw [if_pos (.inr hl), Nat.div_eq_of_lt (a.isLt.trans_le (Nat.pow_le_pow_right (by decide) (by omega)))]
    rfl
  · rw [if_neg (by omega), if_neg (by omega)]
    exact (BitVec.toNat_ushiftRight ..).trans (Nat.shiftRight_eq_div_pow ..)

/-- A signed word divided by `2^32` or more, rounding down: its sign. -/
theorem toInt_ediv_two_pow (a : Word) {k : Nat} (h : 32 ≤ k) : a.toInt / 2 ^ k = if a.msb then -1 else 0 := by
  have hpow : (2 : Int) ^ 32 ≤ 2 ^ k := pow_le_pow_right₀ (by decide) h
  have hlo := BitVec.le_toInt a
  have hhi := BitVec.toInt_lt (x := a)
  rw [BitVec.msb_eq_toInt]
  split
  · next hneg =>
    have hneg := of_decide_eq_true hneg
    rw [Int.ediv_eq_iff_of_pos (by omega)]
    omega
  · next hpos =>
    have hpos : 0 ≤ a.toInt := by simpa using hpos
    exact Int.ediv_eq_zero_of_lt hpos (by omega)

/-- An arithmetic shift to the right: divide the signed value by `2^-n`, rounding down (R160). -/
theorem shiftResult_arithmetic_right (a : Word) {n : Int} (h : n < 0) :
    (shiftResult .arithmetic a n).toInt = a.toInt / 2 ^ (-n).toNat := by
  unfold shiftResult
  by_cases hl : n ≤ -32
  · rw [if_pos (.inr hl), Params.shiftLarge, if_pos h, toInt_ediv_two_pow a (by omega)]
    split <;> rfl
  · rw [if_neg (by omega), if_neg (by omega)]
    exact (BitVec.toInt_sshiftRight).trans (Int.shiftRight_eq_div_pow ..)

/-- Settles O21: the three results above, for the amount that the instruction reads. -/
theorem shifts : Obligations.Shifts := by
  intro s d hd
  refine ⟨fun s1 s2 hp => ?lsh, fun s1 s2 hp => ?ash, fun a i c hp => ?lshi, fun a i c hp => ?ashi⟩
  case lsh =>
    obtain ⟨t, ht, hdone⟩ := alu_done (i := .lsh d s1 s2) rfl hd hp
    exact ⟨t, _, ht, hdone, shiftResult_left .logical _, shiftResult_logical_right _⟩
  case ash =>
    obtain ⟨t, ht, hdone⟩ := alu_done (i := .ash d s1 s2) rfl hd hp
    exact ⟨t, _, ht, hdone, shiftResult_left .arithmetic _, shiftResult_arithmetic_right _⟩
  case lshi =>
    obtain ⟨t, ht, hdone⟩ := alu_done (i := .lshi d a i c) rfl hd hp
    rw [← toInt_signExtend_imm i]
    exact ⟨t, _, ht, hdone, shiftResult_left .logical _, shiftResult_logical_right _⟩
  case ashi =>
    obtain ⟨t, ht, hdone⟩ := alu_done (i := .ashi d a i c) rfl hd hp
    rw [← toInt_signExtend_imm i]
    exact ⟨t, _, ht, hdone, shiftResult_left .arithmetic _, shiftResult_arithmetic_right _⟩

/-! ## Bitwise logic -/

/-- Settles O22, function by function. -/
theorem bitwiseLogic : Obligations.BitwiseLogic := by
  intro s d hd
  refine ⟨fun s1 s2 hp => ?and, fun s1 s2 hp => ?or, fun s1 s2 hp => ?xor, fun a i c hp => ?andi, fun a i c hp => ?ori,
    fun a i c hp => ?xori⟩
  case and =>
    obtain ⟨t, ht, hdone⟩ := alu_done (i := .and d s1 s2) rfl hd hp
    exact ⟨t, _, ht, hdone, fun _ => BitVec.getLsbD_and⟩
  case or =>
    obtain ⟨t, ht, hdone⟩ := alu_done (i := .or d s1 s2) rfl hd hp
    exact ⟨t, _, ht, hdone, fun _ => BitVec.getLsbD_or⟩
  case xor =>
    obtain ⟨t, ht, hdone⟩ := alu_done (i := .xor d s1 s2) rfl hd hp
    exact ⟨t, _, ht, hdone, fun _ => BitVec.getLsbD_xor⟩
  case andi =>
    obtain ⟨t, ht, hdone⟩ := alu_done (i := .andi d a i c) rfl hd hp
    exact ⟨t, _, ht, hdone, fun _ => BitVec.getLsbD_and⟩
  case ori =>
    obtain ⟨t, ht, hdone⟩ := alu_done (i := .ori d a i c) rfl hd hp
    exact ⟨t, _, ht, hdone, fun _ => BitVec.getLsbD_or⟩
  case xori =>
    obtain ⟨t, ht, hdone⟩ := alu_done (i := .xori d a i c) rfl hd hp
    exact ⟨t, _, ht, hdone, fun _ => BitVec.getLsbD_xor⟩

/-! ## The destination `SR` -/

/-- The free flags of an unfrozen write of `SR` are none of those that `SrDone` speaks of (R135). -/
theorem srDone_setFreeFlags {s t : State} {v : Word} (h : SrDone s t v) : SrDone s (t.setFreeFlags s.cur) v where
  mode := by simpa using h.mode
  queue := by simpa using h.queue
  zd := by rw [State.setFreeFlags_flagsOf]; exact h.zd
  il := by rw [State.setFreeFlags_flagsOf]; exact h.il
  wfi := by rw [State.setFreeFlags_flagsOf]; exact h.wfi
  step := by rw [State.setFreeFlags_flagsOf]; exact h.step
  hwi := by rw [State.setFreeFlags_flagsOf, State.setFreeFlags_cur]; exact h.hwi
  nul := by rw [State.setFreeFlags_flagsOf]; exact h.nul
  otherFlags m hm := by rw [State.setFreeFlags_flagsOf_ne t hm]; exact h.otherFlags m hm
  registers m r hr := by rw [State.setFreeFlags_reg _ _ _ hr]; exact h.registers m r hr
  hiLo := by simpa [SameHiLo] using h.hiLo
  window := by simpa using h.window
  halted := by simpa using h.halted
  outputs := by simpa using h.outputs
  memory a := by simpa using h.memory a

/-- Settles O23: the write of `SR`, then the free flags unless frozen. -/
theorem aluWriteOfSr : Obligations.AluWriteOfSr := by
  intro s i out h hp h7 h8
  obtain ⟨t, ht, hdone, hflags⟩ := SrDone.of_write s 0 h7 h8
  have hw : s.popCondition.write .sr out.r = .next t := ht
  rw [exec_alu h hp, State.writeAlu, hw, Result.andThen_next]
  cases s.freezes i
  · exact ⟨_, rfl, srDone_setFreeFlags hdone, nofun⟩
  · exact ⟨t, rfl, hdone, fun _ => hflags⟩

end Sys2Proof.Proofs.Alu

/-! Moves and writes of `SR` (10_state.md R34, R35, 42_immediate.md R188, 44_misc.md R231, R238 to R242), the system call
and the return from a trap (60_exceptions.md R282, R292). -/

namespace Sys2Proof.Proofs.Moves
open Sys2Proof Sys2Proof.Machine Sys2Proof.Config Sys2Proof.Proofs.Exec

/-- Settles O24: the frame of a write of any register but `SR`. -/
theorem movesIntoRegisters : Obligations.MovesIntoRegisters := by
  intro s i d v h hd hp
  rw [exec_move h hp]
  exact MoveDone.of_write s 0 hd v

/-- Settles O25: the frame of a write of `SR` that is not refused. -/
theorem movesIntoSr : Obligations.MovesIntoSr := by
  intro s i v h hp h7 h8
  rw [exec_move h hp]
  exact SrDone.of_write s 0 h7 h8

/-! ## Refused writes of `SR` -/

/-- A value that would set `WFI` or `STEP` is refused (R35, R295). -/
theorem srWrite_refused (s : State) (m : Mode) {v : Word} (h : v.getLsbD 7 = true ∨ v.getLsbD 8 = true) :
    s.srWrite m v = .refused .wfiOrStepSet := by
  rw [State.srWrite, if_pos (by simpa [Params.srLayout] using h)]

/-- A write of some value to `SR` after `k` values were drawn: refused, or done (R35). -/
theorem write_sr_cases (s : State) (k : Nat) (v : Word) :
    ((v.getLsbD 7 = true ∨ v.getLsbD 8 = true) ∧ (s.popCondition.draw k).write .sr v = .refused .wfiOrStepSet) ∨
      (v.getLsbD 7 = false ∧ v.getLsbD 8 = false ∧
        ∃ t, (s.popCondition.draw k).write .sr v = .next t ∧ SrDone s t v ∧ ConditionFlagsFrom s t v) := by
  by_cases h : v.getLsbD 7 = true ∨ v.getLsbD 8 = true
  · exact .inl ⟨h, srWrite_refused _ _ h⟩
  · rw [not_or, Bool.not_eq_true, Bool.not_eq_true] at h
    exact .inr ⟨h.1, h.2, SrDone.of_write s k h.1 h.2⟩

/-- A read of `HI` or `LO` while they are unspecified moves some value (R242). -/
theorem exec_unspecified_hiLo {s : State} {d : Reg} {c : Specifier} {i : Instr} (ho : s.hiLoOpen = true)
    (hi : i = .mvhi d c ∨ i = .mvlo d c) (hp : s.passes i) :
    exec i s = (s.popCondition.draw 1).write d (Config.freeWord s.drawn) := by
  have hread (v : Word) : s.popCondition.readHiLo v = (Config.freeWord s.drawn, s.popCondition.draw 1) := by
    rw [State.readHiLo, State.popCondition_hiLoOpen, if_pos ho, State.popCondition_drawn]
  obtain rfl | rfl := hi
  · rw [exec_mvhi hp, hread]
  · rw [exec_mvlo hp, hread]

/-- Settles O27: the value read is drawn, then written as by any other move. -/
theorem unspecifiedHiLoCanBeRead : Obligations.UnspecifiedHiLoCanBeRead := by
  intro s d c i ho hi hp
  rw [exec_unspecified_hiLo ho hi hp]
  refine ⟨fun hd => ?register, fun hd => ?sr⟩
  case register =>
    obtain ⟨t, ht, hdone⟩ := MoveDone.of_write s 1 hd (Config.freeWord s.drawn)
    exact ⟨t, _, ht, hdone⟩
  case sr =>
    subst hd
    exact ⟨_, write_sr_cases s 1 _⟩

/-! ## Moves between the register sets -/

/-- Settles O28: the write of one register of the user set, or of its flags with no change of mode. -/
theorem moveToUserRegister : Obligations.MoveToUserRegister := by
  intro s d r c hc hp
  refine ⟨fun hd => ?register, fun hd h7 h8 => ?sr⟩
  case register =>
    have hreg (m : Mode) (r' : Reg) := State.reg_withRegs_store s.popCondition m .user (r := r') (s.read r) hd
    refine ⟨_, exec_mvus_reg hc hd hp, ?_, fun m r' _ hn => ?_, fun m => ?_, by simp [QueueConsumed], by simp [SameHiLo],
      by simp, by simp [SameControl], fun a => by simp⟩
    · rw [hreg]; simp
    · rw [hreg, if_neg hn]; simp
    · rw [State.flagsOf_withRegs_store]; simp
  case sr =>
    subst hd
    rw [exec_mvus_sr hc hp]
    obtain ⟨t, ht⟩ := State.srWrite_completes s.popCondition .user _ h7 h8
    refine ⟨t, ht, ?_⟩
    obtain ⟨_, _, ⟨_, rfl⟩ | ⟨hm, _, _⟩⟩ := State.srWrite_eq_next ht
    · refine ⟨?_, ?_, fun m r' hr => ?_, by simp [QueueConsumed], by simp [SameHiLo], by simp, by simp [SameControl],
        fun a => by simp⟩
      · rw [State.withFlags_flagsOf]; simp only [StatusFlags.unpack, Params.srLayout, h7, h8]
      · rw [State.withFlags_flagsOf_ne _ _ (by decide), State.popCondition_flagsOf]
      · rw [State.reg_withFlags _ _ _ _ hr, State.popCondition_reg]
    · rw [State.popCondition_cur, hc] at hm; cases hm

/-- Settles O29: the frame of a fault in user mode. -/
theorem crossMovesAreIllegalInUserMode : Obligations.CrossMovesAreIllegalInUserMode := fun s _ _ _ hu =>
  ⟨fun hp => ⟨_, exec_mvsu_user hu hp, FaultTaken.of_raise s .illegalOpcode⟩,
    fun hp => ⟨_, exec_mvus_user hu hp, FaultTaken.of_raise s .illegalOpcode⟩⟩

/-! ## Reading and switching `SR` -/

/-- Settles O30, bit by bit. -/
theorem srReadsItsFlags : Obligations.SrReadsItsFlags := by
  intro s m k hk
  refine (StatusFlags.getLsbD_pack (s.flagsOf m) m k hk).trans ?_
  rcases k with _ | _ | _ | _ | _ | _ | _ | _ | _ | _ | _ | k <;> rfl

/-- The word `0x10` is the `M` bit alone (R33). -/
theorem getLsbD_modeBit : ∀ k < 32, (0x10 : Word).getLsbD k = decide (k = 4) := by decide

/-- The stored flags are those of a value that differs from `SRread` in the `M` bit alone. -/
theorem unpack_of_bits {f : StatusFlags} {m : Mode} {v : Word}
    (h : ∀ k, k < 32 → k ≠ 4 → v.getLsbD k = (f.pack m).getLsbD k) : StatusFlags.unpack v = f := by
  have hpack := StatusFlags.unpack_pack f m
  simp only [StatusFlags.unpack, Params.srLayout] at hpack ⊢
  rw [h 0 (by decide) (by decide), h 1 (by decide) (by decide), h 2 (by decide) (by decide), h 3 (by decide) (by decide),
    h 5 (by decide) (by decide), h 6 (by decide) (by decide), h 7 (by decide) (by decide), h 8 (by decide) (by decide),
    h 9 (by decide) (by decide), h 10 (by decide) (by decide)]
  exact hpack

/-- Writing `SR` as it reads but for the `M` bit switches the mode and changes no flag of the old one (R281). -/
theorem srWrite_modeBit {s : State} {v : Word} {new : Mode} (hwfi : (s.flagsOf s.cur).wfi = false)
    (hstep : (s.flagsOf s.cur).step = false)
    (hbits : ∀ k, k < 32 → k ≠ 4 → v.getLsbD k = ((s.flagsOf s.cur).pack s.cur).getLsbD k)
    (hnew : modeOfBit (v.getLsbD 4) = new) (hne : new ≠ s.cur) : s.srWrite s.cur v = .next (s.switchMode new) := by
  have h7 : v.getLsbD 7 = false :=
    (hbits 7 (by decide) (by decide)).trans ((StatusFlags.getLsbD_pack _ _ 7 (by decide)).trans hwfi)
  have h8 : v.getLsbD 8 = false :=
    (hbits 8 (by decide) (by decide)).trans ((StatusFlags.getLsbD_pack _ _ 8 (by decide)).trans hstep)
  have hsame : s.withFlags s.cur (StatusFlags.unpack v) = s := by
    rw [unpack_of_bits hbits]
    exact State.withRegs_self s s.cur
  rw [State.srWrite, if_neg (by
    rw [show Params.srLayout.wfi = 7 from rfl, show Params.srLayout.step = 8 from rfl, h7, h8]; decide), hsame]
  simp only [show Params.srLayout.m = 4 from rfl, hnew]
  rw [if_pos ⟨trivial, hne⟩]

theorem writeAlu_frozen (s : State) (d : Reg) (out : AluOut) : s.writeAlu d out true = s.write d out.r := by
  unfold State.writeAlu
  cases s.write d out.r <;> rfl

/-- A frozen ALU instruction on `SR` is the write of its result (R134). -/
theorem exec_frozen_sr {s : State} {i : Instr} {out : AluOut} (h : s.aluResult i = some (.sr, out)) (hp : s.passes i)
    (hf : s.freezes i = true) : exec i s = s.popCondition.srWrite s.popCondition.cur out.r := by
  rw [exec_alu h hp, hf, writeAlu_frozen, State.write_sr]

/-- Settles O47: both instructions write `SR` back with its `M` bit changed. -/
theorem systemCallAndReturn : Obligations.SystemCallAndReturn := by
  intro s hwfi hstep
  have himm : (0x10 : BitVec 14).signExtend 32 = (0x10 : Word) := by decide
  have hread (k : Nat) : (s.read .sr).getLsbD k = ((s.flagsOf s.cur).pack s.cur).getLsbD k := rfl
  have hm : (s.read .sr).getLsbD 4 = decide (s.cur = .user) := StatusFlags.getLsbD_pack _ _ 4 (by decide)
  have hbit4 : (0x10 : Word).getLsbD 4 = true := by decide
  refine ⟨fun hc => ⟨s.popCondition.switchMode .supervisor, ?call, ?_⟩, fun hc => ⟨s.popCondition.switchMode .user, ?ret, ?_⟩⟩
  case call =>
    refine (exec_frozen_sr (i := .xori .sr .sr 0x10 ⟨true, .always⟩)
      (out := xor32 (s.read .sr) ((0x10 : BitVec 14).signExtend 32)) rfl rfl rfl).trans ?_
    rw [himm]
    refine srWrite_modeBit (by simpa using hwfi) (by simpa using hstep) (fun k hk hk4 => ?_) ?_ (by simp [hc])
    · rw [xor32, BitVec.getLsbD_xor, getLsbD_modeBit k hk, decide_eq_false hk4, Bool.xor_false, hread]; simp
    · rw [xor32, BitVec.getLsbD_xor, hm, hc, hbit4]; rfl
  case ret =>
    refine (exec_frozen_sr (i := .ori .sr .sr 0x10 ⟨true, .always⟩)
      (out := or32 (s.read .sr) ((0x10 : BitVec 14).signExtend 32)) rfl rfl rfl).trans ?_
    rw [himm]
    refine srWrite_modeBit (by simpa using hwfi) (by simpa using hstep) (fun k hk hk4 => ?_) ?_ (by simp [hc])
    · rw [or32, BitVec.getLsbD_or, getLsbD_modeBit k hk, decide_eq_false hk4, Bool.or_false, hread]; simp
    · rw [or32, BitVec.getLsbD_or, hbit4, Bool.or_true]; rfl
  all_goals exact ⟨rfl, rfl, rfl, rfl, ⟨rfl, rfl, rfl⟩, rfl, rfl, rfl, fun _ => rfl⟩

end Sys2Proof.Proofs.Moves

/-! Loads and stores (20_memory.md R61 to R76, 43_load_store.md R200 to R209): what the access comes to by the region of its
address, then each statement. -/

namespace Sys2Proof.Proofs.Access
open Sys2Proof Sys2Proof.Machine Sys2Proof.Config Sys2Proof.Proofs.Exec Sys2Proof.Proofs.Moves

/-! ## The address of an access -/

/-- The width of an access (R67). -/
theorem width_of_access {i : Instr} {a : Reg} {imm : BitVec 15} {n : Nat} (h : accessOf i = some (a, imm, n)) :
    n = 1 ∨ n = 2 ∨ n = 4 := by
  cases i <;> cases h
  case lw | sw => exact .inr (.inr rfl)
  case lhu | lhs | sh => exact .inr (.inl rfl)
  case lbu | lbs | sb => exact .inl rfl

/-- An access is a load or a store (R200). -/
theorem load_or_store {i : Instr} {x : Reg × BitVec 15 × Nat} (h : accessOf i = some x) :
    (∃ d f, loadOf i = some (d, f)) ∨ ∃ d, storeOf i = some d := by
  cases i <;> cases h
  case lw | lhu | lhs | lbu | lbs => exact .inl ⟨_, _, rfl⟩
  case sw | sh | sb => exact .inr ⟨_, rfl⟩

theorem accessAddress_of_aligned {ea : Word} {n : Nat} (h : ea.toNat % n = 0) : accessAddress ea n = some ea := by
  rw [accessAddress, if_pos h]

theorem accessAddress_of_misaligned {ea : Word} {n : Nat} (h : ea.toNat % n ≠ 0) : accessAddress ea n = none := by
  rw [accessAddress, if_neg h, Params.misaligned]

theorem effectiveAddress_popCondition (s : State) (a : Reg) (imm : BitVec 15) :
    s.popCondition.effectiveAddress a imm = s.effectiveAddress a imm := by
  rw [State.effectiveAddress, State.effectiveAddress, State.popCondition_read]

/-- The effective address (R69). -/
theorem effectiveAddress_eq (s : State) (a : Reg) (imm : BitVec 15) :
    s.effectiveAddress a imm = s.read a + imm.signExtend 32 := rfl

theorem ne_zero_of_toNat_pos {ea : Word} (h : 0 < ea.toNat) : ea ≠ 0 := by
  rintro rfl
  exact absurd h (by decide)

/-- Where an aligned access stays below `0xF0000000` as its address does. -/
theorem aligned_end_le {n e b : Nat} (hn : n = 1 ∨ n = 2 ∨ n = 4) (hal : e % n = 0) (hb : b % 4 = 0) (he : e < b) :
    e + n ≤ b := by
  obtain rfl | rfl | rfl := hn <;> omega

/-- A load of an aligned address that is not null (R200). -/
theorem loadInto_of_aligned {s : State} {d a : Reg} {imm : BitVec 15} {n : Nat} {f : Word → Word}
    (hal : (s.effectiveAddress a imm).toNat % n = 0) (h0 : 0 < (s.effectiveAddress a imm).toNat) :
    s.popCondition.loadInto d a imm n f =
      (s.popCondition.readBytes (s.effectiveAddress a imm) n).2.write d
        (f (s.popCondition.readBytes (s.effectiveAddress a imm) n).1) := by
  rw [State.loadInto, effectiveAddress_popCondition, accessAddress_of_aligned hal]
  simp only [if_neg (ne_zero_of_toNat_pos h0)]

/-- A store to an aligned address that is not null (R200). -/
theorem storeFrom_of_aligned {s : State} {d a : Reg} {imm : BitVec 15} {n : Nat}
    (hal : (s.effectiveAddress a imm).toNat % n = 0) (h0 : 0 < (s.effectiveAddress a imm).toNat) :
    s.popCondition.storeFrom d a imm n = s.popCondition.store (s.effectiveAddress a imm) n (s.read d) := by
  rw [State.storeFrom, effectiveAddress_popCondition, accessAddress_of_aligned hal, State.popCondition_read]
  simp only [if_neg (ne_zero_of_toNat_pos h0)]

/-! ## Loads -/

/-- A load extends no more of the bytes read than its width (R205 to R208). -/
theorem load_extends {i : Instr} {a d : Reg} {imm : BitVec 15} {n : Nat} {f : Word → Word}
    (ha : accessOf i = some (a, imm, n)) (hl : loadOf i = some (d, f)) {s : State} {ea : Word} (h0 : 0 < ea.toNat)
    (h1 : ea.toNat + n ≤ 0xF0000000) : (s.readBytes ea n).2 = s ∧ f (s.readBytes ea n).1 = f (s.bytesFrom ea) := by
  have h16 (v : Word) : ((v.setWidth 16).setWidth 32).setWidth 16 = v.setWidth 16 :=
    BitVec.setWidth_setWidth_of_le _ (by decide)
  have h8 (v : Word) : ((v.setWidth 8).setWidth 32).setWidth 8 = v.setWidth 8 :=
    BitVec.setWidth_setWidth_of_le _ (by decide)
  cases i <;> cases hl <;> cases ha
  case lw => rw [State.readBytes_four s ea h0 h1]; exact ⟨rfl, rfl⟩
  case lhu | lhs => rw [State.readBytes_two s ea h0 h1]; exact ⟨rfl, by simp only [h16]⟩
  case lbu | lbs => rw [State.readBytes_one s ea h0 h1]; exact ⟨rfl, by simp only [h8]⟩

/-- A load from RAM or ROM moves the bytes there, extended (R201, R205 to R208). -/
theorem exec_load_backed {s : State} {i : Instr} {a d : Reg} {imm : BitVec 15} {n : Nat} {f : Word → Word}
    (ha : accessOf i = some (a, imm, n)) (hl : loadOf i = some (d, f)) (hp : s.passes i)
    (hal : (s.effectiveAddress a imm).toNat % n = 0) (h0 : 0 < (s.effectiveAddress a imm).toNat)
    (h1 : (s.effectiveAddress a imm).toNat < 0xF0000000) :
    exec i s = (s.popCondition.draw 0).write d (f (s.bytesFrom (s.effectiveAddress a imm))) := by
  have hend := aligned_end_le (width_of_access ha) hal (by decide) h1
  obtain ⟨hstate, hvalue⟩ := load_extends ha hl (s := s.popCondition) h0 hend
  rw [exec_load ha hl hp, loadInto_of_aligned hal h0, hstate, hvalue]
  rfl

/-- A load from any aligned address moves some value, after at most one was drawn (R72, R76). -/
theorem exec_load_some {s : State} {i : Instr} {a d : Reg} {imm : BitVec 15} {n : Nat} {f : Word → Word}
    (ha : accessOf i = some (a, imm, n)) (hl : loadOf i = some (d, f)) (hp : s.passes i)
    (hal : (s.effectiveAddress a imm).toNat % n = 0) (h0 : 0 < (s.effectiveAddress a imm).toNat) :
    ∃ k v, exec i s = (s.popCondition.draw k).write d (f v) := by
  rw [exec_load ha hl hp, loadInto_of_aligned hal h0]
  obtain ⟨_, hr⟩ | ⟨_, hr⟩ := State.readBytes_cases s.popCondition (s.effectiveAddress a imm) n
  · rw [hr]; exact ⟨0, _, rfl⟩
  · rw [hr]; exact ⟨1, _, rfl⟩

/-- Settles O31: the access reads the bytes there, then writes a register as a move does. -/
theorem loadsFromMemory : Obligations.LoadsFromMemory := by
  intro s i a d imm n f ha hl hd hp hal h0 h1
  rw [exec_load_backed ha hl hp hal h0 h1]
  exact ⟨effectiveAddress_eq .., MoveDone.of_write s 0 hd _⟩

/-- Settles O32: the access reads the bytes there, then writes `SR` as a move does. -/
theorem loadsIntoSr : Obligations.LoadsIntoSr := by
  intro s i a imm n f v ha hl hp hal h0 h1 hv h7 h8
  rw [exec_load_backed ha hl hp hal h0 h1, ← hv]
  exact ⟨effectiveAddress_eq .., SrDone.of_write s 0 h7 h8⟩

/-- Settles O33: the access draws a value, then writes the register as a move does. -/
theorem loadsFromPortsAndUnmapped : Obligations.LoadsFromPortsAndUnmapped := by
  intro s i a d imm n f ha hl hp hal h1
  obtain ⟨k, v, hv⟩ := exec_load_some ha hl hp hal (by omega)
  rw [hv]
  refine ⟨effectiveAddress_eq .., fun hd => ?register, fun hd => ?sr⟩
  case register =>
    obtain ⟨t, ht, hdone⟩ := MoveDone.of_write s k hd (f v)
    exact ⟨t, v, ht, hdone⟩
  case sr =>
    subst hd
    exact ⟨v, write_sr_cases s k (f v)⟩

/-- Settles O26: each of the four sources ends in the one write of `SR` that refuses. -/
theorem settingWfiOrStepIsRefused : Obligations.SettingWfiOrStepIsRefused := by
  intro s i v hp hv hsource
  obtain ⟨out, h, rfl⟩ | h | ⟨hc, r, c, rfl, rfl⟩ | ⟨a, imm, n, f, ha, hl, hal, h0, h1, rfl⟩ := hsource
  · rw [exec_alu h hp, State.writeAlu, State.write_sr, srWrite_refused _ _ hv, Result.andThen_refused]
  · rw [exec_move h hp, State.write_sr, srWrite_refused _ _ hv]
  · rw [exec_mvus_sr hc hp, srWrite_refused _ _ hv]
  · rw [exec_load_backed ha hl hp hal h0 h1, State.write_sr, srWrite_refused _ _ hv]

/-! ## Stores -/

/-- A store leaves everything but memory and the outputs alone (R200). -/
theorem storeFrame_of {s t : State} (hsup : t.sup = s.sup) (husr : t.usr = s.usr) (hcur : t.cur = s.cur)
    (hqueue : t.cndq = s.cndq.tail) (hhiLo : SameHiLo s t) (hdiv : t.div = s.div) (hhalted : t.halted = s.halted) :
    StoreFrame s t where
  registers m r _ := by cases m <;> simp [State.reg, State.regs, hsup, husr]
  flags m := by cases m <;> simp [State.flagsOf, State.regs, hsup, husr]
  queue := hqueue
  hiLo := hhiLo
  window := hdiv
  mode := hcur
  halted := hhalted

/-- Settles O34: the bytes written are read back from the memory written. -/
theorem storesToRam : Obligations.StoresToRam := by
  intro s i a d imm n ha hs hp hal h0 h1
  have hwidth := width_of_access ha
  have hend := aligned_end_le hwidth hal (by decide) h1
  have hexec : exec i s = .next { s.popCondition with
      mem := Memory.write s.mem (s.effectiveAddress a imm) (s.read d) n } := by
    rw [exec_store ha hs hp, storeFrom_of_aligned hal (by omega), State.store_ram _ _ _ _ (by omega) h0 hend]
    rfl
  exact ⟨effectiveAddress_eq .., _, hexec, fun k hk => Memory.lookup_write_self s.mem _ _ n k hk (by omega),
    fun b hb => Memory.lookup_write_of_ne s.mem _ _ n b hb, storeFrame_of rfl rfl rfl rfl ⟨rfl, rfl, rfl⟩ rfl rfl, rfl⟩

/-- Settles O35: of a port only the outputs take the byte. -/
theorem byteStoreToPort : Obligations.ByteStoreToPort := by
  intro s a d imm c p hp haddr
  obtain ⟨hport, h0⟩ : Params.memmap (s.effectiveAddress a imm) = .port p ∧ 0 < (s.effectiveAddress a imm).toNat := by
    obtain ⟨h, rfl⟩ | ⟨h, rfl⟩ | ⟨h, rfl⟩ := haddr <;> rw [h] <;> decide
  have hexec : exec (.sb d a imm c) s = .next { s.popCondition with
      outputs := s.outputs ++ [⟨p, (s.read d).extractLsb' 0 8⟩] } := by
    rw [exec_store (i := .sb d a imm c) rfl rfl hp, storeFrom_of_aligned (Nat.mod_one _) h0, State.store_port _ _ _ _ hport]
    rfl
  exact ⟨effectiveAddress_eq .., _, hexec, rfl, fun _ => rfl, storeFrame_of rfl rfl rfl rfl ⟨rfl, rfl, rfl⟩ rfl rfl⟩

/-- Settles O36: by what the addresses hold. -/
theorem storesThatStop : Obligations.StoresThatStop := by
  intro s i a d imm n ha hs hp hal h0
  have hwidth := width_of_access ha
  have hn : 0 < n := by omega
  rw [exec_store ha hs hp, storeFrom_of_aligned hal h0]
  refine ⟨effectiveAddress_eq .., fun hrom => ?rom, fun h2 hport => ?port, fun hlo hhi => ?nothing⟩
  case rom => exact State.store_rom _ _ _ _ hn h0 (aligned_end_le hwidth hal (by decide) hrom)
  case port =>
    have hend := aligned_end_le hwidth hal (b := 2 ^ 32) (by decide) (s.effectiveAddress a imm).isLt
    exact State.store_wide_port _ _ _ _ h2 hport hend
  case nothing => exact State.store_nothing _ _ _ _ hn hlo hhi

/-! ## Null and misaligned addresses -/

/-- Settles O37: the null address is tested before the access, in a load as in a store. -/
theorem nullReferenceFaults : Obligations.NullReferenceFaults := by
  intro s i a imm n ha hp h0
  have haddr : accessAddress (0 : Word) n = some 0 := accessAddress_of_aligned (Nat.zero_mod n)
  refine ⟨effectiveAddress_eq .., _, ?_, FaultTaken.of_raise s .nullReference⟩
  obtain ⟨d, f, hl⟩ | ⟨d, hs⟩ := load_or_store ha
  · rw [exec_load ha hl hp, State.loadInto, effectiveAddress_popCondition, h0, haddr]; rfl
  · rw [exec_store ha hs hp, State.storeFrom, effectiveAddress_popCondition, h0, haddr]; rfl

theorem write_ne_misaligned (s : State) (d : Reg) (v : Word) : s.write d v ≠ .refused .misaligned := by
  intro h
  by_cases hd : d = .sr
  · subst hd
    rw [State.write_sr] at h
    by_cases hv : v.getLsbD 7 = true ∨ v.getLsbD 8 = true
    · rw [srWrite_refused s _ hv] at h; cases h
    · rw [not_or, Bool.not_eq_true, Bool.not_eq_true] at hv
      obtain ⟨t, ht⟩ := State.srWrite_completes s s.cur v hv.1 hv.2
      rw [ht] at h; cases h
  · rw [State.write_of_ne_sr s v hd] at h; cases h

theorem store_ne_misaligned (s : State) (ea : Word) (n : Nat) (v : Word) : s.store ea n v ≠ .refused .misaligned := by
  intro h
  unfold State.store at h
  split at h
  · cases h
  · split_ifs at h <;> cases h

/-- Only the test of the alignment refuses an access as misaligned (R65). -/
theorem access_misaligned_iff {s : State} {i : Instr} {a : Reg} {imm : BitVec 15} {n : Nat}
    (ha : accessOf i = some (a, imm, n)) (hp : s.passes i) :
    exec i s = .refused .misaligned ↔ (s.effectiveAddress a imm).toNat % n ≠ 0 := by
  constructor
  · intro h hal
    obtain ⟨d, f, hl⟩ | ⟨d, hs⟩ := load_or_store ha
    · rw [exec_load ha hl hp, State.loadInto, effectiveAddress_popCondition, accessAddress_of_aligned hal] at h
      simp only at h
      split at h
      · cases h
      · exact write_ne_misaligned _ _ _ h
    · rw [exec_store ha hs hp, State.storeFrom, effectiveAddress_popCondition, accessAddress_of_aligned hal] at h
      simp only at h
      split at h
      · cases h
      · exact store_ne_misaligned _ _ _ _ h
  · intro hal
    obtain ⟨d, f, hl⟩ | ⟨d, hs⟩ := load_or_store ha
    · rw [exec_load ha hl hp, State.loadInto, effectiveAddress_popCondition, accessAddress_of_misaligned hal]
    · rw [exec_store ha hs hp, State.storeFrom, effectiveAddress_popCondition, accessAddress_of_misaligned hal]

/-- Settles O38: the alignment test of the access, and no other refusal has that name. -/
theorem misalignedAccessIsRefused : Obligations.MisalignedAccessIsRefused := by
  intro s i a imm n ha
  refine ⟨effectiveAddress_eq .., ?_⟩
  by_cases hp : s.passes i
  · rw [access_misaligned_iff ha hp, and_iff_right hp]
  · rw [exec_of_not_passes hp]
    exact iff_of_false nofun fun h => hp h.1

/-! ## Reading back a word -/

/-- A byte of a word just written (R61, R62). -/
theorem byteAt_write (s : State) (ea v : Word) {k : Nat} (hk : k < 4) :
    ({ s with mem := Memory.write s.mem ea v 4 } : State).byteAt (ea + BitVec.ofNat 32 k) = v.extractLsb' (8 * k) 8 := by
  rw [State.byteAt, Memory.lookup_write_self s.mem ea v 4 k hk (by decide)]
  rfl

/-- Addresses further on. -/
theorem add_ofNat_add (ea : Word) (k j : Nat) : ea + BitVec.ofNat 32 k + BitVec.ofNat 32 j = ea + BitVec.ofNat 32 (k + j) := by
  rw [BitVec.add_assoc, BitVec.ofNat_add]

theorem toNat_add_ofNat {ea : Word} {k : Nat} (h : ea.toNat + k < 2 ^ 32) : (ea + BitVec.ofNat 32 k).toNat = ea.toNat + k := by
  rw [BitVec.toNat_add, BitVec.toNat_ofNat, Nat.add_mod_mod, Nat.mod_eq_of_lt h]

/-- The two lower bytes of four (R61). -/
theorem setWidth16_bytesFrom (s : State) (a : Word) :
    (s.bytesFrom a).setWidth 16 = s.byteAt (a + BitVec.ofNat 32 1) ++ s.byteAt a := by
  rw [BitVec.setWidth_eq_extractLsb' (by decide), State.bytesFrom, BitVec.append_assoc, BitVec.extractLsb'_cast]
  exact BitVec.extractLsb'_append_eq_right

theorem setWidth8_bytesFrom (s : State) (a : Word) : (s.bytesFrom a).setWidth 8 = s.byteAt a := by
  rw [BitVec.setWidth_eq_extractLsb' (by decide)]
  exact BitVec.extractLsb'_append_eq_right

/-- Settles O39: the bytes written are those of the word, and adjacent bytes of a word are a halfword of it. -/
theorem narrowReadsSeeTheWordWritten : Obligations.NarrowReadsSeeTheWordWritten := by
  intro s t ea v h0 h1 ht
  have hbyte {k : Nat} (hk : k < 4) : t.byteAt (ea + BitVec.ofNat 32 k) = v.extractLsb' (8 * k) 8 := by
    rw [ht]
    exact byteAt_write s ea v hk
  refine ⟨?word, fun k hk => ?half, fun k hk => ?byte⟩
  case word =>
    rw [State.readBytes_four t ea (by omega) h1]
    have e0 : t.byteAt ea = v.extractLsb' 0 8 := by simpa using hbyte (k := 0) (by decide)
    have e1 : t.byteAt (ea + 1) = v.extractLsb' 8 8 := hbyte (k := 1) (by decide)
    have e2 : t.byteAt (ea + 2) = v.extractLsb' 16 8 := hbyte (k := 2) (by decide)
    have e3 : t.byteAt (ea + 3) = v.extractLsb' 24 8 := hbyte (k := 3) (by decide)
    show t.bytesFrom ea = v
    rw [State.bytesFrom, e0, e1, e2, e3, OpcodeMap.append_fields v 16 8 24 8 rfl, OpcodeMap.append_fields v 8 8 16 _ rfl,
      OpcodeMap.append_fields v 0 8 8 _ rfl]
    exact BitVec.extractLsb'_eq_self
  case half =>
    have hea : (ea + BitVec.ofNat 32 k).toNat = ea.toNat + k := toNat_add_ofNat (by omega)
    rw [State.readBytes_two t _ (by omega) (by omega), setWidth16_bytesFrom, add_ofNat_add, hbyte (by omega),
      hbyte (by omega), OpcodeMap.append_fields v (8 * k) 8 (8 * (k + 1)) 8 (by omega)]
  case byte =>
    have hea : (ea + BitVec.ofNat 32 k).toNat = ea.toNat + k := toNat_add_ofNat (by omega)
    rw [State.readBytes_one t _ (by omega) (by omega), setWidth8_bytesFrom, hbyte (by omega)]

end Sys2Proof.Proofs.Access

/-! Multiplication and division (44_misc.md R233 to R237): the exact product, the quotient and the remainder, and what the
two leave unchanged. -/

namespace Sys2Proof.Proofs.Arithmetic
open Sys2Proof Sys2Proof.Machine Sys2Proof.Proofs.Exec

/-- `HI`, `LO`, the window and the queue apart, nothing changes (R233 to R236). -/
theorem hiLoFrame_of {s t : State} (hsup : t.sup = s.sup) (husr : t.usr = s.usr) (hqueue : t.cndq = s.cndq.tail)
    (hcontrol : SameControl s t) (hmem : t.mem = s.mem) : HiLoFrame s t where
  registers m r _ := by cases m <;> simp [State.reg, State.regs, hsup, husr]
  flags m := by cases m <;> simp [State.flagsOf, State.regs, hsup, husr]
  queue := hqueue
  control := hcontrol
  memory a := by rw [hmem]

/-! ## Multiplication -/

/-- A multiplication that is not the 11th instruction after a divide (R233, R234). -/
theorem multiply_of_not_landing {s : State} (h : s.landingNow = false) (p : BitVec 64) :
    s.popCondition.multiply p =
      .next { s.popCondition with hi := p.extractLsb' 32 32, lo := p.extractLsb' 0 32, hiLoOpen := false } := by
  have h' : s.popCondition.landingNow = false := h
  rw [State.multiply, if_neg (by rw [h']; decide)]

/-- The unsigned product fits 64 bits (R233). -/
theorem productU_halves (a b : Word) :
    ((productU a b).extractLsb' 32 32).toNat * 2 ^ 32 + ((productU a b).extractLsb' 0 32).toNat = a.toNat * b.toNat := by
  have hlt : a.toNat * b.toNat < 2 ^ 64 :=
    (Nat.mul_lt_mul'' a.isLt b.isLt).trans_eq (by decide)
  have hp : (productU a b).toNat = a.toNat * b.toNat := by rw [productU, BitVec.toNat_ofNat, Nat.mod_eq_of_lt hlt]
  rw [BitVec.extractLsb'_toNat, BitVec.extractLsb'_toNat, hp, Nat.shiftRight_eq_div_pow, Nat.shiftRight_zero]
  generalize a.toNat * b.toNat = p at hlt
  omega

/-- The signed product fits 64 bits (R234). -/
theorem productS_toInt (a b : Word) : (productS a b).toInt = a.toInt * b.toInt := by
  have ha := BitVec.le_toInt a
  have ha' := BitVec.toInt_lt (x := a)
  have hb := BitVec.le_toInt b
  have hb' := BitVec.toInt_lt (x := b)
  have hmul : |a.toInt * b.toInt| ≤ 2 ^ 31 * 2 ^ 31 := by
    rw [abs_mul]
    exact mul_le_mul (abs_le.2 ⟨ha, ha'.le⟩) (abs_le.2 ⟨hb, hb'.le⟩) (abs_nonneg _) (by decide)
  obtain ⟨hlo, hhi⟩ := abs_le.1 hmul
  exact BitVec.toInt_ofInt_eq_self (by decide) (by omega) (by omega)

/-- Settles O40: the two halves of the product are the product. -/
theorem multiplication : Obligations.Multiplication := by
  intro s s1 s2 c hl
  refine ⟨fun hp => ?unsigned, fun hp => ?signed⟩
  case unsigned =>
    rw [exec_mltu hp, multiply_of_not_landing hl]
    exact ⟨_, rfl, productU_halves .., rfl, rfl, hiLoFrame_of rfl rfl rfl ⟨rfl, rfl, rfl⟩ rfl⟩
  case signed =>
    rw [exec_mlts hp, multiply_of_not_landing hl]
    refine ⟨_, rfl, ?_, rfl, rfl, hiLoFrame_of rfl rfl rfl ⟨rfl, rfl, rfl⟩ rfl⟩
    rw [← productS_toInt]
    exact congrArg BitVec.toInt (BitVec.extractLsb'_append_extractLsb' (w := 32) (len := 32))

/-! ## Division -/

/-- Settles O44: the division in flight is tested before the divisor. -/
theorem divideWhilePendingIsRefused : Obligations.DivideWhilePendingIsRefused := by
  intro s i s1 s2 c hi hd hp
  have hrefused (b : Word) (qr : Option (Word × Word)) :
      s.popCondition.divide b qr = .refused .divideWhileDividePending := by
    unfold State.divide
    rw [State.popCondition_div, if_pos (Option.isSome_iff_ne_none.2 hd)]
  obtain rfl | rfl := hi
  · rw [exec_divu hp, hrefused]
  · rw [exec_divs hp, hrefused]

/-- A division with none pending by a divisor that is not zero (R235, R236). -/
theorem divide_of_idle {s : State} {b : Word} (hd : s.div = none) (hb : b ≠ 0) (qr : Option (Word × Word)) :
    s.popCondition.divide b qr = .next { s.popCondition.openHiLo with div := qr.map fun x => ⟨x.1, x.2, 11⟩ } := by
  unfold State.divide
  rw [State.popCondition_div, hd, if_neg (by decide), if_neg hb]
  cases qr with
  | none => exact congrArg Host.Outcome.next (show s.popCondition.openHiLo = { s.popCondition.openHiLo with div := none } by
      rw [← hd]; rfl)
  | some x => rfl

theorem toInt_ne_zero {b : Word} (hb : b ≠ 0) : b.toInt ≠ 0 := fun h => hb (BitVec.eq_of_toInt_eq h)

/-- The unsigned quotient and remainder are words (R235). -/
theorem quotientU_toNat (a b : Word) : ∃ q r, quotientU a b = some (q, r) ∧ q.toNat = a.toNat / b.toNat ∧
    r.toNat = a.toNat % b.toNat := by
  have hq : a.toNat / b.toNat < 2 ^ 32 := (Nat.div_le_self ..).trans_lt a.isLt
  have hr : a.toNat - a.toNat / b.toNat * b.toNat = a.toNat % b.toNat := by
    rw [Nat.mul_comm, ← Nat.mod_eq_sub_mul_div]
  refine ⟨_, _, rfl, Nat.mod_eq_of_lt hq, ?_⟩
  rw [hr]
  exact Nat.mod_eq_of_lt ((Nat.mod_le ..).trans_lt a.isLt)

/-- A quotient rounded toward zero is no further from it than the dividend, and at most half as far unless the divisor is
1 or -1. -/
theorem tdiv_fits {a b : Int} (ha : -2 ^ 31 ≤ a) (ha' : a < 2 ^ 31) (hb : b ≠ 0) (hover : ¬(a = -2 ^ 31 ∧ b = -1)) :
    -2 ^ 31 ≤ a.tdiv b ∧ a.tdiv b < 2 ^ 31 := by
  by_cases h1 : b = 1
  · subst h1; rw [Int.tdiv_one]; exact ⟨ha, ha'⟩
  · by_cases hm : b = -1
    · subst hm
      have hne : a ≠ -2 ^ 31 := fun h => hover ⟨h, rfl⟩
      rw [Int.tdiv_neg, Int.tdiv_one]
      omega
    · have habs : (a.tdiv b).natAbs = a.natAbs / b.natAbs := Int.natAbs_tdiv a b
      have hhalf : a.natAbs / b.natAbs ≤ a.natAbs / 2 := Nat.div_le_div_left (by omega) (by decide)
      omega

/-- The signed quotient and remainder are words, but for `-2^31 / -1` (R236, `DIVS_ROUND` = truncate). -/
theorem quotientS_toInt {a b : Word} (hb : b ≠ 0) (hover : ¬(a.toInt = -2 ^ 31 ∧ b.toInt = -1)) :
    ∃ q r, quotientS a b = some (q, r) ∧ q.toInt = a.toInt.tdiv b.toInt ∧ r.toInt = a.toInt.tmod b.toInt := by
  have hblo := BitVec.le_toInt b
  have hbhi := BitVec.toInt_lt (x := b)
  have hq := tdiv_fits (BitVec.le_toInt a) (BitVec.toInt_lt (x := a)) (toInt_ne_zero hb) hover
  have hr : a.toInt - a.toInt.tdiv b.toInt * b.toInt = a.toInt.tmod b.toInt := by
    rw [Int.tmod_def, Int.mul_comm]
  have hrabs : (a.toInt.tmod b.toInt).natAbs < b.toInt.natAbs := by
    rw [Int.natAbs_tmod]
    exact Nat.mod_lt _ (Int.natAbs_pos.2 (toInt_ne_zero hb))
  refine ⟨_, _, if_neg hover, BitVec.toInt_ofInt_eq_self (by decide) hq.1 hq.2, ?_⟩
  rw [Params.divsRound, hr]
  exact BitVec.toInt_ofInt_eq_self (by decide) (by omega) (by omega)

/-- Settles O42: what the quotient functions answer is what the window holds. -/
theorem divisionStartsTheWindow : Obligations.DivisionStartsTheWindow := by
  intro s s1 s2 c hd hb
  have hframe (w : Option DivWindow) : HiLoFrame s { s.popCondition.openHiLo with div := w } :=
    hiLoFrame_of rfl rfl rfl ⟨rfl, rfl, rfl⟩ rfl
  refine ⟨fun hp => ?unsigned, fun hp hover => ?signed, fun hp ha hm => ?overflow⟩
  case unsigned =>
    obtain ⟨q, r, hqr, hq, hr⟩ := quotientU_toNat (s.read s1) (s.read s2)
    rw [exec_divu hp, hqr, divide_of_idle hd hb]
    exact ⟨_, q, r, rfl, rfl, hq, hr, rfl, hframe _⟩
  case signed =>
    obtain ⟨q, r, hqr, hq, hr⟩ := quotientS_toInt hb hover
    rw [exec_divs hp, hqr, divide_of_idle hd hb]
    exact ⟨_, q, r, rfl, rfl, hq, hr, rfl, hframe _⟩
  case overflow =>
    have hqr : quotientS (s.read s1) (s.read s2) = none := if_pos ⟨ha, hm⟩
    rw [exec_divs hp, hqr, divide_of_idle hd hb]
    exact ⟨_, rfl, rfl, rfl, hframe _⟩

/-- A division by zero with none pending opens `HI` and `LO`, then faults (R235, R236). -/
theorem divide_by_zero {s : State} (hd : s.div = none) (qr : Option (Word × Word)) :
    s.popCondition.divide 0 qr = .next (s.popCondition.openHiLo.raise .zeroDivision) := by
  unfold State.divide
  rw [State.popCondition_div, hd, if_neg (by decide), if_pos rfl]

/-- Settles O43: `HI` and `LO` are opened, then the fault is raised. -/
theorem divisionByZeroFaults : Obligations.DivisionByZeroFaults := by
  intro s i s1 s2 c hi hd hb hp
  have hpc : s.popCondition.openHiLo.pc = s.pc := by simp [State.pc]
  have hexec : exec i s = .next (s.popCondition.openHiLo.raiseAt .zeroDivision (faultResume (s.pc - 4) s.pc)) := by
    rw [← faultPcValue_eq, ← hpc]
    obtain rfl | rfl := hi
    · rw [exec_divu hp, hb, divide_by_zero hd]; rfl
    · rw [exec_divs hp, hb, divide_by_zero hd]; rfl
  exact ⟨_, hexec, FaultTaken.of_raiseAt .zeroDivision _ rfl rfl rfl rfl rfl ⟨rfl, rfl, rfl⟩ rfl, by simp⟩

end Sys2Proof.Proofs.Arithmetic

/-! User mode does not see the supervisor set (10_state.md R25): each operation of a step made in user mode does the same
whatever that set holds, so the whole step does. -/

namespace Sys2Proof.Proofs.Noninterference
open Sys2Proof Sys2Proof.Machine Sys2Proof.Config Sys2Proof.Proofs.Exec

/-- The state with another supervisor set. -/
def withSup (x : RegSet) (s : State) : State := { s with sup := x }

/-- The outcome with another supervisor set in its next state. -/
def mapSup (x : RegSet) (o : Result) : Result := o.andThen fun t => .next (withSup x t)

@[simp] theorem mapSup_next (x : RegSet) (t : State) : mapSup x (.next t) = .next (withSup x t) := rfl


@[simp] theorem withSup_cur (x : RegSet) (s : State) : (withSup x s).cur = s.cur := rfl

@[simp] theorem withSup_div (x : RegSet) (s : State) : (withSup x s).div = s.div := rfl

@[simp] theorem withSup_popCondition (x : RegSet) (s : State) :
    (withSup x s).popCondition = withSup x s.popCondition := rfl

/-! ## What an operation reads in user mode -/

section Reads
variable (x : RegSet) {s : State} (hs : s.cur = .user)
include hs

theorem regs_withSup : (withSup x s).regs (withSup x s).cur = s.regs s.cur := by
  rw [withSup_cur, hs]
  rfl

theorem read_withSup (r : Reg) : (withSup x s).read r = s.read r := by
  rw [State.read, State.reg, regs_withSup x hs]
  rfl

theorem pc_withSup : (withSup x s).pc = s.pc := by
  rw [State.pc, regs_withSup x hs]
  rfl

theorem effectiveAddress_withSup (a : Reg) (imm : BitVec 15) :
    (withSup x s).effectiveAddress a imm = s.effectiveAddress a imm := by
  rw [State.effectiveAddress, read_withSup x hs]
  rfl

theorem passes_withSup (i : Instr) : (withSup x s).passes i ↔ s.passes i := by
  have hspec : (withSup x s).specifierOf i = s.specifierOf i := by cases i <;> rfl
  rw [State.passes, State.passes, hspec, State.flagsOf, regs_withSup x hs]
  rfl

omit hs in
theorem freezes_withSup (i : Instr) : (withSup x s).freezes i = s.freezes i := by
  cases i <;> rfl

theorem aluResult_withSup (i : Instr) : (withSup x s).aluResult i = s.aluResult i := by
  cases i <;> simp only [State.aluResult, read_withSup x hs]

theorem moveResult_withSup (i : Instr) : (withSup x s).moveResult i = s.moveResult i := by
  cases i <;> simp only [State.moveResult, read_withSup x hs, withSup_cur, hs, reduceCtorEq, if_false] <;> rfl

end Reads

theorem memRead_withSup (x : RegSet) (s : State) (free ea : Word) (n : Nat) :
    (withSup x s).memRead free ea n = s.memRead free ea n := by
  induction n generalizing free ea with
  | zero => rfl
  | succ n ih => rw [State.memRead, State.memRead, ih]; rfl

theorem readBytes_withSup (x : RegSet) (s : State) (ea : Word) (n : Nat) :
    (withSup x s).readBytes ea n = ((s.readBytes ea n).1, withSup x (s.readBytes ea n).2) := by
  simp only [State.readBytes, memRead_withSup]
  split <;> rfl

/-! ## What an operation does in user mode -/

section Operations
variable (x : RegSet) {s : State} (hs : s.cur = .user)
include hs

theorem srWrite_withSup (v : Word) : (withSup x s).srWrite .user v = mapSup x (s.srWrite .user v) := by
  unfold State.srWrite
  rw [withSup_cur, hs]
  split
  · rfl
  · simp only [apply_ite (mapSup x), mapSup_next]
    cases v.getLsbD Params.srLayout.m <;> rfl

theorem write_withSup (d : Reg) (v : Word) : (withSup x s).write d v = mapSup x (s.write d v) := by
  by_cases hd : d = .sr
  · subst hd
    rw [State.write_sr, State.write_sr, withSup_cur, hs, srWrite_withSup x hs]
  · rw [State.write_of_ne_sr _ v hd, State.write_of_ne_sr _ v hd, withSup_cur, hs]
    rfl

theorem writeAlu_withSup (d : Reg) (out : AluOut) (fr : Bool) :
    (withSup x s).writeAlu d out fr = mapSup x (s.writeAlu d out fr) := by
  have hflags (t : State) : (withSup x t).setAluFlags .user out = withSup x (t.setAluFlags .user out) := by
    unfold State.setAluFlags
    cases out.cv <;> rfl
  rw [State.writeAlu, State.writeAlu, write_withSup x hs, withSup_cur, hs]
  cases s.write d out.r with
  | fault r => rfl
  | refused r => rfl
  | next t =>
    simp only [mapSup_next, Result.andThen_next, hflags, apply_ite (withSup x)]
    rfl

theorem raiseAt_withSup (e : Event) (p : Word) : (withSup x s).raiseAt e p = withSup x (s.raiseAt e p) := by
  rw [State.raiseAt_user e p (s := withSup x s) hs, State.raiseAt_user e p hs]
  rfl

theorem raise_withSup (e : Event) : (withSup x s).raise e = withSup x (s.raise e) := by
  rw [State.raise, pc_withSup x hs, raiseAt_withSup x hs]
  rfl

omit hs in
theorem store_withSup (ea : Word) (n : Nat) (v : Word) : (withSup x s).store ea n v = mapSup x (s.store ea n v) := by
  by_cases h : ∃ p, n = 1 ∧ Params.memmap ea = .port p
  · obtain ⟨p, rfl, hp⟩ := h
    rw [State.store_port _ _ _ p hp, State.store_port _ _ _ p hp]
    rfl
  · have hnot (p : Port) (hn : n = 1) (hp : Params.memmap ea = .port p) : False := h ⟨p, hn, hp⟩
    rw [State.store_not_port _ _ _ _ hnot, State.store_not_port _ _ _ _ hnot]
    split_ifs <;> rfl

theorem loadInto_withSup (d a : Reg) (imm : BitVec 15) (n : Nat) (f : Word → Word) :
    (withSup x s).loadInto d a imm n f = mapSup x (s.loadInto d a imm n f) := by
  have hcur (ea : Word) : (s.readBytes ea n).2.cur = .user := by
    obtain ⟨_, hr⟩ | ⟨_, hr⟩ := State.readBytes_cases s ea n <;> rw [hr] <;> exact hs
  unfold State.loadInto
  rw [effectiveAddress_withSup x hs]
  cases accessAddress (s.effectiveAddress a imm) n with
  | none => rfl
  | some ea =>
    simp only [readBytes_withSup, write_withSup x (hcur ea), raise_withSup x hs, apply_ite (mapSup x), mapSup_next]

theorem storeFrom_withSup (d a : Reg) (imm : BitVec 15) (n : Nat) :
    (withSup x s).storeFrom d a imm n = mapSup x (s.storeFrom d a imm n) := by
  unfold State.storeFrom
  rw [effectiveAddress_withSup x hs]
  cases accessAddress (s.effectiveAddress a imm) n with
  | none => rfl
  | some ea => simp only [read_withSup x hs, store_withSup, raise_withSup x hs, apply_ite (mapSup x), mapSup_next]

omit hs in
theorem multiply_withSup (p : BitVec 64) : (withSup x s).multiply p = mapSup x (s.multiply p) := by
  simp only [State.multiply, apply_ite (mapSup x)]
  rfl

theorem divide_withSup (b : Word) (qr : Option (Word × Word)) :
    (withSup x s).divide b qr = mapSup x (s.divide b qr) := by
  have hopen : (withSup x s).openHiLo = withSup x s.openHiLo := rfl
  have hcur : s.openHiLo.cur = .user := hs
  unfold State.divide
  rw [hopen, withSup_div, raise_withSup x hcur]
  split
  · rfl
  · split
    · rfl
    · cases qr <;> rfl

theorem moveHiLo_withSup (d : Reg) (v : Word) :
    ((withSup x s).readHiLo v).2.write d ((withSup x s).readHiLo v).1 =
      mapSup x ((s.readHiLo v).2.write d (s.readHiLo v).1) := by
  have hread : (withSup x s).readHiLo v = ((s.readHiLo v).1, withSup x (s.readHiLo v).2) := by
    unfold State.readHiLo
    rw [show (withSup x s).hiLoOpen = s.hiLoOpen from rfl]
    split <;> rfl
  have hcur : (s.readHiLo v).2.cur = .user := by
    obtain ⟨_, hr⟩ | ⟨_, hr⟩ := State.readHiLo_cases s v <;> rw [hr] <;> exact hs
  rw [hread, write_withSup x hcur]

/-- An instruction, family by family. -/
theorem exec_withSup (i : Instr) : exec i (withSup x s) = mapSup x (exec i s) := by
  have hpop : s.popCondition.cur = .user := hs
  by_cases hp : s.passes i
  case neg =>
    rw [exec_of_not_passes hp, exec_of_not_passes fun h => hp ((passes_withSup x hs i).1 h)]
    rfl
  case pos =>
    have hp' : (withSup x s).passes i := (passes_withSup x hs i).2 hp
    cases i with
    | nop => rw [exec_nop, exec_nop]; rfl
    | cnd => rw [exec_cnd hp, exec_cnd hp']; rfl
    | add | sub | lsh | ash | and | or | xor | addi | subi | lshi | ashi | andi | ori | xori =>
      rw [exec_alu rfl hp, exec_alu (aluResult_withSup x hs _) hp', freezes_withSup]
      exact writeAlu_withSup x hpop ..
    | ldh | ldi =>
      rw [exec_move rfl hp, exec_move (moveResult_withSup x hs _) hp']
      exact write_withSup x hpop ..
    | lw | lhu | lhs | lbu | lbs =>
      rw [exec_load rfl rfl hp, exec_load rfl rfl hp']
      exact loadInto_withSup x hpop ..
    | sw | sh | sb =>
      rw [exec_store rfl rfl hp, exec_store rfl rfl hp']
      exact storeFrom_withSup x hpop ..
    | mltu => rw [exec_mltu hp, exec_mltu hp', read_withSup x hs, read_withSup x hs]; exact multiply_withSup x (s := s.popCondition) _
    | mlts => rw [exec_mlts hp, exec_mlts hp', read_withSup x hs, read_withSup x hs]; exact multiply_withSup x (s := s.popCondition) _
    | divu => rw [exec_divu hp, exec_divu hp', read_withSup x hs, read_withSup x hs]; exact divide_withSup x hpop ..
    | divs => rw [exec_divs hp, exec_divs hp', read_withSup x hs, read_withSup x hs]; exact divide_withSup x hpop ..
    | mvhi => rw [exec_mvhi hp, exec_mvhi hp']; exact moveHiLo_withSup x hpop ..
    | mvlo => rw [exec_mvlo hp, exec_mvlo hp']; exact moveHiLo_withSup x hpop ..
    | mvsu =>
      rw [exec_mvsu_user hs hp, exec_mvsu_user (s := withSup x s) hs hp', withSup_popCondition, raise_withSup x hpop]
      rfl
    | mvus =>
      rw [exec_mvus_user hs hp, exec_mvus_user (s := withSup x s) hs hp', withSup_popCondition, raise_withSup x hpop]
      rfl

end Operations

/-! ## The step -/

/-- What the fetch comes to with another supervisor set. -/
def mapFetched (x : RegSet) : Fetched → Fetched
  | .over o => .over (mapSup x o)
  | .run i u => .run i (withSup x u)

theorem tickAfter_withSup (x : RegSet) (s : State) : (withSup x s).tickAfter = withSup x s.tickAfter := by
  unfold State.tickAfter
  rw [withSup_div]
  cases s.div with
  | none => rfl
  | some w =>
    simp only [apply_ite (withSup x)]
    rfl

section Step
variable (x : RegSet) {s : State} (hs : s.cur = .user)
include hs

theorem fetchWord_withSup : (withSup x s).fetchWord = (s.fetchWord.1, withSup x s.fetchWord.2) := by
  rw [State.fetchWord, pc_withSup x hs, readBytes_withSup]
  rfl

theorem decodeFetched_withSup (a w : Word) :
    (withSup x s).decodeFetched a w = mapFetched x (s.decodeFetched a w) := by
  have hpc (v : Word) : ((withSup x s).withPc v).tickBefore = withSup x (s.withPc v).tickBefore := by
    rw [State.withPc, State.withPc, withSup_cur, hs]
    rfl
  unfold State.decodeFetched
  rw [hpc, raiseAt_withSup x hs]
  rcases decodeSlot (slotOf a) w with (_ | _ | _ | _) | i <;> rfl

theorem fetchAtPc_withSup : (withSup x s).fetchAtPc = mapFetched x s.fetchAtPc := by
  have hinside : (withSup x s).insideLong = s.insideLong := by
    rw [State.insideLong, pc_withSup x hs, fetchWord_withSup x hs]
    rfl
  have hcur : s.fetchWord.2.cur = .user := by
    obtain ⟨k, hk⟩ := State.fetchWord_snd s
    rw [hk]
    exact hs
  unfold State.fetchAtPc
  rw [hinside, pc_withSup x hs, raiseAt_withSup x hs, fetchWord_withSup x hs, decodeFetched_withSup x hcur]
  split_ifs <;> rfl

theorem fetch_withSup (irq : Irq) : (withSup x s).fetch irq = mapFetched x (s.fetch irq) := by
  have hcount : s.countStep.cur = .user := hs
  have hhalted : (withSup x s).halted = s.halted := rfl
  have htaken : (withSup x s).interruptTaken irq = s.interruptTaken irq := rfl
  have hstep : (withSup x s).countStep = withSup x s.countStep := rfl
  unfold State.fetch
  rw [hhalted, htaken, hstep, fetchAtPc_withSup x hcount]
  split_ifs <;> rfl

theorem stepUnder_withSup (irq : Irq) : stepUnder irq (withSup x s) = mapSup x (stepUnder irq s) := by
  unfold stepUnder
  rw [fetch_withSup x hs]
  rcases hf : s.fetch irq with o | ⟨i, u⟩
  · rfl
  · have hu : u.cur = .user := by
      obtain ⟨_, _, k, p, rfl⟩ := State.fetch_eq_run hf
      simpa using hs
    simp only [mapFetched, exec_withSup x hu]
    cases exec i u with
    | fault r => rfl
    | refused r => rfl
    | next t => exact congrArg Host.Outcome.next (tickAfter_withSup x t)

end Step

/-- Settles O56: replacing the supervisor set commutes with the whole step. -/
theorem userModeCannotReadTheSupervisorSet : Obligations.UserModeCannotReadTheSupervisorSet := by
  intro irq s x hs
  refine (stepUnder_withSup x hs irq).trans ?_
  cases stepUnder irq s <;> rfl

end Sys2Proof.Proofs.Noninterference
